-- ==== Sys2Proof/Word.lean ====
section
/-!
DEFINITION. The word types of the block: the byte of every memory (R9) and the 32-bit word of the register space
(R21).
-/

namespace Sys2Proof

/-- A byte, `b[7:0]` (R9). -/
abbrev Byte := BitVec 8

/-- A host-visible register's value (R21): `COUNT_W = LEN_W = 32` (R7). -/
abbrev Word := BitVec 32

end Sys2Proof
end

