-- ==== Sys2Proof/Config.lean ====
section
/-!
DEFINITION. What the spec leaves to the implementation (R7) and the free draws it leaves open (R242). Each is an
uninterpreted constant: no proof can see its value, so a claim holds whatever it is.
The numeric constants R6 fixes stand in Sys2Proof/Decode.lean and Sys2Proof/Machine/Operands.lean.
-/

namespace Sys2Proof

/-- `IN_CAP - 33` (R7: `IN_CAP` is a parameter, at least 33). Log entry 8. -/
opaque Config.inCapBeyond : Nat

/-- `OUT_CAP` (R7: a parameter, at least 0). Log entry 8. -/
opaque Config.outCap : Nat

/-- Whether `CHAN_ROT_SHIFT` takes its alternative value 2 instead of its default 4 (R7, C4). Log entry 8. -/
opaque Config.rotShiftIsTwo : Bool

/-- What a byte reads as that nothing has written since reset number `epoch`: the byte at offset `a` of memory number
`m` (R43, R242 (4): unspecified). Log entry 5. -/
opaque Config.unwritten : (epoch m a : Nat) → Byte

/-- The `n`-th free draw, where it is a byte (R206, R232, R233). Log entry 6. -/
opaque Config.freeByte : (n : Nat) → Byte

/-- The `n`-th free draw, where it is a register's value (R45, R233). Log entry 6. -/
opaque Config.freeWord : (n : Nat) → Word

/-- The `n`-th free draw, where it is how a spoiled decode ends (R233): 0 is success, 1 to 15 are the reason codes of
R201, so every value is one of R201's encodings. Log entry 7. -/
opaque Config.freeEnd : (n : Nat) → BitVec 4

/-- The `n`-th free draw, where it is the VERSION bit of a spoiled decode (R233). Log entry 7. -/
opaque Config.freeVersion : (n : Nat) → BitVec 1

end Sys2Proof
end

