-- ==== Sys2Proof/Syntax.lean ====
section
/-!
DEFINITION. The whole instruction set: one constructor for each of the 34 rows of spec/opcode_table.json, in the
table's order, and the formats the rows' encodings belong to (R94, R95).
-/

namespace Sys2Proof

/-- The sequencer state `st` (R37). It selects the rows of format STEP. -/
inductive Stage where
  | idle | check | hdr | tail | blk | plane | delta | commit | final
deriving DecidableEq, Repr

/-- The formats of R94. A field value means something only in its format: the header byte of `hdr`, the 2-bit
selectors of the three `wsel` formats, the 2-bit control code of `ctrl2`, the descriptor byte of `chanmode`. The two
`v0` formats and the sequencer steps have no stream bits. -/
inductive Format where
  | hdr
  | wselV0
  | wselV1C0
  | wselV1C1
  | ctrl2
  | ctrlV0
  | chanmode
  | chanmodeV0
  | step (st : Stage)
deriving DecidableEq, Repr

/-- The rows of spec/opcode_table.json. A row whose field is wider than its fixed bits carries the other bits as an
operand (log entry 16): the version nibble of an unsupported header, the whole byte of a header of another stream,
bits 7:2 of a channel descriptor. -/
inductive Instr where
  /-- HDR_V0: header byte 0xA0 (R71, R161). -/
  | hdrV0
  /-- HDR_V1: header byte 0xA1 (R71, R161). -/
  | hdrV1
  /-- HDR_BAD_VERSION: magic 0xA, a version of 2 to 15 (R88). -/
  | hdrBadVersion (version : BitVec 4)
  /-- HDR_BAD_MAGIC: any byte whose magic is not 0xA (R88). -/
  | hdrBadMagic (byte : Byte)
  /-- GRP_W0, version 0, selector 0 (R81, R102). -/
  | grpW0V0
  /-- GRP_W2, version 0, selector 1 (R81, R104). -/
  | grpW2V0
  /-- GRP_W4, version 0, selector 2 (R81, R105). -/
  | grpW4V0
  /-- GRP_W8, version 0, selector 3 (R81, R106). -/
  | grpW8V0
  /-- GRP_W0, version 1 code 0, selector 0 (R81, R102). -/
  | grpW0C0
  /-- GRP_W1, version 1 code 0, selector 1 (R81, R103). -/
  | grpW1C0
  /-- GRP_W2, version 1 code 0, selector 2 (R81, R104). -/
  | grpW2C0
  /-- GRP_W4, version 1 code 0, selector 3 (R81, R105). -/
  | grpW4C0
  /-- GRP_W1, version 1 code 1, selector 0 (R81, R103). -/
  | grpW1C1
  /-- GRP_W2, version 1 code 1, selector 1 (R81, R104). -/
  | grpW2C1
  /-- GRP_W4, version 1 code 1, selector 2 (R81, R105). -/
  | grpW4C1
  /-- GRP_W8, version 1 code 1, selector 3 (R81, R106). -/
  | grpW8C1
  /-- SRC_PACKED0: control code 0 (R128). -/
  | srcPacked0
  /-- SRC_PACKED1: control code 1 (R129). -/
  | srcPacked1
  /-- SRC_ZERO: control code 2 (R130). -/
  | srcZero
  /-- SRC_LITERAL: control code 3 (R131). -/
  | srcLiteral
  /-- SRC_PACKED_V0: implicit for every plane in version 0 (R127). -/
  | srcPackedV0
  /-- DELTA_ZZ8: channel MODE 0 (R144); `rest` is bits 7:2 of the descriptor, ignored here (R90). -/
  | deltaZz8 (rest : BitVec 6)
  /-- DELTA_ZZ16: channel MODE 1 (R145); `rest` is ignored (R90). -/
  | deltaZz16 (rest : BitVec 6)
  /-- DELTA_RXOR32: channel MODE 2 (R146); `rest` holds the rotation field (R84, R86). -/
  | deltaRxor32 (rest : BitVec 6)
  /-- CHAN_BAD: channel MODE 3 (R89, R148). -/
  | chanBad (rest : BitVec 6)
  /-- DELTA_ZZ8, implicit for every component group in version 0 (R144, R147). -/
  | deltaZz8V0
  /-- START: the write of CTRL.START, and the tests of state CHECK (R160). -/
  | start
  /-- HDR: header validation (R161). -/
  | hdr
  /-- TAIL: tail sizes, length check, seed and channel table, loop entry (R162 to R166). -/
  | tail
  /-- BLK: block start and control region (R167, R168). -/
  | blk
  /-- PLANE: one residual column (R169). -/
  | plane
  /-- DELTA: reconstruct one component group (R170). -/
  | delta
  /-- COMMIT: write the block, carry the last element (R172). -/
  | commit
  /-- FINAL: the trailing-data check and the successful end (R174, R175). -/
  | final
deriving DecidableEq, Repr

end Sys2Proof
end

