-- ==== Sys2Proof/WellFormed.lean ====
section
/-!
DEFINITION. Which terms of Instr stand for an encoding: a header row's operand must not be one that another header row
takes first (R88, R94).
-/

namespace Sys2Proof

/-- HDR_BAD_VERSION has a version of 2 to 15, HDR_BAD_MAGIC a magic nibble other than 0xA (R88); every other row's
operands may take every value. -/
def Instr.WellFormed : Instr → Bool
  | .hdrBadVersion version => 2 ≤ version.toNat
  | .hdrBadMagic byte => byte.extractLsb' 4 4 != 0xA#4
  | .hdrV0 | .hdrV1 => true
  | .grpW0V0 | .grpW2V0 | .grpW4V0 | .grpW8V0 => true
  | .grpW0C0 | .grpW1C0 | .grpW2C0 | .grpW4C0 => true
  | .grpW1C1 | .grpW2C1 | .grpW4C1 | .grpW8C1 => true
  | .srcPacked0 | .srcPacked1 | .srcZero | .srcLiteral | .srcPackedV0 => true
  | .deltaZz8 _ | .deltaZz16 _ | .deltaRxor32 _ | .chanBad _ | .deltaZz8V0 => true
  | .start | .hdr | .tail | .blk | .plane | .delta | .commit | .final => true

end Sys2Proof
end

