-- ==== Sys2Proof/Decode.lean ====
section
/-!
DEFINITION. The decoder, total on any field value in any format, rejecting by name; the encoder, written from the same
tables; and where a 2-bit field lies in its byte (R71, R77, R78, R80, R81, R84, R85, R93, R94).
-/

namespace Sys2Proof

/-- `VERTEX_MAGIC` (R6). -/
def vertexMagic : BitVec 4 := 0xA#4

/-- Why a field value is no encoding of its format. -/
inductive DecodeError where
  /-- The value has bits above the 2-bit field of its format (R94). -/
  | widerThanField (b : Byte)
  /-- The format has no stream bits, and the value is not 0 (R94: rows without match and mask). -/
  | noStreamBits (b : Byte)
  /-- `IDLE` selects no sequencer step (R37). -/
  | idleHasNoStep
deriving DecidableEq, Repr

/-- The 2-bit field number `k` of a byte, bits `2k+1 : 2k`: group `4i+k` of a width-header byte (R80), plane `k` of a
control byte (R77). -/
def field2 (b : Byte) (k : Nat) : Byte := (b >>> (2 * k)) &&& 3#8

/-- HDR rows, the exact rows first, then the bad version, then the default (R71, R88, R94). -/
def decodeHeader (b : Byte) : Instr :=
  if b.extractLsb' 4 4 = vertexMagic then
    if b.extractLsb' 0 4 = 0#4 then .hdrV0
    else if b.extractLsb' 0 4 = 1#4 then .hdrV1
    else .hdrBadVersion (b.extractLsb' 0 4)
  else .hdrBadMagic b

/-- One of four rows by a 2-bit value; a wider value is rejected. -/
def decodeTwoBits (i0 i1 i2 i3 : Instr) (b : Byte) : Except DecodeError Instr :=
  if b = 0#8 then .ok i0
  else if b = 1#8 then .ok i1
  else if b = 2#8 then .ok i2
  else if b = 3#8 then .ok i3
  else .error (.widerThanField b)

/-- The row of an implicit format. -/
def decodeImplicit (i : Instr) (b : Byte) : Except DecodeError Instr :=
  if b = 0#8 then .ok i else .error (.noStreamBits b)

/-- CHANMODE rows by the low 2 bits of the descriptor (R84, R85). -/
def decodeChannel (b : Byte) : Instr :=
  if b.extractLsb' 0 2 = 0#2 then .deltaZz8 (b.extractLsb' 2 6)
  else if b.extractLsb' 0 2 = 1#2 then .deltaZz16 (b.extractLsb' 2 6)
  else if b.extractLsb' 0 2 = 2#2 then .deltaRxor32 (b.extractLsb' 2 6)
  else .chanBad (b.extractLsb' 2 6)

/-- The STEP row the sequencer state selects (R37, R94). -/
def decodeStage (st : Stage) (b : Byte) : Except DecodeError Instr :=
  match st with
  | .idle => .error .idleHasNoStep
  | .check => decodeImplicit .start b
  | .hdr => decodeImplicit .hdr b
  | .tail => decodeImplicit .tail b
  | .blk => decodeImplicit .blk b
  | .plane => decodeImplicit .plane b
  | .delta => decodeImplicit .delta b
  | .commit => decodeImplicit .commit b
  | .final => decodeImplicit .final b

/-- The decoder (R93, R94): the row a field value selects in a format. -/
def decode (f : Format) (b : Byte) : Except DecodeError Instr :=
  match f with
  | .hdr => .ok (decodeHeader b)
  | .wselV0 => decodeTwoBits .grpW0V0 .grpW2V0 .grpW4V0 .grpW8V0 b
  | .wselV1C0 => decodeTwoBits .grpW0C0 .grpW1C0 .grpW2C0 .grpW4C0 b
  | .wselV1C1 => decodeTwoBits .grpW1C1 .grpW2C1 .grpW4C1 .grpW8C1 b
  | .ctrl2 => decodeTwoBits .srcPacked0 .srcPacked1 .srcZero .srcLiteral b
  | .ctrlV0 => decodeImplicit .srcPackedV0 b
  | .chanmode => .ok (decodeChannel b)
  | .chanmodeV0 => decodeImplicit .deltaZz8V0 b
  | .step st => decodeStage st b

/-- The descriptor byte of a CHANMODE row (R84). -/
def channelByte (rest : BitVec 6) (mode : BitVec 2) : Byte := rest ++ mode

/-- The encoder: a row's format and its field value in that format (R71, R78, R81, R85, R93). -/
def encode : Instr → Format × Byte
  | .hdrV0 => (.hdr, 0xA0#8)
  | .hdrV1 => (.hdr, 0xA1#8)
  | .hdrBadVersion version => (.hdr, vertexMagic ++ version)
  | .hdrBadMagic byte => (.hdr, byte)
  | .grpW0V0 => (.wselV0, 0#8)
  | .grpW2V0 => (.wselV0, 1#8)
  | .grpW4V0 => (.wselV0, 2#8)
  | .grpW8V0 => (.wselV0, 3#8)
  | .grpW0C0 => (.wselV1C0, 0#8)
  | .grpW1C0 => (.wselV1C0, 1#8)
  | .grpW2C0 => (.wselV1C0, 2#8)
  | .grpW4C0 => (.wselV1C0, 3#8)
  | .grpW1C1 => (.wselV1C1, 0#8)
  | .grpW2C1 => (.wselV1C1, 1#8)
  | .grpW4C1 => (.wselV1C1, 2#8)
  | .grpW8C1 => (.wselV1C1, 3#8)
  | .srcPacked0 => (.ctrl2, 0#8)
  | .srcPacked1 => (.ctrl2, 1#8)
  | .srcZero => (.ctrl2, 2#8)
  | .srcLiteral => (.ctrl2, 3#8)
  | .srcPackedV0 => (.ctrlV0, 0#8)
  | .deltaZz8 rest => (.chanmode, channelByte rest 0#2)
  | .deltaZz16 rest => (.chanmode, channelByte rest 1#2)
  | .deltaRxor32 rest => (.chanmode, channelByte rest 2#2)
  | .chanBad rest => (.chanmode, channelByte rest 3#2)
  | .deltaZz8V0 => (.chanmodeV0, 0#8)
  | .start => (.step .check, 0#8)
  | .hdr => (.step .hdr, 0#8)
  | .tail => (.step .tail, 0#8)
  | .blk => (.step .blk, 0#8)
  | .plane => (.step .plane, 0#8)
  | .delta => (.step .delta, 0#8)
  | .commit => (.step .commit, 0#8)
  | .final => (.step .final, 0#8)

/-- How many bits of the field value a format gives a row (R94). -/
def Format.bits : Format → Nat
  | .hdr | .chanmode => 8
  | .wselV0 | .wselV1C0 | .wselV1C1 | .ctrl2 => 2
  | .ctrlV0 | .chanmodeV0 | .step _ => 0

/-- Whether a bare table word is a 2-bit field value rather than a whole header byte. Log entry 3: the table's word
does not name its format, so a byte below 0x20 stands for a width selector of version 0, and any other for a
header byte. -/
def isSelectorWord (b : Byte) : Bool := b.toNat < 0x20

/-- The instruction the decoder reads from a table word of `nbits` bits, as the host numbers them. Log entry 3 says
which format a bare word is read in. -/
def decodeTableWord (nbits w : Nat) : Option Instr :=
  let b : Byte := BitVec.ofNat 8 w
  if nbits = 0 then none
  else if isSelectorWord b then (decode .wselV0 (field2 b 0)).toOption
  else (decode .hdr b).toOption

end Sys2Proof
end

