-- ==== Sys2Proof/Machine/State.lean ====
section
/-!
DEFINITION. The machine's state as plain data: everything 10_state.md gives the block (R20 to R46), the host's turns,
the reasons a decode or a step can end, and the state after reset (R43, R230). INVENTORY.md lists every field with its
rule and reset value.
-/

namespace Sys2Proof.Machine

/-- The memories and byte arrays of the block (R31 to R35, R40 to R42), and the latch of a group's 16 outputs (R100,
log entry 10). -/
inductive Space where
  | inp | out | last | chan | ctl | res | tr | grp
deriving DecidableEq, Repr

/-- A memory: the bytes something has written, at strictly rising offsets. An offset that is not listed holds no value
of its own; `State.peek` says what it reads as (log entry 5). -/
abbrev Memory := List Host.Cell

/-- The reasons a decode ends with an error (R201). Codes 0 and 16 to 31 have no constructor (U11). -/
inductive Reason where
  | badElemSize | inRange | outRange
  | empty | badMagic | badVersion | shortTail
  | truncControl | truncLiteral | truncWidthHeader | truncGroup
  | badChannel | trailingMismatch
  | badWidth | badColumnLength
deriving DecidableEq, Repr

/-- The fields of STATUS (R23, R39); the reserved bits are no state, they read 0. -/
structure Status where
  busy : Bool
  done : Bool
  err : Bool
  errClass : BitVec 2
  errReason : BitVec 5
  version : BitVec 1
deriving DecidableEq, Repr

/-- The two values R7 gives `CHAN_ROT_SHIFT`. -/
inductive RotShift where
  /-- The default, 4: ROT is bits 7:4 of the descriptor. -/
  | four
  /-- The alternative, 2: ROT is bits 7:2. -/
  | two
deriving DecidableEq, Repr

/-- The parameters R7 leaves to the implementation (log entry 8). No step changes them. -/
structure Params where
  inCap : Nat
  outCap : Nat
  rotShift : RotShift
deriving DecidableEq, Repr

/-- A host access (R217, R240). -/
inductive HostCommand where
  /-- Write a 32-bit register (R21 to R29). -/
  | writeReg (offset value : Word)
  /-- Read a 32-bit register (R21 to R29). -/
  | readReg (offset : Word)
  /-- Write one byte of IN (R41, R233). -/
  | writeIn (a : Nat) (b : Byte)
  /-- Read one byte of IN (R233). -/
  | readIn (a : Nat)
  /-- Write one byte of OUT, which is ignored (R232). -/
  | writeOut (a : Nat) (b : Byte)
  /-- Read one byte of OUT (R42, R45, R232). -/
  | readOut (a : Nat)
deriving DecidableEq, Repr

/-- Who moves next (R20, R61; log entry 2). -/
inductive Turn where
  /-- The engine takes a step. -/
  | engine
  /-- The host makes one access. -/
  | host (c : HostCommand)
  /-- The platform asserts reset (R230). -/
  | reset
deriving DecidableEq, Repr

/-- The whole state of the block. Fields below `grp` are the model's own, not the spec's. -/
structure State where
  /-- The parameters (R7). -/
  params : Params
  /-- Input memory IN (R41). -/
  inp : Memory
  /-- Output memory OUT (R42). -/
  out : Memory
  /-- STATUS as the engine holds it (R23). -/
  status : Status
  /-- ELEM_COUNT (R24). -/
  elemCount : Word
  /-- ELEM_SIZE (R25). -/
  elemSize : Word
  /-- IN_LEN (R26). -/
  inLen : Word
  /-- ELEM_DONE (R27). -/
  elemDone : Word
  /-- IN_POS (R28). -/
  inPos : Word
  /-- Latched element count (R30). -/
  cnt : Word
  /-- Latched element size (R30). -/
  es : Word
  /-- Latched input length (R30). -/
  len : Word
  /-- The cursor (R36). -/
  pos : Word
  /-- Format version of the current decode (R35). -/
  ver : BitVec 1
  /-- Unpadded tail size (R35). -/
  ts : BitVec 9
  /-- Padded tail size (R35). -/
  tp : BitVec 9
  /-- Block capacity (R35). -/
  cap : BitVec 9
  /-- Elements committed so far, `done` (R35). -/
  done : Word
  /-- `B`, the element count of the current block (R35). -/
  blk : BitVec 9
  /-- `BA`, the aligned count (R35). -/
  blkAligned : BitVec 9
  /-- Byte offset of the current component group (R35). -/
  g : BitVec 8
  /-- Current plane (R35). -/
  j : BitVec 2
  /-- Error class of the decode (R35). -/
  errc : BitVec 2
  /-- Error reason of the decode (R35). -/
  errr : BitVec 5
  /-- Sequencer state (R37). -/
  st : Stage
  /-- Last element (R31). -/
  last : Memory
  /-- Channel table (R32). -/
  chan : Memory
  /-- Control bytes (R35). -/
  ctl : Memory
  /-- Residual scratch (R33). -/
  res : Memory
  /-- Transposed block (R34). -/
  tr : Memory
  /-- The 16 outputs of the group decoded last (R100; log entry 10). -/
  grp : Memory
  /-- Whose turns come next; the engine's, where the list is empty (log entry 2). -/
  turns : List Turn
  /-- What the last host read returned (log entry 15). -/
  hostData : Word
  /-- The host has written IN below `len` since START, so the result is a draw (R233; log entry 7). -/
  spoiled : Bool
  /-- How many free draws have been made (log entry 6). -/
  draws : Nat
  /-- How many times reset has been asserted (log entry 20). -/
  epoch : Nat
deriving DecidableEq, Repr

/-- Why a step has no next state. -/
inductive Fault where
  /-- Raised by a read or write at or beyond the size of a memory, offset `a` being the first or last byte of the
  access: an address the spec says does not exist (R40). Safe: no rule makes such an access in a state a run reaches
  (R59, R67, R126); a host may try one (log entry 11). -/
  | noSuchByte (m : Space) (a : Nat)
  /-- Raised where a field value decodes to a row of another format than the one asked for. Never raised: a decoder
  answers rows of its own format only. Safe (log entry 12). -/
  | wrongUnit
deriving DecidableEq, Repr

/-- Why an instruction has no meaning. -/
inductive Refusal where
  /-- Raised by an arm of exec that has no meaning yet: by none, every row has one. Safe. -/
  | notModelled (mnemonic : String)
deriving DecidableEq, Repr

/-- STATUS = 0 (R43). -/
def Status.zero : Status :=
  { busy := false, done := false, err := false, errClass := 0, errReason := 0, version := 0 }

/-- The implementation's parameters, whatever they are (R7). -/
def Params.implementation : Params :=
  { inCap := Config.inCapBeyond + 33
    outCap := Config.outCap
    rotShift := if Config.rotShiftIsTwo then .two else .four }

/-- The state after reset (R43, R230). Registers the spec leaves unspecified hold 0 (DESIGN CHOICE, log entry 4); no
byte of a memory is listed, so each reads as a free value (log entry 5). -/
def State.reset : State :=
  { params := Params.implementation
    inp := [], out := []
    status := Status.zero
    elemCount := 0, elemSize := 0, inLen := 0, elemDone := 0, inPos := 0
    cnt := 0, es := 0, len := 0, pos := 0
    ver := 0, ts := 0, tp := 0, cap := 0, done := 0, blk := 0, blkAligned := 0, g := 0, j := 0
    errc := 0, errr := 0
    st := .idle
    last := [], chan := [], ctl := [], res := [], tr := [], grp := []
    turns := [], hostData := 0, spoiled := false, draws := 0, epoch := 0 }

end Sys2Proof.Machine
end

