-- ==== Sys2Proof/Machine/Flags.lean ====
section
/-!
DEFINITION. The status bits: the STATUS word (R23), what a host reads of it (R45), and the class and reason codes
(R200, R201).
-/

namespace Sys2Proof.Machine

/-- ERR_CLASS of a reason (R200, R201): 1 FORMAT, 2 TRUNCATED, 3 USAGE. -/
def Reason.cls : Reason → BitVec 2
  | .empty | .badMagic | .badVersion | .shortTail | .badChannel | .trailingMismatch => 1
  | .truncControl | .truncLiteral | .truncWidthHeader | .truncGroup => 2
  | .badElemSize | .inRange | .outRange | .badWidth | .badColumnLength => 3

/-- ERR_REASON of a reason (R201). -/
def Reason.code : Reason → BitVec 5
  | .badElemSize => 1
  | .inRange => 2
  | .outRange => 3
  | .empty => 4
  | .badMagic => 5
  | .badVersion => 6
  | .shortTail => 7
  | .truncControl => 8
  | .truncLiteral => 9
  | .truncWidthHeader => 10
  | .truncGroup => 11
  | .badChannel => 12
  | .trailingMismatch => 13
  | .badWidth => 14
  | .badColumnLength => 15

/-- The reason a 4-bit code stands for; none for 0, which is success (R201). -/
def reasonOfCode (c : BitVec 4) : Option Reason :=
  match c.toNat with
  | 1 => some .badElemSize
  | 2 => some .inRange
  | 3 => some .outRange
  | 4 => some .empty
  | 5 => some .badMagic
  | 6 => some .badVersion
  | 7 => some .shortTail
  | 8 => some .truncControl
  | 9 => some .truncLiteral
  | 10 => some .truncWidthHeader
  | 11 => some .truncGroup
  | 12 => some .badChannel
  | 13 => some .trailingMismatch
  | 14 => some .badWidth
  | 15 => some .badColumnLength
  | _ => none

/-- STATUS while a decode runs: BUSY = 1 and every other field 0 (R160). -/
def Status.started : Status := { Status.zero with busy := true }

/-- STATUS at the end of a decode: BUSY = 0, DONE = 1, the error fields of the outcome, and VERSION (R175, R202). -/
def Status.ended (r : Option Reason) (version : BitVec 1) : Status :=
  match r with
  | none => { busy := false, done := true, err := false, errClass := 0, errReason := 0, version := version }
  | some r =>
    { busy := false, done := true, err := true, errClass := r.cls, errReason := r.code, version := version }

/-- The 32-bit word of STATUS, reserved bits 0 (R23). -/
def Status.word (s : Status) : Word :=
  0#15 ++ s.version ++ 0#3 ++ s.errReason ++ 0#2 ++ s.errClass ++ 0#1 ++
    (BitVec.ofBool s.err ++ BitVec.ofBool s.done ++ BitVec.ofBool s.busy)

/-- What a host reads of STATUS: while BUSY = 1, BUSY alone (R45). -/
def Status.read (s : Status) : Word := if s.busy then 1#32 else s.word

end Sys2Proof.Machine
end

