-- ==== Sys2Proof/Machine/Ops.lean ====
section
/-!
DEFINITION. The named operations over the memories (R10, R40 to R42), the free draws (R242), and the one shared way a
decode ends: with an error, the block's exception (R202, R203, R206), with success (R175), or, where the host has
written the input meanwhile, with a free result (R233). There is no return from an error (R207).
-/

namespace Sys2Proof.Machine

/-- The memory is in its canonical form: its offsets strictly rise. -/
abbrev Memory.wf (m : Memory) : Prop := m.Pairwise fun c d => c.1 < d.1

/-- The byte listed at an offset. -/
def Memory.lookup (a : Nat) : Memory → Option Byte
  | [] => none
  | c :: m => if c.1 = a then some c.2 else Memory.lookup a m

/-- Bytes at consecutive offsets from `a`. -/
def Memory.cellsFrom (a : Nat) : List Byte → Memory
  | [] => []
  | b :: bs => (a, b) :: Memory.cellsFrom (a + 1) bs

/-- The memory with `bs` written from offset `a` on (R10 `MemWrite`). -/
def Memory.write (a : Nat) (bs : List Byte) (m : Memory) : Memory :=
  m.filter (fun c => decide (c.1 < a)) ++ Memory.cellsFrom a bs ++
    m.filter (fun c => decide (a + bs.length ≤ c.1))

/-- A number for each memory, so that unwritten bytes of different memories are different free values. -/
def Space.number : Space → Nat
  | .inp => 0
  | .out => 1
  | .last => 2
  | .chan => 3
  | .ctl => 4
  | .res => 5
  | .tr => 6
  | .grp => 7

/-- How many bytes a memory has (R7, R8, R31 to R35). -/
def State.size (s : State) : Space → Nat
  | .inp => s.params.inCap
  | .out => s.params.outCap
  | .last => 256
  | .chan => 64
  | .ctl => 64
  | .res => 1024
  | .tr => 8192
  | .grp => 16

/-- The memory of a space. -/
def State.mem (s : State) : Space → Memory
  | .inp => s.inp
  | .out => s.out
  | .last => s.last
  | .chan => s.chan
  | .ctl => s.ctl
  | .res => s.res
  | .tr => s.tr
  | .grp => s.grp

/-- The state with the memory of a space replaced. -/
def State.setMem (s : State) (sp : Space) (m : Memory) : State :=
  match sp with
  | .inp => { s with inp := m }
  | .out => { s with out := m }
  | .last => { s with last := m }
  | .chan => { s with chan := m }
  | .ctl => { s with ctl := m }
  | .res => { s with res := m }
  | .tr => { s with tr := m }
  | .grp => { s with grp := m }

/-- What a byte reads as: the byte last written, or, where nothing has written it since reset, a free value (R43, R242;
log entry 5). A read changes nothing (R56). -/
def State.peek (s : State) (sp : Space) (a : Nat) : Byte :=
  ((s.mem sp).lookup a).getD (Config.unwritten s.epoch sp.number a)

/-- How a rule stops before its last statement: by an error of the decode, in the state of the failing check (R203), or
by a fault of the model. -/
inductive Exit where
  | raised (r : Reason) (s : State)
  | stopped (f : Fault)
deriving DecidableEq, Repr

/-- A rule's run: its result, or how it stopped. -/
abbrev Run (α : Type) := Except Exit α

/-- `raise Error(cls, reason)` at a check that fails in state `s` (R203). -/
def raise {α : Type} (r : Reason) (s : State) : Run α := .error (.raised r s)

/-- `MemRead(a, n)` on a memory (R10). An access outside the memory faults (log entry 11). -/
def State.load (s : State) (sp : Space) (a n : Nat) : Run (List Byte) :=
  if a + n ≤ s.size sp then .ok ((List.range n).map fun k => s.peek sp (a + k))
  else .error (.stopped (.noSuchByte sp (a + n - 1)))

/-- `MemWrite(a, n, bytes)` on a memory (R10). An access outside the memory faults (log entry 11). -/
def State.store (s : State) (sp : Space) (a : Nat) (bs : List Byte) : Run State :=
  if a + bs.length ≤ s.size sp then .ok (s.setMem sp (Memory.write a bs (s.mem sp)))
  else .error (.stopped (.noSuchByte sp (a + bs.length - 1)))

/-- Writes of equal runs of bytes, `stride` apart, the first at `a` (the `elementSize`-strided output of R151). -/
def State.storeStrided (sp : Space) (stride : Nat) : Nat → List (List Byte) → State → Run State
  | _, [], s => .ok s
  | a, bs :: rest, s => do
    let s ← s.store sp a bs
    State.storeStrided sp stride (a + stride) rest s

/-- `n` fresh free bytes (R242). -/
def State.freeBytes (s : State) (n : Nat) : List Byte := (List.range n).map fun k => Config.freeByte (s.draws + k)

/-- How many bytes of OUT a failed decode leaves open: `[0, cnt·es)`, as far as OUT goes (R206; log entry 9). -/
def State.openBytes (s : State) : Nat := min (s.cnt.toNat * s.es.toNat) s.params.outCap

/-- Every byte of `OUT[0 .. cnt·es)` becomes a free value (R206, R233). -/
def State.drawOut (s : State) : State :=
  { s with
    out := Memory.write 0 (s.freeBytes s.openBytes) s.out
    draws := s.draws + s.openBytes }

/-- A successful end (R175). -/
def State.endOk (s : State) : State :=
  { s with
    status := Status.ended none s.ver
    elemDone := s.done
    inPos := s.pos
    st := .idle }

/-- TAKING AN ERROR, the block's exception (R202, R203): the class and reason registers, STATUS, IN_POS, ELEM_DONE and
the sequencer state; OUT becomes unspecified below `cnt·es`, but for OUT_RANGE, which leaves it (R206). VERSION is
the bit rule R161 put into STATUS, 0 if it did not complete. -/
def State.endError (r : Reason) (s : State) : State :=
  let s := if r = .outRange then s else s.drawOut
  { s with
    errc := r.cls
    errr := r.code
    status := Status.ended (some r) s.status.version
    elemDone := s.done
    inPos := s.pos
    st := .idle }

/-- The end of a decode whose input the host wrote below `len` while it ran: everything the host sees of the result is
free, among the encodings of R201 (R233; log entry 7). -/
def State.endSpoiled (s : State) : State :=
  let s := s.drawOut
  let r := reasonOfCode (Config.freeEnd s.draws)
  { s with
    errc := (r.map Reason.cls).getD 0
    errr := (r.map Reason.code).getD 0
    status := Status.ended r (Config.freeVersion s.draws)
    elemDone := Config.freeWord s.draws
    inPos := Config.freeWord (s.draws + 1)
    st := .idle
    draws := s.draws + 2 }

/-- The end of a decode: with an error or without, and free if the input was written (R175, R203, R233). -/
def State.endDecode (r : Option Reason) (s : State) : State :=
  if s.spoiled then s.endSpoiled
  else match r with
    | none => s.endOk
    | some r => s.endError r

/-- What a rule's run makes of a step: an error of the decode is a next state, in which the decode has ended (R203,
R238). -/
def outcome : Run State → Host.Outcome State Fault Refusal
  | .ok s => .next s
  | .error (.raised r s) => .next (s.endDecode (some r))
  | .error (.stopped f) => .fault f

end Sys2Proof.Machine
end

