-- ==== Sys2Proof/Machine/Operands.lean ====
section
/-!
DEFINITION. How every operand is formed (R87): the packed fields and escapes of a group (R83, R101), lane words from
planes (R50, R143), the zigzag and rotation arithmetic (R9, R140 to R142), the tail sizes (R162), the block capacity
(R166), the aligned count (R167); and the constants of R6, each named once (U1).
-/

namespace Sys2Proof.Machine

/-- `GROUP_SIZE` (R6). -/
def groupSize : Nat := 16
/-- `GROUP_DECODE_LIMIT` (R6). -/
def groupDecodeLimit : Nat := 24
/-- `BLOCK_MAX` (R6). -/
def blockMax : Nat := 256
/-- `BLOCK_BYTES` (R6). -/
def blockBytes : Nat := 8192
/-- `TAIL_MIN_V0` (R6). -/
def tailMinV0 : Nat := 32
/-- `TAIL_MIN_V1` (R6). -/
def tailMinV1 : Nat := 24
/-- `ES_MIN` (R6). -/
def esMin : Nat := 4
/-- `ES_MAX` (R6). -/
def esMax : Nat := 256
/-- `ES_ALIGN` (R6). -/
def esAlign : Nat := 4

/-- `ceil(a/b)` (R9). -/
def ceilDiv (a b : Nat) : Nat := (a + b - 1) / b

/-- `align16(n)` (R9, R167). -/
def align16 (n : Nat) : Nat := ceilDiv n 16 * 16

/-- The escape sentinel at width `w`, the all-ones field (R101). -/
def sentinel (w : Nat) : Nat := 2 ^ w - 1

/-- Field `t` of a packed region at width `w`, MSB-first in its byte (R83). -/
def packedField (w : Nat) (region : List Byte) (t : Nat) : Nat :=
  ((region.getD (t * w / 8) 0).toNat >>> (8 - w - t * w % 8)) &&& sentinel w

/-- The fields in order, each sentinel replaced by the next byte of the escape stream at offset `e` of IN, and the
offset after the last escape used (R101). -/
def takeEscapes (s : State) (w : Nat) : List Nat → Nat → Run (List Byte × Nat)
  | [], e => .ok ([], e)
  | f :: fs, e =>
    if f = sentinel w then do
      let b ← s.load .inp e 1
      let (vs, e') ← takeEscapes s w fs (e + 1)
      .ok (b ++ vs, e')
    else do
      let (vs, e') ← takeEscapes s w fs e
      .ok (BitVec.ofNat 8 f :: vs, e')

/-- The unsigned value of bytes, the first the least significant (R50, R143). -/
def leNat : List Byte → Nat
  | [] => 0
  | b :: bs => b.toNat + 256 * leNat bs

/-- A lane word from its bytes, plane 0 the low byte (R50, R143, R150). -/
def laneWord (w : Nat) (bs : List Byte) : BitVec w := BitVec.ofNat w (leNat bs)

/-- The `n` bytes of a lane word, low byte first (R50, R151). -/
def laneBytes {w : Nat} (n : Nat) (v : BitVec w) : List Byte := (List.range n).map fun k => v.extractLsb' (8 * k) 8

/-- Zigzag decode of an N-bit value: `(v >> 1) ^ (0 - (v & 1))` (R140, R141). -/
def unzz {w : Nat} (v : BitVec w) : BitVec w := (v >>> 1) ^^^ (0#w - (v &&& 1#w))

/-- `unzz8` (R140). -/
def unzz8 (v : BitVec 8) : BitVec 8 := unzz v

/-- `unzz16` (R141). -/
def unzz16 (v : BitVec 16) : BitVec 16 := unzz v

/-- `rotl32(v, r)` for `r` of 0 to 31 (R9, R142). -/
def rotl32 (v : BitVec 32) (r : Nat) : BitVec 32 := (v <<< r) ||| (v >>> ((32 - r) % 32))

/-- `CHAN_ROT_SHIFT` (R7). -/
def RotShift.bits : RotShift → Nat
  | .four => 4
  | .two => 2

/-- `r = (32 - ROT) mod 32`, with ROT the descriptor shifted right (R86, R142). ROT may be up to 63. -/
def rotAmount (shift : RotShift) (descriptor : Byte) : Nat := (64 - descriptor.toNat >>> shift.bits) % 32

/-- Each value of a lane from its residual and the value before it, the first from the seed (R144 to R146, R150). -/
def chain {α : Type} (f : α → α → α) : α → List α → List α
  | _, [] => []
  | p, r :: rs => f r p :: chain f (f r p) rs

/-- `ts`, the unpadded tail size (R162). -/
def tailSize (ver : BitVec 1) (es : Nat) : Nat := es + if ver = 0 then 0 else es / 4

/-- `tp`, the padded tail size (R162). -/
def tailPadded (ver : BitVec 1) (es : Nat) : Nat := max (tailSize ver es) (if ver = 0 then tailMinV0 else tailMinV1)

/-- `BLOCKCAP(es)` (R166): `x & ~15` is the largest multiple of 16 not above `x`. -/
def blockCap (es : Nat) : Nat := min blockMax (blockBytes / es / 16 * 16)

/-- The element sizes R160 accepts. -/
def legalElemSize (es : Nat) : Bool := esMin ≤ es && es ≤ esMax && es % esAlign == 0

end Sys2Proof.Machine
end

