-- ==== Sys2Proof/Machine/Group.lean ====
section
/-!
DEFINITION. The residual group decoder (40_group_decoder.md R100 to R108): GROUP at each width, and the twelve GRP rows.
A row's effect is R100's contract: its 16 outputs, and the cursor.
-/

namespace Sys2Proof.Machine

/-- A group's 16 outputs and its new cursor (R100). -/
def groupResult (v : List Byte) (p : Nat) (s : State) : Run State := do
  let s ← s.store .grp 0 v
  .ok { s with pos := BitVec.ofNat 32 p }

/-- `UNPACK(w, p)` (R101). -/
def unpackGroup (w : Nat) (s : State) : Run State := do
  let p := s.pos.toNat
  let region ← s.load .inp p (2 * w)
  let (v, e) ← takeEscapes s w ((List.range groupSize).map (packedField w region)) (p + 2 * w)
  groupResult v e s

/-- The width-0 group: 16 zeros, no byte read (R102). -/
def zeroGroup (s : State) : Run State := groupResult (List.replicate groupSize 0) s.pos.toNat s

/-- The width-8 group: 16 literal bytes (R106). -/
def literalGroup (s : State) : Run State := do
  let v ← s.load .inp s.pos.toNat groupSize
  groupResult v (s.pos.toNat + groupSize) s

/-- `GROUP(w, p)` at the cursor (R100). Any other width is USAGE / BAD_WIDTH (R107), which no row reaches (R91). -/
def group (w : Nat) (s : State) : Run State :=
  if w = 0 then zeroGroup s
  else if w = 8 then literalGroup s
  else if w = 1 ∨ w = 2 ∨ w = 4 then unpackGroup w s
  else raise .badWidth s

/-- GRP_W0, version 0 (R102). -/
def grpW0V0 (s : State) : Run State := group 0 s
/-- GRP_W2, version 0 (R104). -/
def grpW2V0 (s : State) : Run State := group 2 s
/-- GRP_W4, version 0 (R105). -/
def grpW4V0 (s : State) : Run State := group 4 s
/-- GRP_W8, version 0 (R106). -/
def grpW8V0 (s : State) : Run State := group 8 s
/-- GRP_W0, version 1 code 0 (R102). -/
def grpW0C0 (s : State) : Run State := group 0 s
/-- GRP_W1, version 1 code 0 (R103). -/
def grpW1C0 (s : State) : Run State := group 1 s
/-- GRP_W2, version 1 code 0 (R104). -/
def grpW2C0 (s : State) : Run State := group 2 s
/-- GRP_W4, version 1 code 0 (R105). -/
def grpW4C0 (s : State) : Run State := group 4 s
/-- GRP_W1, version 1 code 1 (R103). -/
def grpW1C1 (s : State) : Run State := group 1 s
/-- GRP_W2, version 1 code 1 (R104). -/
def grpW2C1 (s : State) : Run State := group 2 s
/-- GRP_W4, version 1 code 1 (R105). -/
def grpW4C1 (s : State) : Run State := group 4 s
/-- GRP_W8, version 1 code 1 (R106). -/
def grpW8C1 (s : State) : Run State := group 8 s

/-- The meaning of GRP_W0, version 0. -/
def execGrpW0V0 (s : State) : Host.Outcome State Fault Refusal := outcome (grpW0V0 s)
/-- The meaning of GRP_W2, version 0. -/
def execGrpW2V0 (s : State) : Host.Outcome State Fault Refusal := outcome (grpW2V0 s)
/-- The meaning of GRP_W4, version 0. -/
def execGrpW4V0 (s : State) : Host.Outcome State Fault Refusal := outcome (grpW4V0 s)
/-- The meaning of GRP_W8, version 0. -/
def execGrpW8V0 (s : State) : Host.Outcome State Fault Refusal := outcome (grpW8V0 s)
/-- The meaning of GRP_W0, version 1 code 0. -/
def execGrpW0C0 (s : State) : Host.Outcome State Fault Refusal := outcome (grpW0C0 s)
/-- The meaning of GRP_W1, version 1 code 0. -/
def execGrpW1C0 (s : State) : Host.Outcome State Fault Refusal := outcome (grpW1C0 s)
/-- The meaning of GRP_W2, version 1 code 0. -/
def execGrpW2C0 (s : State) : Host.Outcome State Fault Refusal := outcome (grpW2C0 s)
/-- The meaning of GRP_W4, version 1 code 0. -/
def execGrpW4C0 (s : State) : Host.Outcome State Fault Refusal := outcome (grpW4C0 s)
/-- The meaning of GRP_W1, version 1 code 1. -/
def execGrpW1C1 (s : State) : Host.Outcome State Fault Refusal := outcome (grpW1C1 s)
/-- The meaning of GRP_W2, version 1 code 1. -/
def execGrpW2C1 (s : State) : Host.Outcome State Fault Refusal := outcome (grpW2C1 s)
/-- The meaning of GRP_W4, version 1 code 1. -/
def execGrpW4C1 (s : State) : Host.Outcome State Fault Refusal := outcome (grpW4C1 s)
/-- The meaning of GRP_W8, version 1 code 1. -/
def execGrpW8C1 (s : State) : Host.Outcome State Fault Refusal := outcome (grpW8C1 s)

/-- The group a width selector's row runs (R124). A row of another format is no group (log entry 12). -/
def runGroup (i : Instr) (s : State) : Run State :=
  match i with
  | .grpW0V0 => grpW0V0 s
  | .grpW2V0 => grpW2V0 s
  | .grpW4V0 => grpW4V0 s
  | .grpW8V0 => grpW8V0 s
  | .grpW0C0 => grpW0C0 s
  | .grpW1C0 => grpW1C0 s
  | .grpW2C0 => grpW2C0 s
  | .grpW4C0 => grpW4C0 s
  | .grpW1C1 => grpW1C1 s
  | .grpW2C1 => grpW2C1 s
  | .grpW4C1 => grpW4C1 s
  | .grpW8C1 => grpW8C1 s
  | _ => .error (.stopped .wrongUnit)

end Sys2Proof.Machine
end

