-- ==== Sys2Proof/Machine/Source.lean ====
section
/-!
DEFINITION. The bitstream parser and the residual sources (41_stream_parser.md R120 to R132), and the five SRC rows. A
row fills the current plane's part of RES and moves the cursor; the sequencer step around it moves `j` and `st` (R169).
-/

namespace Sys2Proof.Machine

/-- The row a field value selects in a format. The decoder rejects no field value its caller extracts (log entry 12). -/
def fetchUnit (f : Format) (b : Byte) : Run Instr :=
  match decode f b with
  | .ok i => .ok i
  | .error _ => .error (.stopped .wrongUnit)

/-- The selector of group `q` in a width header (R80, R124). -/
def selector (header : List Byte) (q : Nat) : Byte := field2 (header.getD (q / 4) 0) (q % 4)

/-- The groups `q`, `q+1`, … of a column, `n` of them, from the cursor on: the look-ahead check (R123), then the group
its selector chooses (R124), and the column's values in order. -/
def columnGroups (f : Format) (header : List Byte) : (q n : Nat) → State → Run (List Byte × State)
  | _, 0, s => .ok ([], s)
  | q, n + 1, s =>
    if s.len.toNat < s.pos.toNat + groupDecodeLimit then raise .truncGroup s
    else do
      let i ← fetchUnit f (selector header q)
      let s ← runGroup i s
      let v ← s.load .grp 0 groupSize
      let (c, s) ← columnGroups f header (q + 1) n s
      .ok (v ++ c, s)

/-- `COLUMN(pos, n, T)`, the table named by its selectors' format (R120 to R124). -/
def column (f : Format) (n : Nat) (s : State) : Run (List Byte × State) :=
  let groups := n / groupSize
  let size := ceilDiv groups 4
  if n % groupSize ≠ 0 then raise .badColumnLength s
  else if s.len.toNat < s.pos.toNat + size then raise .truncWidthHeader s
  else do
    let header ← s.load .inp s.pos.toNat size
    columnGroups f header 0 groups { s with pos := BitVec.ofNat 32 (s.pos.toNat + size) }

/-- Where plane `j`'s column starts in RES (R126). -/
def State.planeBase (s : State) : Nat := s.j.toNat * s.blk.toNat

/-- A packed column, all `BA` values of it, in the current plane's place (R125, R126, R127). -/
def packedSource (f : Format) (s : State) : Run State := do
  let (c, s) ← column f s.blkAligned.toNat s
  s.store .res s.planeBase c

/-- SRC_PACKED_V0 (R127). -/
def srcPackedV0 (s : State) : Run State := packedSource .wselV0 s

/-- SRC_PACKED0 (R128). -/
def srcPacked0 (s : State) : Run State := packedSource .wselV1C0 s

/-- SRC_PACKED1 (R129). -/
def srcPacked1 (s : State) : Run State := packedSource .wselV1C1 s

/-- SRC_ZERO (R130). -/
def srcZero (s : State) : Run State := s.store .res s.planeBase (List.replicate s.blk.toNat 0)

/-- SRC_LITERAL (R131). -/
def srcLiteral (s : State) : Run State :=
  if s.len.toNat < s.pos.toNat + s.blk.toNat then raise .truncLiteral s
  else do
    let bs ← s.load .inp s.pos.toNat s.blk.toNat
    let s ← s.store .res s.planeBase bs
    .ok { s with pos := BitVec.ofNat 32 (s.pos.toNat + s.blk.toNat) }

/-- The meaning of SRC_PACKED_V0. -/
def execSrcPackedV0 (s : State) : Host.Outcome State Fault Refusal := outcome (srcPackedV0 s)
/-- The meaning of SRC_PACKED0. -/
def execSrcPacked0 (s : State) : Host.Outcome State Fault Refusal := outcome (srcPacked0 s)
/-- The meaning of SRC_PACKED1. -/
def execSrcPacked1 (s : State) : Host.Outcome State Fault Refusal := outcome (srcPacked1 s)
/-- The meaning of SRC_ZERO. -/
def execSrcZero (s : State) : Host.Outcome State Fault Refusal := outcome (srcZero s)
/-- The meaning of SRC_LITERAL. -/
def execSrcLiteral (s : State) : Host.Outcome State Fault Refusal := outcome (srcLiteral s)

/-- The source a plane's row runs (R169). A row of another format is no source (log entry 12). -/
def runSource (i : Instr) (s : State) : Run State :=
  match i with
  | .srcPackedV0 => srcPackedV0 s
  | .srcPacked0 => srcPacked0 s
  | .srcPacked1 => srcPacked1 s
  | .srcZero => srcZero s
  | .srcLiteral => srcLiteral s
  | _ => .error (.stopped .wrongUnit)

end Sys2Proof.Machine
end

