-- ==== Sys2Proof/Machine/Delta.lean ====
section
/-!
DEFINITION. The delta reconstructor (42_delta.md R140 to R151), and the five rows of the channel formats. A row writes
the current component group's bytes of TR; the sequencer step around it moves `g`, `j` and `st` (R170).
-/

namespace Sys2Proof.Machine

/-- The bytes of element `i`'s lane of `n` planes from plane `k` on, low plane first, in the four columns of RES
(R143). -/
def laneOf (res : List Byte) (b k n i : Nat) : List Byte := (List.range n).map fun m => res.getD ((k + m) * b + i) 0

/-- One lane of `n` bytes, planes `k` to `k+n-1`: the residual words from RES (R143), the seed from LAST (R150), each
value from its residual and the value before it, written little-endian with stride `es` (R151). -/
def deltaLane {w : Nat} (n k : Nat) (f : BitVec w → BitVec w → BitVec w) (s : State) : Run State := do
  let b := s.blk.toNat
  let res ← s.load .res 0 (4 * b)
  let seed ← s.load .last (s.g.toNat + k) n
  let words := (List.range b).map fun i => laneWord w (laneOf res b k n i)
  let values := chain f (laneWord w seed) words
  State.storeStrided .tr s.es.toNat (s.g.toNat + k) (values.map (laneBytes n)) s

/-- Four independent 8-bit lanes (R144, R149). -/
def zigzag8 (s : State) : Run State := do
  let s ← deltaLane 1 0 (fun v p => unzz8 v + p) s
  let s ← deltaLane 1 1 (fun v p => unzz8 v + p) s
  let s ← deltaLane 1 2 (fun v p => unzz8 v + p) s
  deltaLane 1 3 (fun v p => unzz8 v + p) s

/-- Two independent 16-bit lanes (R145, R149). -/
def zigzag16 (s : State) : Run State := do
  let s ← deltaLane 2 0 (fun v p => unzz16 v + p) s
  deltaLane 2 2 (fun v p => unzz16 v + p) s

/-- DELTA_ZZ8, version 1; bits 7:2 of the descriptor are ignored (R90, R144). -/
def deltaZz8 (_rest : BitVec 6) (s : State) : Run State := zigzag8 s

/-- DELTA_ZZ8, version 0 (R144, R147). -/
def deltaZz8V0 (s : State) : Run State := zigzag8 s

/-- DELTA_ZZ16; bits 7:2 of the descriptor are ignored (R90, R145). -/
def deltaZz16 (_rest : BitVec 6) (s : State) : Run State := zigzag16 s

/-- DELTA_RXOR32, rotating by the descriptor's ROT (R86, R146). -/
def deltaRxor32 (rest : BitVec 6) (s : State) : Run State :=
  let r := rotAmount s.params.rotShift (channelByte rest 2#2)
  deltaLane 4 0 (fun v p => rotl32 v r ^^^ p) s

/-- CHAN_BAD (R148). -/
def chanBad (_rest : BitVec 6) (s : State) : Run State := raise .badChannel s

/-- The meaning of DELTA_ZZ8, version 1. -/
def execDeltaZz8 (rest : BitVec 6) (s : State) : Host.Outcome State Fault Refusal := outcome (deltaZz8 rest s)
/-- The meaning of DELTA_ZZ8, version 0. -/
def execDeltaZz8V0 (s : State) : Host.Outcome State Fault Refusal := outcome (deltaZz8V0 s)
/-- The meaning of DELTA_ZZ16. -/
def execDeltaZz16 (rest : BitVec 6) (s : State) : Host.Outcome State Fault Refusal := outcome (deltaZz16 rest s)
/-- The meaning of DELTA_RXOR32. -/
def execDeltaRxor32 (rest : BitVec 6) (s : State) : Host.Outcome State Fault Refusal := outcome (deltaRxor32 rest s)
/-- The meaning of CHAN_BAD. -/
def execChanBad (rest : BitVec 6) (s : State) : Host.Outcome State Fault Refusal := outcome (chanBad rest s)

/-- The delta a channel row runs (R170). A row of another format is no delta (log entry 12). -/
def runDelta (i : Instr) (s : State) : Run State :=
  match i with
  | .deltaZz8 rest => deltaZz8 rest s
  | .deltaZz8V0 => deltaZz8V0 s
  | .deltaZz16 rest => deltaZz16 rest s
  | .deltaRxor32 rest => deltaRxor32 rest s
  | .chanBad rest => chanBad rest s
  | _ => .error (.stopped .wrongUnit)

end Sys2Proof.Machine
end

