-- ==== Sys2Proof/Machine/Header.lean ====
section
/-!
DEFINITION. The four HDR rows: what a header byte does (R71, R88, R161).
-/

namespace Sys2Proof.Machine

/-- A header of version `v` is accepted: the version, the VERSION bit of STATUS (seen when the decode ends), the cursor
and the next stage (R161). -/
def acceptHeader (v : BitVec 1) (s : State) : Run State :=
  .ok { s with ver := v, status := { s.status with version := v }, pos := 1, st := .tail }

/-- HDR_V0 (R161). -/
def hdrV0 (s : State) : Run State := acceptHeader 0 s

/-- HDR_V1 (R161). -/
def hdrV1 (s : State) : Run State := acceptHeader 1 s

/-- HDR_BAD_VERSION (R88). -/
def hdrBadVersion (_version : BitVec 4) (s : State) : Run State := raise .badVersion s

/-- HDR_BAD_MAGIC (R88). -/
def hdrBadMagic (_byte : Byte) (s : State) : Run State := raise .badMagic s

/-- The meaning of HDR_V0. -/
def execHdrV0 (s : State) : Host.Outcome State Fault Refusal := outcome (hdrV0 s)
/-- The meaning of HDR_V1. -/
def execHdrV1 (s : State) : Host.Outcome State Fault Refusal := outcome (hdrV1 s)
/-- The meaning of HDR_BAD_VERSION. -/
def execHdrBadVersion (version : BitVec 4) (s : State) : Host.Outcome State Fault Refusal :=
  outcome (hdrBadVersion version s)
/-- The meaning of HDR_BAD_MAGIC. -/
def execHdrBadMagic (byte : Byte) (s : State) : Host.Outcome State Fault Refusal := outcome (hdrBadMagic byte s)

/-- What the header byte's row does (R161). A row of another format is no header (log entry 12). -/
def runHeader (i : Instr) (s : State) : Run State :=
  match i with
  | .hdrV0 => hdrV0 s
  | .hdrV1 => hdrV1 s
  | .hdrBadVersion version => hdrBadVersion version s
  | .hdrBadMagic byte => hdrBadMagic byte s
  | _ => .error (.stopped .wrongUnit)

end Sys2Proof.Machine
end

