-- ==== Sys2Proof/Machine/Sequencer.lean ====
section
/-!
DEFINITION. The block sequencer (43_sequencer.md R160 to R182): the eight STEP rows. Each is one rule of the engine and
ends with the stage it moves to.
-/

namespace Sys2Proof.Machine

/-- The host's write of CTRL.START = 1 while BUSY = 0 (R30, R160, first part). -/
def startWrite (s : State) : State :=
  { s with
    cnt := s.elemCount
    es := s.elemSize
    len := s.inLen
    pos := 0
    done := 0
    errc := 0
    errr := 0
    status := Status.started
    elemDone := 0
    inPos := 0
    st := .check
    spoiled := false }

/-- The usage tests of stage CHECK, in R160's order; the product is exact. -/
def usageCheck (s : State) : Run State :=
  if ¬ legalElemSize s.es.toNat then raise .badElemSize s
  else if s.params.inCap < s.len.toNat then raise .inRange s
  else if s.params.outCap < s.cnt.toNat * s.es.toNat then raise .outRange s
  else .ok { s with st := .hdr }

/-- START (R160): while BUSY = 0, the write; in stage CHECK, the tests; in any other stage a START is ignored (R22). Log
entry 13. -/
def start (s : State) : Run State :=
  if s.status.busy = false then .ok (startWrite s)
  else if s.st = .check then usageCheck s
  else .ok s

/-- HDR (R161). -/
def hdr (s : State) : Run State :=
  if s.len.toNat < 1 then raise .empty s
  else do
    let h ← s.load .inp 0 1
    let i ← fetchUnit .hdr (h.getD 0 0)
    runHeader i s

/-- The stage of the next block, if there is one (R165, R172). -/
def nextBlock (s : State) : Stage := if s.done.toNat < s.cnt.toNat then .blk else .final

/-- The tail sizes (R162). -/
def tailSizes (s : State) : State :=
  { s with
    ts := BitVec.ofNat 9 (tailSize s.ver s.es.toNat)
    tp := BitVec.ofNat 9 (tailPadded s.ver s.es.toNat) }

/-- Seed and channel table, from the tail at the buffer's end (R164). -/
def readTail (s : State) : Run State := do
  let t0 := s.len.toNat - s.ts.toNat
  let es := s.es.toNat
  let seed ← s.load .inp t0 es
  let s ← s.store .last 0 seed
  if s.ver = 0 then .ok s
  else do
    let table ← s.load .inp (t0 + es) (es / 4)
    s.store .chan 0 table

/-- TAIL (R162 to R166). -/
def tail (s : State) : Run State :=
  let s := tailSizes s
  if s.len.toNat < s.pos.toNat + s.tp.toNat then raise .shortTail s
  else do
    let s ← readTail s
    let s := { s with cap := BitVec.ofNat 9 (blockCap s.es.toNat), done := 0 }
    .ok { s with st := nextBlock s }

/-- The block's sizes (R167). -/
def blockSizes (s : State) : State :=
  let b := min s.cap.toNat (s.cnt.toNat - s.done.toNat)
  { s with blk := BitVec.ofNat 9 b, blkAligned := BitVec.ofNat 9 (align16 b) }

/-- The control region: `es/4` bytes of the stream in version 1, zeros in version 0 (R168). -/
def controlRegion (s : State) : Run State :=
  let n := s.es.toNat / 4
  if s.ver = 0 then s.store .ctl 0 (List.replicate n 0)
  else if s.len.toNat < s.pos.toNat + n then raise .truncControl s
  else do
    let bs ← s.load .inp s.pos.toNat n
    let s ← s.store .ctl 0 bs
    .ok { s with pos := BitVec.ofNat 32 (s.pos.toNat + n) }

/-- BLK (R167, R168). -/
def blkStart (s : State) : Run State := do
  let s ← controlRegion (blockSizes s)
  .ok { s with g := 0, j := 0, st := .plane }

/-- The row of the current plane's residual source (R77, R78, R169). -/
def planeUnit (s : State) : Run Instr :=
  if s.ver = 0 then fetchUnit .ctrlV0 0
  else do
    let c ← s.load .ctl (s.g.toNat / 4) 1
    fetchUnit .ctrl2 (field2 (c.getD 0 0) s.j.toNat)

/-- The next plane, or the delta after the fourth (R169). -/
def nextPlane (s : State) : State :=
  if s.j.toNat < 3 then { s with j := s.j + 1, st := .plane } else { s with st := .delta }

/-- PLANE (R169). -/
def plane (s : State) : Run State := do
  let i ← planeUnit s
  let s ← runSource i s
  .ok (nextPlane s)

/-- The row of the current component group's delta (R85, R147). -/
def deltaUnit (s : State) : Run Instr :=
  if s.ver = 0 then fetchUnit .chanmodeV0 0
  else do
    let c ← s.load .chan (s.g.toNat / 4) 1
    fetchUnit .chanmode (c.getD 0 0)

/-- The next component group, or the commit after the last (R170). -/
def nextGroup (s : State) : State :=
  if s.g.toNat + 4 < s.es.toNat then { s with g := s.g + 4, j := 0, st := .plane } else { s with st := .commit }

/-- DELTA (R170). -/
def delta (s : State) : Run State := do
  let i ← deltaUnit s
  let s ← runDelta i s
  .ok (nextGroup s)

/-- COMMIT (R172). -/
def commit (s : State) : Run State := do
  let es := s.es.toNat
  let b := s.blk.toNat
  let block ← s.load .tr 0 (b * es)
  let s ← s.store .out (s.done.toNat * es) block
  let last ← s.load .tr ((b - 1) * es) es
  let s ← s.store .last 0 last
  let s := { s with done := BitVec.ofNat 32 (s.done.toNat + b) }
  .ok { s with st := nextBlock s }

/-- FINAL (R174), and the successful end (R175). -/
def finalCheck (s : State) : Run State :=
  if s.len.toNat ≠ s.pos.toNat + s.tp.toNat then raise .trailingMismatch s
  else .ok (s.endDecode none)

/-- The meaning of START. -/
def execStart (s : State) : Host.Outcome State Fault Refusal := outcome (start s)
/-- The meaning of HDR. -/
def execHdr (s : State) : Host.Outcome State Fault Refusal := outcome (hdr s)
/-- The meaning of TAIL. -/
def execTail (s : State) : Host.Outcome State Fault Refusal := outcome (tail s)
/-- The meaning of BLK. -/
def execBlk (s : State) : Host.Outcome State Fault Refusal := outcome (blkStart s)
/-- The meaning of PLANE. -/
def execPlane (s : State) : Host.Outcome State Fault Refusal := outcome (plane s)
/-- The meaning of DELTA. -/
def execDelta (s : State) : Host.Outcome State Fault Refusal := outcome (delta s)
/-- The meaning of COMMIT. -/
def execCommit (s : State) : Host.Outcome State Fault Refusal := outcome (commit s)
/-- The meaning of FINAL. -/
def execFinal (s : State) : Host.Outcome State Fault Refusal := outcome (finalCheck s)

end Sys2Proof.Machine
end

