-- ==== Sys2Proof/Machine/HostPort.lean ====
section
/-!
DEFINITION. The host's accesses (R21 to R29, R45, R217, R232 to R234, R240) and the platform's reset (R230). They are no
rows of the opcode table; START's write is the row START's first part.
-/

namespace Sys2Proof.Machine

/-- The value a read of a free register returns, a draw of the read (R45, R242). -/
def readFree (s : State) : State := { s with hostData := Config.freeWord s.draws, draws := s.draws + 1 }

/-- A register read (R21 to R29, R45). An unlisted or misaligned offset reads 0. -/
def readReg (offset : Word) (s : State) : State :=
  if offset = 0x04#32 then { s with hostData := s.status.read }
  else if offset = 0x08#32 then { s with hostData := s.elemCount }
  else if offset = 0x0C#32 then { s with hostData := s.elemSize }
  else if offset = 0x10#32 then { s with hostData := s.inLen }
  else if offset = 0x14#32 then if s.status.busy then readFree s else { s with hostData := s.elemDone }
  else if offset = 0x18#32 then if s.status.busy then readFree s else { s with hostData := s.inPos }
  else { s with hostData := 0 }

/-- A register write (R21 to R29, R234): ignored while BUSY, at a read-only register, at an unlisted or misaligned
offset, and at CTRL where bit 0 is 0. -/
def writeReg (offset value : Word) (s : State) : State :=
  if s.status.busy then s
  else if offset = 0x00#32 then if value.getLsbD 0 then startWrite s else s
  else if offset = 0x08#32 then { s with elemCount := value }
  else if offset = 0x0C#32 then { s with elemSize := value }
  else if offset = 0x10#32 then { s with inLen := value }
  else s

/-- Whether a host write of IN at `a` is the hazard of R233: below `len` while BUSY. -/
def spoils (a : Nat) (s : State) : Bool := s.status.busy && decide (a < s.len.toNat)

/-- A host write of IN (R41, R233): the byte is stored, and below `len` while BUSY the whole result becomes a draw. -/
def writeIn (a : Nat) (b : Byte) (s : State) : Run State := do
  let t ← s.store .inp a [b]
  .ok { t with spoiled := s.spoiled || spoils a s }

/-- A host read of IN (R233, R240). -/
def readIn (a : Nat) (s : State) : Run State := do
  let bs ← s.load .inp a 1
  .ok { s with hostData := (bs.getD 0 0).setWidth 32 }

/-- A host read of OUT (R42, R232): while BUSY a draw below `cnt·es`. -/
def readOut (a : Nat) (s : State) : Run State := do
  let bs ← s.load .out a 1
  if s.status.busy && decide (a < s.cnt.toNat * s.es.toNat) then
    .ok { s with hostData := (Config.freeByte s.draws).setWidth 32, draws := s.draws + 1 }
  else .ok { s with hostData := (bs.getD 0 0).setWidth 32 }

/-- One host access (R240). A write of OUT is ignored at all times (R232). -/
def hostAccess (c : HostCommand) (s : State) : Run State :=
  match c with
  | .writeReg offset value => .ok (writeReg offset value s)
  | .readReg offset => .ok (readReg offset s)
  | .writeIn a b => writeIn a b s
  | .readIn a => readIn a s
  | .writeOut _ _ => .ok s
  | .readOut a => readOut a s

/-- Reset asserted while the machine runs (R230): every item as after power-on. What was unspecified then is
unspecified anew, which the next `epoch` says (log entry 20). -/
def platformReset (s : State) : State :=
  { State.reset with
    params := s.params
    turns := s.turns
    draws := s.draws
    epoch := s.epoch + 1 }

end Sys2Proof.Machine
end

