-- ==== Sys2Proof/Machine/Dispatch.lean ====
section
/-!
DEFINITION. The meaning of every instruction: one arm a row of spec/opcode_table.json.
-/

namespace Sys2Proof.Machine

def exec (i : Instr) (s : State) : Host.Outcome State Fault Refusal :=
  match i with
  | .hdrV0 => Sys2Proof.Machine.execHdrV0 s
  | .hdrV1 => Sys2Proof.Machine.execHdrV1 s
  | .hdrBadVersion version => Sys2Proof.Machine.execHdrBadVersion version s
  | .hdrBadMagic byte => Sys2Proof.Machine.execHdrBadMagic byte s
  | .grpW0V0 => Sys2Proof.Machine.execGrpW0V0 s
  | .grpW2V0 => Sys2Proof.Machine.execGrpW2V0 s
  | .grpW4V0 => Sys2Proof.Machine.execGrpW4V0 s
  | .grpW8V0 => Sys2Proof.Machine.execGrpW8V0 s
  | .grpW0C0 => Sys2Proof.Machine.execGrpW0C0 s
  | .grpW1C0 => Sys2Proof.Machine.execGrpW1C0 s
  | .grpW2C0 => Sys2Proof.Machine.execGrpW2C0 s
  | .grpW4C0 => Sys2Proof.Machine.execGrpW4C0 s
  | .grpW1C1 => Sys2Proof.Machine.execGrpW1C1 s
  | .grpW2C1 => Sys2Proof.Machine.execGrpW2C1 s
  | .grpW4C1 => Sys2Proof.Machine.execGrpW4C1 s
  | .grpW8C1 => Sys2Proof.Machine.execGrpW8C1 s
  | .srcPacked0 => Sys2Proof.Machine.execSrcPacked0 s
  | .srcPacked1 => Sys2Proof.Machine.execSrcPacked1 s
  | .srcZero => Sys2Proof.Machine.execSrcZero s
  | .srcLiteral => Sys2Proof.Machine.execSrcLiteral s
  | .srcPackedV0 => Sys2Proof.Machine.execSrcPackedV0 s
  | .deltaZz8 rest => Sys2Proof.Machine.execDeltaZz8 rest s
  | .deltaZz16 rest => Sys2Proof.Machine.execDeltaZz16 rest s
  | .deltaRxor32 rest => Sys2Proof.Machine.execDeltaRxor32 rest s
  | .chanBad rest => Sys2Proof.Machine.execChanBad rest s
  | .deltaZz8V0 => Sys2Proof.Machine.execDeltaZz8V0 s
  | .start => Sys2Proof.Machine.execStart s
  | .hdr => Sys2Proof.Machine.execHdr s
  | .tail => Sys2Proof.Machine.execTail s
  | .blk => Sys2Proof.Machine.execBlk s
  | .plane => Sys2Proof.Machine.execPlane s
  | .delta => Sys2Proof.Machine.execDelta s
  | .commit => Sys2Proof.Machine.execCommit s
  | .final => Sys2Proof.Machine.execFinal s

end Sys2Proof.Machine
end

