-- ==== Sys2Proof/Machine/Step.lean ====
section
/-!
DEFINITION. One step (R20, R37, R61, R237): the next turn's, and the engine's where no turn is listed; and where the
host's word of an instruction is placed for the next step.
-/

namespace Sys2Proof.Machine

/-- The engine's step: the STEP row its stage selects (R37); in `IDLE` it waits for a START (R230). -/
def engineStep (s : State) : Host.Outcome State Fault Refusal :=
  match decode (.step s.st) 0 with
  | .ok i => exec i s
  | .error _ => .next s

/-- One turn (R20, log entry 2). -/
def takeTurn (t : Turn) (s : State) : Host.Outcome State Fault Refusal :=
  match t with
  | .engine => engineStep s
  | .host c => outcome (hostAccess c s)
  | .reset => .next (platformReset s)

/-- One step of the machine. With no turn listed the engine moves, which is R237's fairness. -/
def step (s : State) : Host.Outcome State Fault Refusal :=
  match s.turns with
  | [] => engineStep s
  | t :: rest => takeTurn t { s with turns := rest }

/-- A decode in progress whose next unit is a header byte: the HDR step reads `b` (log entry 3). -/
def State.withHeaderByte (s : State) (b : Byte) : State :=
  { s with
    inp := Memory.write 0 [b] s.inp
    status := Status.started
    len := 1
    pos := 0
    st := .hdr
    turns := [] }

/-- A version-0 decode in progress whose next unit is a width-header byte: the PLANE step reads it, and the first group
is the row its selector chooses; zeros follow it in the stream (log entry 3). -/
def State.withSelectorByte (s : State) (b : Byte) : State :=
  { s with
    inp := Memory.write 1 (b :: List.replicate 24 0) s.inp
    status := Status.started
    es := 4
    len := 26
    pos := 1
    ver := 0
    blk := 16
    blkAligned := 16
    g := 0
    j := 0
    st := .plane
    turns := [] }

/-- `s` with the instruction of a table word where the next step fetches (log entry 3). -/
def State.withFetchWord (s : State) (_nbits w : Nat) : State :=
  let b : Byte := BitVec.ofNat 8 w
  if isSelectorWord b then s.withSelectorByte (field2 b 0) else s.withHeaderByte b

end Sys2Proof.Machine
end

