-- ==== Sys2Proof/Machine/Reference.lean ====
section
/-!
DEFINITION. The reference function DECODE of R176, written as R176 writes it: explicit loops over blocks, component
groups, planes and groups, over byte arrays that are functions of the offset, with no sequencer state and no memory
bounds. The engine's steps must reach the same end (R176, R235).
-/

namespace Sys2Proof.Machine

/-- A byte array of the reference function. -/
abbrev Bytes := Nat → Byte

/-- `m[a .. a+n)`. -/
def Bytes.take (m : Bytes) (a n : Nat) : List Byte := (List.range n).map fun k => m (a + k)

/-- `m[a .. a+bs.length) = bs`. -/
def Bytes.put (m : Bytes) (a : Nat) (bs : List Byte) : Bytes :=
  fun x => if a ≤ x ∧ x < a + bs.length then bs.getD (x - a) 0 else m x

/-- Runs of bytes `stride` apart. -/
def Bytes.putStrided (stride : Nat) : Nat → List (List Byte) → Bytes → Bytes
  | _, [], m => m
  | a, bs :: rest, m => Bytes.putStrided stride (a + stride) rest (m.put a bs)

/-- What DECODE works on: the cursor, the committed elements, and the arrays of R31 to R35. -/
structure Scratch where
  pos : Nat
  done : Nat
  last : Bytes
  chan : Bytes
  ctl : Bytes
  res : Bytes
  tr : Bytes
  out : Bytes

/-- An end of DECODE by `Error`: the reason and the cursor of the failing check (R202). -/
abbrev RefRun (α : Type) := Except (Reason × Nat) α

/-- `UNPACK(w, p)`'s loop over the fields `ts`, with the escape cursor (R101). -/
def refFields (inp : Bytes) (w p : Nat) : List Nat → Nat → List Byte × Nat
  | [], e => ([], e)
  | t :: ts, e =>
    let f := ((inp (p + t * w / 8)).toNat >>> (8 - w - t * w % 8)) &&& sentinel w
    if f = sentinel w then
      (inp e :: (refFields inp w p ts (e + 1)).1, (refFields inp w p ts (e + 1)).2)
    else (BitVec.ofNat 8 f :: (refFields inp w p ts e).1, (refFields inp w p ts e).2)

/-- `GROUP(w, p)` for a width of R81's tables (R100). -/
def refGroup (inp : Bytes) (w p : Nat) : List Byte × Nat :=
  if w = 0 then (List.replicate 16 0, p)
  else if w = 8 then (inp.take p 16, p + 16)
  else refFields inp w p (List.range 16) (p + 2 * w)

/-- `COLUMN`'s loop over the groups (R120). -/
def refGroups (inp : Bytes) (len : Nat) (table : List Nat) (hp : Nat) : (q n p : Nat) → RefRun (List Byte × Nat)
  | _, 0, p => .ok ([], p)
  | q, n + 1, p =>
    if len < p + 24 then .error (.truncGroup, p)
    else do
      let s := ((inp (hp + q / 4)).toNat >>> (2 * (q % 4))) % 4
      let (v, p) := refGroup inp (table.getD s 0) p
      let (c, p) ← refGroups inp len table hp (q + 1) n p
      .ok (v ++ c, p)

/-- `COLUMN(p, n, T)` (R120). -/
def refColumn (inp : Bytes) (len : Nat) (table : List Nat) (p n : Nat) : RefRun (List Byte × Nat) :=
  if n % 16 ≠ 0 then .error (.badColumnLength, p)
  else if len < p + (n + 63) / 64 then .error (.truncWidthHeader, p)
  else refGroups inp len table p 0 (n / 16) (p + (n + 63) / 64)

/-- One plane's residual source (R176's innermost case split). -/
def refPlane (inp : Bytes) (len : Nat) (ver : BitVec 1) (b g j : Nat) (m : Scratch) : RefRun Scratch :=
  let c := if ver = 0 then 0 else ((m.ctl (g / 4)).toNat >>> (2 * j)) % 4
  if c = 3 then
    if len < m.pos + b then .error (.truncLiteral, m.pos)
    else .ok { m with res := m.res.put (j * b) (inp.take m.pos b), pos := m.pos + b }
  else if c = 2 then .ok { m with res := m.res.put (j * b) (List.replicate b 0) }
  else do
    let table := if ver = 0 then [0, 2, 4, 8] else ([0, 1, 2, 4, 8].drop c).take 4
    let (col, p) ← refColumn inp len table m.pos (align16 b)
    .ok { m with res := m.res.put (j * b) col, pos := p }

/-- The residual word of element `i` on `n` planes from `k` on, and the lane's strided output (R143, R150, R151). -/
def refLane {w : Nat} (es b g n k : Nat) (f : BitVec w → BitVec w → BitVec w) (m : Scratch) : Scratch :=
  let words := (List.range b).map fun i => laneWord w ((List.range n).map fun x => m.res ((k + x) * b + i))
  let values := chain f (laneWord w (m.last.take (g + k) n)) words
  { m with tr := Bytes.putStrided es (g + k) (values.map (laneBytes n)) m.tr }

/-- The delta of one component group (R144 to R148). -/
def refDelta (shift : RotShift) (ver : BitVec 1) (es b g : Nat) (m : Scratch) : RefRun Scratch :=
  let mode := if ver = 0 then 0 else (m.chan (g / 4)).toNat % 4
  if mode = 0 then
    let f := fun v p => unzz8 v + p
    .ok (refLane es b g 1 3 f (refLane es b g 1 2 f (refLane es b g 1 1 f (refLane es b g 1 0 f m))))
  else if mode = 1 then
    let f := fun v p => unzz16 v + p
    .ok (refLane es b g 2 2 f (refLane es b g 2 0 f m))
  else if mode = 2 then
    let r := rotAmount shift (m.chan (g / 4))
    .ok (refLane es b g 4 0 (fun v p => rotl32 v r ^^^ p) m)
  else .error (.badChannel, m.pos)

/-- One component group: the four planes, then the delta (R171). -/
def refComponent (inp : Bytes) (shift : RotShift) (len : Nat) (ver : BitVec 1) (es b g : Nat) (m : Scratch) :
    RefRun Scratch := do
  let m ← refPlane inp len ver b g 0 m
  let m ← refPlane inp len ver b g 1 m
  let m ← refPlane inp len ver b g 2 m
  let m ← refPlane inp len ver b g 3 m
  refDelta shift ver es b g m

/-- The component groups from the `k`-th on, `n` of them, `g = 4k` (R176). -/
def refComponents (inp : Bytes) (shift : RotShift) (len : Nat) (ver : BitVec 1) (es b : Nat) :
    (k n : Nat) → Scratch → RefRun Scratch
  | _, 0, m => .ok m
  | k, n + 1, m => do
    let m ← refComponent inp shift len ver es b (4 * k) m
    refComponents inp shift len ver es b (k + 1) n m

/-- One block of `b` elements (R167 to R172). -/
def refBlock (inp : Bytes) (shift : RotShift) (len : Nat) (ver : BitVec 1) (es b : Nat) (m : Scratch) :
    RefRun Scratch := do
  let m ←
    if ver = 0 then .ok m
    else if len < m.pos + es / 4 then .error (.truncControl, m.pos)
    else .ok { m with ctl := m.ctl.put 0 (inp.take m.pos (es / 4)), pos := m.pos + es / 4 }
  let m ← refComponents inp shift len ver es b 0 (es / 4) m
  .ok
    { m with
      out := m.out.put (m.done * es) (m.tr.take 0 (b * es))
      last := m.last.put 0 (m.tr.take ((b - 1) * es) es)
      done := m.done + b }

/-- How DECODE ends: the reason of the error, if there is one, with the version it had accepted; IN_POS, ELEM_DONE and
the output (R175, R202). -/
structure DecodeResult where
  reason : Option Reason
  version : BitVec 1
  inPos : Nat
  elemDone : Nat
  out : Bytes

/-- The block loop `while done < cnt`, at most `fuel` blocks, and the trailing check (R174). -/
def refBlocks (inp : Bytes) (shift : RotShift) (len cnt : Nat) (ver : BitVec 1) (es tp : Nat) :
    (fuel : Nat) → Scratch → DecodeResult
  | fuel, m =>
    if m.done < cnt then
      match fuel with
      | 0 => { reason := none, version := ver, inPos := m.pos, elemDone := m.done, out := m.out }
      | fuel + 1 =>
        match refBlock inp shift len ver es (min (blockCap es) (cnt - m.done)) m with
        | .ok m => refBlocks inp shift len cnt ver es tp fuel m
        | .error (r, p) => { reason := some r, version := ver, inPos := p, elemDone := m.done, out := m.out }
    else if len ≠ m.pos + tp then
      { reason := some .trailingMismatch, version := ver, inPos := m.pos, elemDone := m.done, out := m.out }
    else { reason := none, version := ver, inPos := m.pos, elemDone := m.done, out := m.out }

/-- `DECODE(cnt, es, IN[0..len))` (R176). Its arrays start as zeros, which R46 says no decode reads; `out` starts as the
output memory was. -/
def decodeBuffer (params : Params) (cnt es len : Nat) (inp out : Bytes) : DecodeResult :=
  let fail (r : Reason) (p : Nat) (v : BitVec 1) : DecodeResult :=
    { reason := some r, version := v, inPos := p, elemDone := 0, out := out }
  if ¬ (4 ≤ es ∧ es ≤ 256 ∧ es % 4 = 0) then fail .badElemSize 0 0
  else if params.inCap < len then fail .inRange 0 0
  else if params.outCap < cnt * es then fail .outRange 0 0
  else if len < 1 then fail .empty 0 0
  else if (inp 0).toNat / 16 ≠ 0xA then fail .badMagic 0 0
  else if 1 < (inp 0).toNat % 16 then fail .badVersion 0 0
  else
    let ver : BitVec 1 := BitVec.ofNat 1 (inp 0).toNat
    let ts := tailSize ver es
    let tp := tailPadded ver es
    if len < 1 + tp then fail .shortTail 1 ver
    else
      let zeros : Bytes := fun _ => 0
      let m : Scratch :=
        { pos := 1, done := 0
          last := zeros.put 0 (inp.take (len - ts) es)
          chan := if ver = 0 then zeros else zeros.put 0 (inp.take (len - ts + es) (es / 4))
          ctl := zeros, res := zeros, tr := zeros, out := out }
      refBlocks inp params.rotShift len cnt ver es tp cnt m

end Sys2Proof.Machine
end

