-- ==== Sys2Proof/Safety.lean ====
section
/-!
DEFINITION. What claims about a run use: the invariant of the states a run reaches, the host accesses that stay inside
the memories, the step bound of R178, and what two states share when only what a decode may read is compared (R46).
-/

namespace Sys2Proof.Machine

/-- The latched configuration passed the usage tests of R160. -/
structure State.ConfigOk (s : State) : Prop where
  elemSize : legalElemSize s.es.toNat = true
  inLen : s.len.toNat ≤ s.params.inCap
  outLen : s.cnt.toNat * s.es.toNat ≤ s.params.outCap

/-- What holds from the end of TAIL to the end of the decode (R36, R59, R162, R163, R166, R179). -/
structure State.LoopOk (s : State) : Prop extends State.ConfigOk s where
  status : s.status = { Status.started with version := s.ver }
  tailSizeIs : s.ts.toNat = tailSize s.ver s.es.toNat
  tailPaddedIs : s.tp.toNat = tailPadded s.ver s.es.toNat
  tailFits : 1 + s.tp.toNat ≤ s.len.toNat
  capIs : s.cap.toNat = blockCap s.es.toNat
  posPositive : 1 ≤ s.pos.toNat
  posWithin : s.pos.toNat ≤ s.len.toNat
  doneWithin : s.done.toNat ≤ s.cnt.toNat

/-- What holds while a block is under way (R167, R179). -/
structure State.BlockOk (s : State) : Prop extends State.LoopOk s where
  blkIs : s.blk.toNat = min s.cap.toNat (s.cnt.toNat - s.done.toNat)
  alignedIs : s.blkAligned.toNat = align16 s.blk.toNat
  notDone : s.done.toNat < s.cnt.toNat
  wholeBlocks : s.done.toNat % s.cap.toNat = 0

/-- The current component group lies in the element (R35). -/
structure State.GroupOk (s : State) : Prop extends State.BlockOk s where
  groupAligned : s.g.toNat % 4 = 0
  groupWithin : s.g.toNat + 4 ≤ s.es.toNat

/-- What the stage promises (R37). -/
def State.StageOk (s : State) : Prop :=
  match s.st with
  | .idle => s.status = Status.zero ∨ ∃ r v, s.status = Status.ended r v
  | .check => s.status = Status.started ∧ s.pos = 0 ∧ s.done = 0
  | .hdr => s.ConfigOk ∧ s.status = Status.started ∧ s.pos = 0 ∧ s.done = 0
  | .tail =>
    s.ConfigOk ∧ s.status = { Status.started with version := s.ver } ∧ s.pos = 1 ∧ s.done = 0 ∧ 1 ≤ s.len.toNat
  | .blk => s.LoopOk ∧ s.done.toNat < s.cnt.toNat ∧ s.done.toNat % s.cap.toNat = 0
  | .plane => s.GroupOk
  | .delta => s.GroupOk ∧ s.j = 3
  | .commit => s.BlockOk
  | .final => s.LoopOk ∧ s.done = s.cnt

/-- The invariant of every state a run reaches: `IN_CAP` is legal (R7), every memory is in its canonical form and inside
its size (R8, R40), and the stage's promise holds. -/
structure State.Inv (s : State) : Prop where
  inCap : 33 ≤ s.params.inCap
  canonical : ∀ sp, (s.mem sp).wf
  within : ∀ sp, ∀ c ∈ s.mem sp, c.1 < s.size sp
  stage : s.StageOk

/-- A host access that stays inside the memories (R40, log entry 11). -/
def HostCommand.within (s : State) : HostCommand → Bool
  | .writeIn a _ => decide (a < s.params.inCap)
  | .readIn a => decide (a < s.params.inCap)
  | .readOut a => decide (a < s.params.outCap)
  | .writeReg _ _ | .readReg _ | .writeOut _ _ => true

/-- The next turn makes no access outside the memories. -/
def State.turnWithin (s : State) : Bool :=
  match s.turns with
  | .host c :: _ => c.within s
  | .engine :: _ | .reset :: _ | [] => true

/-- Engine steps of one whole block: BLK, COMMIT, and per component group four PLANE and one DELTA (R178). -/
def blockSteps (es : Nat) : Nat := 2 + 5 * (es / 4)

/-- R178's bound on the engine steps from START to `IDLE`. -/
def decodeSteps (cnt es : Nat) : Nat := 4 + ceilDiv cnt (blockCap es) * blockSteps es

/-- At most how many engine steps are left until `IDLE` (R178). -/
def State.stepsLeft (s : State) : Nat :=
  let es := s.es.toNat
  let blocks := ceilDiv (s.cnt.toNat - s.done.toNat) (blockCap es)
  let groupsAfter := es / 4 - s.g.toNat / 4 - 1
  match s.st with
  | .idle => 0
  | .check => decodeSteps s.cnt.toNat es
  | .hdr => 3 + blocks * blockSteps es
  | .tail => 2 + blocks * blockSteps es
  | .blk => 1 + blocks * blockSteps es
  | .plane => 1 + (blocks - 1) * blockSteps es + (4 - s.j.toNat + 1) + 5 * groupsAfter + 1
  | .delta => 1 + (blocks - 1) * blockSteps es + 1 + 5 * groupsAfter + 1
  | .commit => 1 + (blocks - 1) * blockSteps es + 1
  | .final => 1

/-- A decode has just been started, nothing but the engine moves, and the host keeps off (R231). -/
structure State.Launched (s : State) : Prop where
  stage : s.st = .check
  status : s.status = Status.started
  pos : s.pos = 0
  done : s.done = 0
  obeyed : s.spoiled = false
  noTurns : s.turns = []

/-- The three packed sources and the format of their selectors (R81, R127 to R129). -/
def packedRows : List (Instr × Format) :=
  [(.srcPackedV0, .wselV0), (.srcPacked0, .wselV1C0), (.srcPacked1, .wselV1C1)]

/-- The current component group and block fit the arrays the delta reads and writes (R8, R31, R33, R34). -/
structure DeltaFits (s : State) : Prop where
  blk : s.blk.toNat ≤ 256
  group : s.g.toNat + 4 ≤ s.es.toNat
  element : s.es.toNat ≤ 256
  block : s.blk.toNat * s.es.toNat ≤ 8192

/-- Only bytes `i·es + g + k`, with `i < B` and `k < 4`, of TR differ, and nothing else does (R151). -/
def OnlyTheGroupsBytesOfTr (s t : State) : Prop :=
  (∀ a, (∀ i < s.blk.toNat, ∀ k < 4, a ≠ i * s.es.toNat + s.g.toNat + k) → t.peek .tr a = s.peek .tr a) ∧
    { t with tr := s.tr } = s

/-- The `n`-byte little-endian word of a memory whose byte `m` is at `offset m` (R50). -/
def wordAt (s : State) (sp : Space) (w n : Nat) (offset : Nat → Nat) : BitVec w :=
  BitVec.ofNat w (((List.range n).map fun m => (s.peek sp (offset m)).toNat * 256 ^ m).sum)

end Sys2Proof.Machine
end

