-- ==== Sys2Proof/Certificates/Slice0/Obligations.lean ====
section
/-!
DEFINITION. The statements for the provers. Each docstring names the rule of spec/ it formalises. `{ t with f := s.f, … }
= s` says that nothing but the fields `f, …` differs between `s` and `t`; where one of those is a memory, a clause on
`peek` says which of its bytes may differ.
-/

open Sys2Proof Sys2Proof.Machine

/-! ## Encoding (30_encoding.md) -/

/-- Decoding the encoding of a well-formed instruction gives the instruction back (R93, R94): no bit of an operand is
dropped. The code numbers are the spec's own inferences (GK4, GK5, GK7; log entry 19); the operands are the model's
choice (log entry 16). -/
def Obligations.DecodeOfEncodeIsTheInstruction : Prop :=
  ∀ i : Instr, i.WellFormed = true → decode (encode i).1 (encode i).2 = .ok i

/-- No field value is read as anything but the well-formed instruction whose encoding it is (R93, R94). As above, the
numbers are the spec's own inferences (log entry 19) and the operands the model's choice (log entry 16). -/
def Obligations.EncodeOfDecodeIsTheFieldValue : Prop :=
  ∀ (f : Format) (b : Byte) (i : Instr), decode f b = .ok i → i.WellFormed = true ∧ encode i = (f, b)

/-- Field values written out from the tables of R71, R78, R81, R84, R85, R88 decode to their rows. The bit positions
and code numbers are the spec's own inferences (GK2, GK4, GK5, GK7; log entry 19). -/
def Obligations.WrittenOutWordsDecode : Prop :=
  decode .hdr 0b10100001#8 = .ok .hdrV1 ∧
  decode .hdr 0b11100000#8 = .ok (.hdrBadMagic 0xE0) ∧
  decode .hdr 0b10101111#8 = .ok (.hdrBadVersion 15) ∧
  decode .wselV0 (field2 0b00001101#8 1) = .ok .grpW8V0 ∧
  decode .wselV1C0 (field2 0b11100100#8 2) = .ok .grpW2C0 ∧
  decode .wselV1C1 (field2 0b00000011#8 0) = .ok .grpW8C1 ∧
  decode .ctrl2 (field2 0b11101110#8 1) = .ok .srcLiteral ∧
  decode .chanmode 0b01100010#8 = .ok (.deltaRxor32 0b011000#6)

/-- R81: in each of the three tables, selector `k` picks the group of width `T[k]`. The window of the version-1 tables
is the spec's own inference (GK5; log entry 19). -/
def Obligations.SelectorPicksTheTablesWidth : Prop :=
  ∀ ft ∈ [(Format.wselV0, [0, 2, 4, 8]), (.wselV1C0, [0, 1, 2, 4]), (.wselV1C1, [1, 2, 4, 8])], ∀ k < 4,
    ∃ i, decode ft.1 (BitVec.ofNat 8 k) = .ok i ∧ ∀ s, exec i s = outcome (group (ft.2.getD k 0) s)

/-! ## The residual group decoder (40_group_decoder.md) -/

/-- R102, both rows of GRP_W0: 16 zeros, no byte consumed, nothing else changed. -/
def Obligations.ZeroWidthGroupYieldsZeros : Prop :=
  ∀ i ∈ [Instr.grpW0V0, .grpW0C0], ∀ s : State, ∃ t, exec i s = .next t ∧
    (∀ k < 16, t.peek .grp k = 0) ∧
    (∀ a, 16 ≤ a → t.peek .grp a = s.peek .grp a) ∧
    { t with grp := s.grp } = s

/-- R101 with R83, the eight rows of GRP_W1, GRP_W2 and GRP_W4: field `k` is read MSB-first; the sentinel takes the
escape byte that as many sentinels precede; the cursor passes the packed region and the escapes used. That fields are
read MSB-first is the spec's own inference (GK3; log entry 19). -/
def Obligations.PackedGroupUnpacksWithEscapes : Prop :=
  ∀ iw ∈ [(Instr.grpW2V0, 2), (.grpW4V0, 4), (.grpW1C0, 1), (.grpW2C0, 2), (.grpW4C0, 4), (.grpW1C1, 1), (.grpW2C1, 2),
      (.grpW4C1, 4)], ∀ s : State,
    s.pos.toNat + 24 ≤ s.len.toNat → s.len.toNat ≤ s.params.inCap →
    let w := iw.2
    let p := s.pos.toNat
    let field := fun k => (s.peek .inp (p + k * w / 8)).toNat / 2 ^ (8 - w - k * w % 8) % 2 ^ w
    let escapes := fun k => (List.range k).countP fun x => field x == 2 ^ w - 1
    ∃ t, exec iw.1 s = .next t ∧
      (∀ k < 16, t.peek .grp k =
        if field k = 2 ^ w - 1 then s.peek .inp (p + 2 * w + escapes k) else BitVec.ofNat 8 (field k)) ∧
      t.pos.toNat = p + 2 * w + escapes 16 ∧
      (∀ a, 16 ≤ a → t.peek .grp a = s.peek .grp a) ∧
      { t with grp := s.grp, pos := s.pos } = s

/-- R106, both rows of GRP_W8: 16 literal bytes. -/
def Obligations.LiteralGroupCopiesSixteenBytes : Prop :=
  ∀ i ∈ [Instr.grpW8V0, .grpW8C1], ∀ s : State,
    s.pos.toNat + 24 ≤ s.len.toNat → s.len.toNat ≤ s.params.inCap → ∃ t, exec i s = .next t ∧
      (∀ k < 16, t.peek .grp k = s.peek .inp (s.pos.toNat + k)) ∧
      t.pos.toNat = s.pos.toNat + 16 ∧
      (∀ a, 16 ≤ a → t.peek .grp a = s.peek .grp a) ∧
      { t with grp := s.grp, pos := s.pos } = s

/-- R108, and R100's bound on what is read: what each width consumes, `e` being 0 to 16 escapes, never more than 24 bytes;
and the result depends on no byte of IN outside those consumed. -/
def Obligations.GroupConsumesWithinTheLimit : Prop :=
  ∀ w ∈ [0, 1, 2, 4, 8], ∀ s : State, s.pos.toNat + 24 ≤ s.len.toNat → s.len.toNat ≤ s.params.inCap →
    ∃ t, group w s = .ok t ∧ ∃ e ≤ 16,
      t.pos.toNat = s.pos.toNat + (if w = 0 then 0 else if w = 8 then 16 else 2 * w + e) ∧
      t.pos.toNat ≤ s.pos.toNat + 24 ∧
      ∀ m : Memory, (∀ a, s.pos.toNat ≤ a → a < t.pos.toNat → (s.setMem .inp m).peek .inp a = s.peek .inp a) →
        group w (s.setMem .inp m) = .ok (t.setMem .inp m)

/-- R107: any other width is USAGE / BAD_WIDTH. -/
def Obligations.OtherWidthsAreUsageErrors : Prop :=
  ∀ w : Nat, w ∉ [0, 1, 2, 4, 8] → ∀ s : State, outcome (group w s) = .next (s.endDecode (some .badWidth))

/-! ## The bitstream parser and the residual sources (41_stream_parser.md) -/

/-- R130: a zero plane's `B` residuals are 0; no byte is consumed and no length is checked. -/
def Obligations.ZeroSourceFillsThePlane : Prop :=
  ∀ s : State, s.blk.toNat ≤ 256 → ∃ t, exec .srcZero s = .next t ∧
    (∀ i < s.blk.toNat, t.peek .res (s.j.toNat * s.blk.toNat + i) = 0) ∧
    (∀ a, ¬ (s.j.toNat * s.blk.toNat ≤ a ∧ a < s.j.toNat * s.blk.toNat + s.blk.toNat) →
      t.peek .res a = s.peek .res a) ∧
    { t with res := s.res } = s

/-- R131: a literal plane copies `B` bytes at the cursor, with no look-ahead beyond them; with fewer than `B` left it is
TRUNCATED / TRUNC_LITERAL with IN_POS at the cursor. -/
def Obligations.LiteralSourceCopiesOrTruncates : Prop :=
  ∀ s : State, s.blk.toNat ≤ 256 → s.len.toNat ≤ s.params.inCap →
    if s.len.toNat < s.pos.toNat + s.blk.toNat then
      ∃ t, exec .srcLiteral s = .next t ∧ t = s.endDecode (some .truncLiteral) ∧
        (s.spoiled = false → t.inPos = s.pos ∧ t.status = Status.ended (some .truncLiteral) s.status.version)
    else
      ∃ t, exec .srcLiteral s = .next t ∧
        (∀ i < s.blk.toNat, t.peek .res (s.j.toNat * s.blk.toNat + i) = s.peek .inp (s.pos.toNat + i)) ∧
        (∀ a, ¬ (s.j.toNat * s.blk.toNat ≤ a ∧ a < s.j.toNat * s.blk.toNat + s.blk.toNat) →
          t.peek .res a = s.peek .res a) ∧
        t.pos.toNat = s.pos.toNat + s.blk.toNat ∧
        { t with res := s.res, pos := s.pos } = s

/-- A packed column, where 24 bytes are left for each of its groups in advance, a premise on the state alone (R120, R124,
R126 to R129): there are cursors, the first after the width header, such that group `q` is what its selector's row
does at cursor `q`, its 16 outputs are the column's values `16q` to `16q+15` in the plane's place, and the next cursor
is where that row leaves it. PackedSourceRunsWhereEveryLookAheadHolds takes the look-ahead at each group's own cursor.
The selectors' order in a header byte is the spec's own inference (GK2; log entry 19), and so is that the column has
the aligned length (GK10). -/
def Obligations.PackedSourceRunsItsGroupsInOrder : Prop :=
  ∀ row ∈ packedRows, ∀ s : State,
    s.blkAligned.toNat % 16 = 0 →
    s.j.toNat * s.blk.toNat + s.blkAligned.toNat ≤ 1024 →
    s.pos.toNat + (s.blkAligned.toNat + 63) / 64 + 24 * (s.blkAligned.toNat / 16) ≤ s.len.toNat →
    s.len.toNat ≤ s.params.inCap →
    let base := s.j.toNat * s.blk.toNat
    ∃ (t : State) (cur : Nat → Nat), exec row.1 s = .next t ∧
      cur 0 = s.pos.toNat + (s.blkAligned.toNat + 63) / 64 ∧
      t.pos.toNat = cur (s.blkAligned.toNat / 16) ∧
      (∀ q < s.blkAligned.toNat / 16, ∃ r u,
        decode row.2 (field2 (s.peek .inp (s.pos.toNat + q / 4)) (q % 4)) = .ok r ∧
        exec r { s with pos := BitVec.ofNat 32 (cur q) } = .next u ∧
        u.pos.toNat = cur (q + 1) ∧
        ∀ k < 16, t.peek .res (base + 16 * q + k) = u.peek .grp k) ∧
      (∀ a, ¬ (base ≤ a ∧ a < base + s.blkAligned.toNat) → t.peek .res a = s.peek .res a) ∧
      (∀ a, 16 ≤ a → t.peek .grp a = s.peek .grp a) ∧
      { t with res := s.res, pos := s.pos, grp := s.grp } = s

/-- R122: with fewer bytes than the width header left, TRUNCATED / TRUNC_WIDTH_HEADER with IN_POS at the cursor, nothing
read. -/
def Obligations.PackedSourceNeedsItsWidthHeader : Prop :=
  ∀ row ∈ packedRows, ∀ s : State,
    s.blkAligned.toNat % 16 = 0 → s.len.toNat < s.pos.toNat + (s.blkAligned.toNat + 63) / 64 →
    ∃ t, exec row.1 s = .next t ∧ t = s.endDecode (some .truncWidthHeader) ∧
      (s.spoiled = false → t.inPos = s.pos ∧ t.status = Status.ended (some .truncWidthHeader) s.status.version)

/-- R123: with fewer than 24 bytes left before group `q`, whatever its width, TRUNCATED / TRUNC_GROUP with IN_POS at
the group's start. The groups before `q` ran, each from the cursor the one before left. That the bytes are counted to
the buffer's end is the spec's own inference (GK9; log entry 19). -/
def Obligations.GroupLookAheadIsCheckedBeforeEveryGroup : Prop :=
  ∀ row ∈ packedRows, ∀ s : State, ∀ (q : Nat) (cur : Nat → Nat),
    s.blkAligned.toNat % 16 = 0 → q < s.blkAligned.toNat / 16 →
    s.len.toNat ≤ s.params.inCap →
    cur 0 = s.pos.toNat + (s.blkAligned.toNat + 63) / 64 → cur 0 ≤ s.len.toNat →
    (∀ p < q, cur p + 24 ≤ s.len.toNat ∧ ∃ r u,
      decode row.2 (field2 (s.peek .inp (s.pos.toNat + p / 4)) (p % 4)) = .ok r ∧
      exec r { s with pos := BitVec.ofNat 32 (cur p) } = .next u ∧
      u.pos.toNat = cur (p + 1)) →
    s.len.toNat < cur q + 24 →
    ∃ t m, exec row.1 s = .next t ∧ t.st = .idle ∧
      t = ({ s with grp := m, pos := BitVec.ofNat 32 (cur q) } : State).endDecode (some .truncGroup) ∧
      (∀ a, 16 ≤ a → Memory.lookup a m = Memory.lookup a s.grp) ∧
      (s.spoiled = false →
        t.inPos.toNat = cur q ∧ t.status = Status.ended (some .truncGroup) s.status.version ∧ t.elemDone = s.done)

/-- R121: a column length that is not a multiple of 16 is USAGE / BAD_COLUMN_LENGTH. -/
def Obligations.ColumnLengthMustBeAMultipleOfSixteen : Prop :=
  ∀ row ∈ packedRows, ∀ (s : State) (n : Nat), n % 16 ≠ 0 →
    column row.2 n s = raise .badColumnLength s ∧
    (s.blkAligned.toNat = n → exec row.1 s = .next (s.endDecode (some .badColumnLength)))

/-! ## The delta reconstructor (42_delta.md) -/

/-- R144 with R143, R150, R151, both rows of DELTA_ZZ8: each byte lane is the running sum, modulo 256, of its zigzag
residuals from the seed; bits 7:2 of the descriptor have no effect (R90). -/
def Obligations.Zigzag8AddsResidualsPerByte : Prop :=
  ∀ i : Instr, (i = .deltaZz8V0 ∨ ∃ rest, i = .deltaZz8 rest) → ∀ s : State, DeltaFits s →
    ∃ t, exec i s = .next t ∧ OnlyTheGroupsBytesOfTr s t ∧
      ∀ e < s.blk.toNat, ∀ k < 4,
        t.peek .tr (e * s.es.toNat + s.g.toNat + k) =
          unzz8 (s.peek .res (k * s.blk.toNat + e)) +
            if e = 0 then s.peek .last (s.g.toNat + k)
            else t.peek .tr ((e - 1) * s.es.toNat + s.g.toNat + k)

/-- R145 with R143, R150, R151: each of the two 16-bit lanes is the running sum, modulo 65536, of its zigzag residual
words from the seed, little-endian; bits 7:2 of the descriptor have no effect (R90). -/
def Obligations.Zigzag16AddsResidualsPerLane : Prop :=
  ∀ (rest : BitVec 6) (s : State), DeltaFits s →
    ∃ t, exec (.deltaZz16 rest) s = .next t ∧ OnlyTheGroupsBytesOfTr s t ∧
      ∀ e < s.blk.toNat, ∀ m < 2,
        wordAt t .tr 16 2 (fun x => e * s.es.toNat + s.g.toNat + 2 * m + x) =
          unzz16 (wordAt s .res 16 2 fun x => (2 * m + x) * s.blk.toNat + e) +
            if e = 0 then wordAt s .last 16 2 fun x => s.g.toNat + 2 * m + x
            else wordAt t .tr 16 2 fun x => (e - 1) * s.es.toNat + s.g.toNat + 2 * m + x

/-- R146 with R86, R142, R143, R150, R151: the 32-bit lane is the running XOR of its residual words, each rotated left
by `(32 - ROT) mod 32`, from the seed. ROT is the descriptor shifted right by `CHAN_ROT_SHIFT`. -/
def Obligations.RotateXorChainsTheWholeWord : Prop :=
  ∀ (rest : BitVec 6) (s : State), DeltaFits s →
    let rot := (rest.toNat * 4 + 2) / 2 ^ s.params.rotShift.bits
    let r := ((32 - (rot : Int)) % 32).toNat
    ∃ t, exec (.deltaRxor32 rest) s = .next t ∧ OnlyTheGroupsBytesOfTr s t ∧
      ∀ e < s.blk.toNat,
        wordAt t .tr 32 4 (fun x => e * s.es.toNat + s.g.toNat + x) =
          (wordAt s .res 32 4 fun x => x * s.blk.toNat + e).rotateLeft r ^^^
            if e = 0 then wordAt s .last 32 4 fun x => s.g.toNat + x
            else wordAt t .tr 32 4 fun x => (e - 1) * s.es.toNat + s.g.toNat + x

/-- R148: channel MODE 3 is FORMAT / BAD_CHANNEL, and no TR byte is written. That mode 3 is illegal is the spec's own
inference (GK7; log entry 19). -/
def Obligations.BadChannelModeRaises : Prop :=
  ∀ (rest : BitVec 6) (s : State), ∃ t, exec (.chanBad rest) s = .next t ∧ t = s.endDecode (some .badChannel) ∧
    t.st = .idle ∧ t.tr = s.tr ∧
    (s.spoiled = false → t.status = Status.ended (some .badChannel) s.status.version ∧ t.inPos = s.pos)

/-- R140: the formula; as a signed value, an even `v` decodes to `v/2` and an odd one to `-(v+1)/2`, a bijection. -/
def Obligations.Unzz8IsTheSignedFolding : Prop :=
  (∀ v : BitVec 8, unzz8 v = (v >>> 1) ^^^ (0 - (v &&& 1)) ∧
    (unzz8 v).toInt = if v.toNat % 2 = 0 then (v.toNat / 2 : Int) else -((v.toNat + 1) / 2 : Int)) ∧
    Function.Bijective unzz8

/-- R141: the same over 16-bit words. -/
def Obligations.Unzz16IsTheSignedFolding : Prop :=
  (∀ v : BitVec 16, unzz16 v = (v >>> 1) ^^^ (0 - (v &&& 1)) ∧
    (unzz16 v).toInt = if v.toNat % 2 = 0 then (v.toNat / 2 : Int) else -((v.toNat + 1) / 2 : Int)) ∧
    Function.Bijective unzz16

/-- R142: `rotl32` is the rotation left; with `r` computed from ROT = k, it is no rotation for k = 0 and a rotation right
by k for k > 0; a ROT of 32 or more counts modulo 32. The amount is R86's, whichever of its two values the open
parameter `CHAN_ROT_SHIFT` has. -/
def Obligations.RotationFieldRotatesRight : Prop :=
  (∀ (v : BitVec 32) (k : Nat), k < 32 → rotl32 v k = v.rotateLeft k ∧ rotl32 v ((32 - k) % 32) = v.rotateRight k) ∧
    ∀ (shift : RotShift) (d : Byte), rotAmount shift d = (32 - d.toNat / 2 ^ shift.bits % 32) % 32

/-! ## The header (R161) -/

/-- R161, the whole rule, as the HDR step runs it: EMPTY, then BAD_MAGIC, then BAD_VERSION, else the version, the VERSION
bit, the cursor and the next stage, and nothing else. -/
def Obligations.HeaderStepChecksInOrder : Prop :=
  ∀ s : State, s.len.toNat ≤ s.params.inCap →
    let h := s.peek .inp 0
    if s.len.toNat < 1 then exec .hdr s = .next (s.endDecode (some .empty))
    else if h.toNat / 16 ≠ 0xA then exec .hdr s = .next (s.endDecode (some .badMagic))
    else if 1 < h.toNat % 16 then exec .hdr s = .next (s.endDecode (some .badVersion))
    else exec .hdr s = .next
      { s with
        ver := BitVec.ofNat 1 h.toNat
        status := { s.status with version := BitVec.ofNat 1 h.toNat }
        pos := 1
        st := .tail }

/-- The HDR step runs the row its header byte decodes to (R71, R161). -/
def Obligations.HeaderStepRunsTheDecodedRow : Prop :=
  ∀ (s : State) (i : Instr), 1 ≤ s.len.toNat → s.len.toNat ≤ s.params.inCap →
    decode .hdr (s.peek .inp 0) = .ok i → exec .hdr s = exec i s

/-- The header rows on their own (R88, R161): the two accepted headers set the version, and the two others end the decode
with BAD_VERSION and BAD_MAGIC, whatever the byte. -/
def Obligations.HeaderRowsAcceptOrReject : Prop :=
  (∀ s : State, exec .hdrV0 s = .next
    { s with ver := 0, status := { s.status with version := 0 }, pos := 1, st := .tail }) ∧
  (∀ s : State, exec .hdrV1 s = .next
    { s with ver := 1, status := { s.status with version := 1 }, pos := 1, st := .tail }) ∧
  (∀ (version : BitVec 4) (s : State), ∃ t, exec (.hdrBadVersion version) s = .next t ∧
    t = s.endDecode (some .badVersion) ∧
    (s.spoiled = false → t.st = .idle ∧ t.status = Status.ended (some .badVersion) s.status.version)) ∧
  (∀ (byte : Byte) (s : State), ∃ t, exec (.hdrBadMagic byte) s = .next t ∧
    t = s.endDecode (some .badMagic) ∧
    (s.spoiled = false → t.st = .idle ∧ t.status = Status.ended (some .badMagic) s.status.version))

/-! ## The sequencer (43_sequencer.md) -/

/-- R160, first part, and R30: START while BUSY = 0 latches the configuration, clears the results and goes to CHECK; the
host's write of CTRL with bit 0 set is that START (R22). -/
def Obligations.StartLatchesTheConfiguration : Prop :=
  ∀ s : State, s.status.busy = false →
    exec .start s = .next
      { s with
        cnt := s.elemCount, es := s.elemSize, len := s.inLen, pos := 0, done := 0, errc := 0, errr := 0
        status := { busy := true, done := false, err := false, errClass := 0, errReason := 0, version := 0 }
        elemDone := 0, inPos := 0, st := .check, spoiled := false } ∧
    ∀ (value : Word) (rest : List Turn), value.getLsbD 0 = true →
      s.turns = .host (.writeReg 0 value) :: rest → step s = exec .start { s with turns := rest }

/-- R160, second part, with R204: the usage tests of stage CHECK in their order, the product exact. -/
def Obligations.UsageTestsComeInOrder : Prop :=
  ∀ s : State, s.status.busy = true → s.st = .check →
    exec .start s =
      if s.es.toNat < 4 ∨ 256 < s.es.toNat ∨ s.es.toNat % 4 ≠ 0 then .next (s.endDecode (some .badElemSize))
      else if s.params.inCap < s.len.toNat then .next (s.endDecode (some .inRange))
      else if s.params.outCap < s.cnt.toNat * s.es.toNat then .next (s.endDecode (some .outRange))
      else .next { s with st := .hdr }

/-- R162 to R165: the tail sizes, the seed and (version 1) the channel table from the buffer's end, the block capacity
and the first stage of the loop, and nothing else. That the padding lies before the tail, so that the seed is at
`len - ts` and the channel table after it, is the spec's own inference (GK8; log entry 19). -/
def Obligations.TailLoadsSeedAndChannels : Prop :=
  ∀ s : State, legalElemSize s.es.toNat = true → s.len.toNat ≤ s.params.inCap →
    let es := s.es.toNat
    let ts := es + if s.ver = 0 then 0 else es / 4
    let tp := max ts (if s.ver = 0 then 32 else 24)
    s.pos.toNat + tp ≤ s.len.toNat →
    ∃ t, exec .tail s = .next t ∧
      t.ts.toNat = ts ∧ t.tp.toNat = tp ∧ t.cap.toNat = blockCap es ∧ t.done = 0 ∧
      t.st = (if s.cnt = 0 then .final else .blk) ∧
      (∀ k < es, t.peek .last k = s.peek .inp (s.len.toNat - ts + k)) ∧
      (∀ a, es ≤ a → t.peek .last a = s.peek .last a) ∧
      (s.ver = 0 → t.chan = s.chan) ∧
      (s.ver = 1 → (∀ q < es / 4, t.peek .chan q = s.peek .inp (s.len.toNat - ts + es + q)) ∧
        ∀ a, es / 4 ≤ a → t.peek .chan a = s.peek .chan a) ∧
      { t with ts := s.ts, tp := s.tp, cap := s.cap, done := s.done, st := s.st, last := s.last, chan := s.chan } = s

/-- R163: a buffer shorter than the header and the padded tail is FORMAT / SHORT_TAIL, with IN_POS at the cursor. -/
def Obligations.ShortTailRaises : Prop :=
  ∀ s : State, legalElemSize s.es.toNat = true →
    let ts := s.es.toNat + if s.ver = 0 then 0 else s.es.toNat / 4
    let tp := max ts (if s.ver = 0 then 32 else 24)
    s.len.toNat < s.pos.toNat + tp →
    ∃ t, exec .tail s = .next t ∧ t.st = .idle ∧ t.last = s.last ∧ t.chan = s.chan ∧
      t = ({ s with ts := BitVec.ofNat 9 ts, tp := BitVec.ofNat 9 tp } : State).endDecode (some .shortTail) ∧
      (s.spoiled = false → t.status = Status.ended (some .shortTail) s.status.version ∧ t.inPos = s.pos)

/-- R166 and R180: for every legal element size the capacity is the largest multiple of 16 not above `floor(8192/es)`,
capped at 256; a block fits the buffer, and the capacity is at least 32. -/
def Obligations.BlockCapacityIsTheLargestThatFits : Prop :=
  ∀ es : Nat, legalElemSize es = true →
    blockCap es % 16 = 0 ∧ 32 ≤ blockCap es ∧ blockCap es ≤ 256 ∧ blockCap es * es ≤ 8192 ∧
      ∀ n, n % 16 = 0 → n ≤ 256 → n * es ≤ 8192 → n ≤ blockCap es

/-- R167, R168: a block's sizes; in version 1 the control region is copied and the cursor passes it; in version 0 it is
zeros; with too few bytes left, version 1 is TRUNCATED / TRUNC_CONTROL. -/
def Obligations.BlockStartReadsTheControlRegion : Prop :=
  ∀ s : State, s.es.toNat ≤ 256 → s.cap.toNat ≤ 256 → s.len.toNat ≤ s.params.inCap →
    let b := min s.cap.toNat (s.cnt.toNat - s.done.toNat)
    let n := s.es.toNat / 4
    if s.ver = 1 ∧ s.len.toNat < s.pos.toNat + n then
      ∃ t, exec .blk s = .next t ∧ t.st = .idle ∧
        t = ({ s with blk := BitVec.ofNat 9 b, blkAligned := BitVec.ofNat 9 ((b + 15) / 16 * 16) } : State).endDecode
          (some .truncControl) ∧
        (s.spoiled = false → t.status = Status.ended (some .truncControl) s.status.version ∧ t.inPos = s.pos)
    else
      ∃ t, exec .blk s = .next t ∧
        t.blk.toNat = b ∧ t.blkAligned.toNat = (b + 15) / 16 * 16 ∧ t.g = 0 ∧ t.j = 0 ∧ t.st = .plane ∧
        (∀ q < n, t.peek .ctl q = if s.ver = 0 then 0 else s.peek .inp (s.pos.toNat + q)) ∧
        (∀ a, n ≤ a → t.peek .ctl a = s.peek .ctl a) ∧
        t.pos.toNat = (if s.ver = 0 then s.pos.toNat else s.pos.toNat + n) ∧
        { t with
          blk := s.blk, blkAligned := s.blkAligned, g := s.g, j := s.j, st := s.st, ctl := s.ctl, pos := s.pos } = s

/-- R169 with R77: the PLANE step runs the row of the plane's control code, bits `2j+1 : 2j` of `CTL[g/4]` (the packed
source of version 0 in version 0), and then goes to the next plane, or to the delta after the fourth. Where the row
ends the decode, so does the step. The order of the codes in the control byte and their numbers are the spec's own
inference (GK4; log entry 19). -/
def Obligations.PlaneRunsTheCodesSource : Prop :=
  ∀ s : State, ∃ i,
    (s.ver = 0 → i = .srcPackedV0) ∧
    (s.ver = 1 → i = [Instr.srcPacked0, .srcPacked1, .srcZero, .srcLiteral].getD
      ((s.peek .ctl (s.g.toNat / 4)).toNat / 4 ^ s.j.toNat % 4) .srcZero) ∧
    (∀ u, runSource i s = .ok u →
      exec i s = .next u ∧
      exec .plane s = .next
        (if u.j.toNat < 3 then { u with j := u.j + 1, st := .plane } else { u with st := .delta })) ∧
    (∀ e, runSource i s = .error e → exec .plane s = exec i s)

/-- R169's step completes, whatever the control code, where the largest column's bytes are left (at most 4 width-header
bytes and 16 groups of 24 bytes): only RES, the group latch, the cursor, the plane and the stage change. That bytes
counted to the buffer's end suffice for the look-ahead, and that a packed column has the aligned length, of which the
388 is the largest case, are the spec's own inferences (GK9, GK10; log entry 19). -/
def Obligations.PlaneCompletesWithBytesLeft : Prop :=
  ∀ s : State, s.Inv → s.st = .plane → s.pos.toNat + 388 ≤ s.len.toNat →
    ∃ t, exec .plane s = .next t ∧
      (s.j.toNat < 3 → t.st = .plane ∧ t.j.toNat = s.j.toNat + 1) ∧
      (s.j.toNat = 3 → t.st = .delta ∧ t.j = s.j) ∧
      s.pos.toNat ≤ t.pos.toNat ∧ t.pos.toNat ≤ s.pos.toNat + 388 ∧
      (∀ a, ¬ (s.j.toNat * s.blk.toNat ≤ a ∧ a < s.j.toNat * s.blk.toNat + s.blkAligned.toNat) →
        t.peek .res a = s.peek .res a) ∧
      (∀ a, 16 ≤ a → t.peek .grp a = s.peek .grp a) ∧
      { t with res := s.res, grp := s.grp, pos := s.pos, j := s.j, st := s.st } = s

/-- R170 with R85, R147: the DELTA step runs the row of the group's channel MODE (DELTA_ZZ8 in version 0), and then
goes to the next component group, or to the commit after the last; MODE 3 ends the decode with BAD_CHANNEL (R148). Its
hypotheses are on the state alone. The mode numbers are the spec's own inference (GK7; log entry 19). -/
def Obligations.DeltaRunsTheModesReconstruction : Prop :=
  ∀ s : State, DeltaFits s → s.g.toNat % 4 = 0 →
    let d := s.peek .chan (s.g.toNat / 4)
    let rest := BitVec.ofNat 6 (d.toNat / 4)
    let i := if s.ver = 0 then Instr.deltaZz8V0
      else [Instr.deltaZz8 rest, .deltaZz16 rest, .deltaRxor32 rest, .chanBad rest].getD (d.toNat % 4) (.chanBad rest)
    if s.ver = 1 ∧ d.toNat % 4 = 3 then exec .delta s = .next (s.endDecode (some .badChannel))
    else ∃ u, exec i s = .next u ∧ OnlyTheGroupsBytesOfTr s u ∧
      exec .delta s = .next
        (if s.g.toNat + 4 < s.es.toNat then { u with g := u.g + 4, j := 0, st := .plane }
          else { u with st := .commit })

/-- R172: COMMIT copies the block to OUT, carries its last element, counts it, and goes to the next block or to FINAL;
nothing else changes. -/
def Obligations.CommitWritesTheBlock : Prop :=
  ∀ s : State, 1 ≤ s.blk.toNat → s.blk.toNat * s.es.toNat ≤ 8192 → s.es.toNat ≤ 256 →
    s.done.toNat * s.es.toNat + s.blk.toNat * s.es.toNat ≤ s.params.outCap →
    s.done.toNat + s.blk.toNat ≤ s.cnt.toNat →
    let es := s.es.toNat
    let b := s.blk.toNat
    ∃ t, exec .commit s = .next t ∧
      (∀ k < b * es, t.peek .out (s.done.toNat * es + k) = s.peek .tr k) ∧
      (∀ a, ¬ (s.done.toNat * es ≤ a ∧ a < s.done.toNat * es + b * es) → t.peek .out a = s.peek .out a) ∧
      (∀ k < es, t.peek .last k = s.peek .tr ((b - 1) * es + k)) ∧
      (∀ a, es ≤ a → t.peek .last a = s.peek .last a) ∧
      t.done.toNat = s.done.toNat + b ∧
      t.st = (if s.done.toNat + b < s.cnt.toNat then .blk else .final) ∧
      { t with out := s.out, last := s.last, done := s.done, st := s.st } = s

/-- R174 and R175: FINAL requires that exactly the padded tail is left; then the decode has succeeded, else it is FORMAT /
TRAILING_MISMATCH. Of a decode whose input the host left alone (R233). -/
def Obligations.FinalChecksTheTrailingBytes : Prop :=
  ∀ s : State, s.spoiled = false →
    if s.len.toNat = s.pos.toNat + s.tp.toNat then
      exec .final s = .next
        { s with
          status := { busy := false, done := true, err := false, errClass := 0, errReason := 0, version := s.ver }
          elemDone := s.done, inPos := s.pos, st := .idle }
    else
      ∃ t, exec .final s = .next t ∧ t = s.endDecode (some .trailingMismatch) ∧ t.st = .idle ∧ t.inPos = s.pos ∧ t.elemDone = s.done ∧
        t.status = { busy := false, done := true, err := true, errClass := 1, errReason := 13,
                     version := s.status.version }

/-! ## Errors (60_exceptions.md) -/

/-- R202, R203: what taking an error records, and that nothing else changes but OUT and the count of free draws. That
VERSION is the bit the header step put into STATUS is the model's reading (log entry 24). -/
def Obligations.TakingAnErrorRecordsIt : Prop :=
  ∀ (r : Reason) (s : State), s.spoiled = false →
    let t := s.endDecode (some r)
    t.status = { busy := false, done := true, err := true, errClass := r.cls, errReason := r.code,
                 version := s.status.version } ∧
      t.errc = r.cls ∧ t.errr = r.code ∧ t.inPos = s.pos ∧ t.elemDone = s.done ∧ t.st = .idle ∧
      { t with
        status := s.status, errc := s.errc, errr := s.errr, inPos := s.inPos, elemDone := s.elemDone, st := s.st
        out := s.out, draws := s.draws } = s

/-- R206: after an error, a byte of OUT at or beyond `cnt·es` is unchanged, and all of OUT is after OUT_RANGE; below
`cnt·es` each byte is a free draw of its own. The draws are the model's form of the unspecified values (log entries 6
and 9). -/
def Obligations.OutputIsOpenAfterAnError : Prop :=
  ∀ (r : Reason) (s : State), s.spoiled = false →
    let t := s.endDecode (some r)
    (∀ a, s.cnt.toNat * s.es.toNat ≤ a → t.peek .out a = s.peek .out a) ∧
      (r = .outRange → t.out = s.out) ∧
      (r ≠ .outRange → ∀ a < s.cnt.toNat * s.es.toNat, a < s.params.outCap →
        t.peek .out a = Config.freeByte (s.draws + a))

/-- R200, R201: the STATUS word of each outcome in version 0, by the layout of R23 (95_test_vectors.md L2-S5). -/
def Obligations.StatusWordsOfTheOutcomes : Prop :=
  ∀ rw ∈ [(some Reason.badElemSize, 0x136#32), (some .inRange, 0x236#32), (some .outRange, 0x336#32),
      (some .empty, 0x416#32), (some .badMagic, 0x516#32), (some .badVersion, 0x616#32), (some .shortTail, 0x716#32),
      (some .truncControl, 0x826#32), (some .truncLiteral, 0x926#32), (some .truncWidthHeader, 0xA26#32),
      (some .truncGroup, 0xB26#32), (some .badChannel, 0xC16#32), (some .trailingMismatch, 0xD16#32),
      (some .badWidth, 0xE36#32), (some .badColumnLength, 0xF36#32), (none, 0x2#32)],
    ∀ version : BitVec 1, (Status.ended rw.1 version).word = rw.2 ||| version.setWidth 32 <<< 16

/-- R233: a decode whose input the host wrote below `len` still ends like any other, in `IDLE` with BUSY = 0, DONE = 1
and one of R201's encodings, and leaves OUT at and beyond `cnt·es` alone. The one draw at the end of the decode is the
model's form of R233 (log entry 7). -/
def Obligations.SpoiledDecodeStillEnds : Prop :=
  ∀ (r : Option Reason) (s : State), s.spoiled = true →
    let t := s.endDecode r
    t.st = .idle ∧ (∃ r' v, t.status = Status.ended r' v) ∧
      (∀ a, s.cnt.toNat * s.es.toNat ≤ a → t.peek .out a = s.peek .out a) ∧
      { t with
        status := s.status, errc := s.errc, errr := s.errr, inPos := s.inPos, elemDone := s.elemDone, st := s.st
        out := s.out, draws := s.draws } = s

/-! ## The host interface and reset (10_state.md, 70_reset_and_hazards.md) -/

/-- R21 to R29, R45: what a register read returns, at every offset, busy or not; while BUSY, ELEM_DONE and IN_POS are
free draws. Nothing else changes. The draws are the model's form of the unspecified values (log entry 6), `hostData`
of the read's answer (log entry 15). -/
def Obligations.RegisterReads : Prop :=
  ∀ (s : State) (offset : Word) (rest : List Turn), s.turns = .host (.readReg offset) :: rest →
    ∃ t, step s = .next t ∧ t.turns = rest ∧
      (offset = 0x04 → t.hostData = if s.status.busy then 1 else s.status.word) ∧
      (offset = 0x08 → t.hostData = s.elemCount) ∧
      (offset = 0x0C → t.hostData = s.elemSize) ∧
      (offset = 0x10 → t.hostData = s.inLen) ∧
      (offset = 0x14 → t.hostData = if s.status.busy then Config.freeWord s.draws else s.elemDone) ∧
      (offset = 0x18 → t.hostData = if s.status.busy then Config.freeWord s.draws else s.inPos) ∧
      (offset ∉ [0x04, 0x08, 0x0C, 0x10, 0x14, 0x18] → t.hostData = 0) ∧
      { t with turns := s.turns, hostData := s.hostData, draws := s.draws } = s

/-- R234, R24 to R26, R29: a register write is stored while BUSY = 0 and ignored while BUSY = 1; read-only, unlisted
and misaligned offsets ignore it, and so does CTRL where bit 0 is 0. The list of turns is the model's choice (log
entry 2). -/
def Obligations.RegisterWrites : Prop :=
  ∀ (s : State) (offset value : Word) (rest : List Turn), s.turns = .host (.writeReg offset value) :: rest →
    (s.status.busy = true → step s = .next { s with turns := rest }) ∧
    (s.status.busy = false →
      (offset = 0x08 → step s = .next { s with turns := rest, elemCount := value }) ∧
      (offset = 0x0C → step s = .next { s with turns := rest, elemSize := value }) ∧
      (offset = 0x10 → step s = .next { s with turns := rest, inLen := value }) ∧
      (offset ∉ [0x08, 0x0C, 0x10] → (offset = 0 → value.getLsbD 0 = false) → step s = .next { s with turns := rest }))

/-- R41, R233, R240: a host write of IN stores the byte and is the hazard exactly below `len` while BUSY; a host read
returns the stored byte; nothing else changes. `spoiled` is the model's record of the hazard (log entry 7). -/
def Obligations.HostAccessesOfIn : Prop :=
  ∀ (s : State) (a : Nat) (rest : List Turn), a < s.params.inCap →
    (∀ b, s.turns = .host (.writeIn a b) :: rest → ∃ t, step s = .next t ∧
      t.peek .inp a = b ∧ (∀ x, x ≠ a → t.peek .inp x = s.peek .inp x) ∧
      (t.spoiled = true ↔ s.spoiled = true ∨ (s.status.busy = true ∧ a < s.len.toNat)) ∧
      { t with turns := s.turns, inp := s.inp, spoiled := s.spoiled } = s) ∧
    (s.turns = .host (.readIn a) :: rest →
      step s = .next { s with turns := rest, hostData := (s.peek .inp a).setWidth 32 })

/-- R42, R232, R240: a host read of OUT returns the byte, but while BUSY a free draw below `cnt·es`; a host write of
OUT is ignored at all times. The draw is the model's form of the unspecified value (log entry 6). -/
def Obligations.HostAccessesOfOut : Prop :=
  ∀ (s : State) (a : Nat) (rest : List Turn),
    (s.turns = .host (.readOut a) :: rest → a < s.params.outCap →
      ∃ t, step s = .next t ∧
        t.hostData.toNat = (if s.status.busy = true ∧ a < s.cnt.toNat * s.es.toNat then Config.freeByte s.draws
          else s.peek .out a).toNat ∧
        { t with turns := s.turns, hostData := s.hostData, draws := s.draws } = s) ∧
    (∀ b, s.turns = .host (.writeOut a b) :: rest → step s = .next { s with turns := rest })

/-- R43, the values the spec gives: IDLE, STATUS, the configuration and result registers 0; and with R230, that reset
asserted at any time leaves the same, the parameters apart. -/
def Obligations.ResetLeavesTheStatedValues : Prop :=
  ∀ s : State, (s = State.reset ∨ ∃ s₀ rest, s₀.turns = .reset :: rest ∧ step s₀ = .next s) →
    s.st = .idle ∧ s.status.word = 0 ∧ s.elemCount = 0 ∧ s.elemSize = 0 ∧ s.inLen = 0 ∧ s.elemDone = 0 ∧ s.inPos = 0

/-! ## The step (R20, R37, R61, R237) -/

/-- A step runs the decoded instruction: with no turn listed, or the engine's turn, in a stage other than IDLE, the
STEP row whose encoding is the stage is executed; in IDLE the engine waits (R37, R230). The list of turns is the
model's choice (log entry 2). -/
def Obligations.StepRunsTheDecodedInstruction : Prop :=
  ∀ s : State,
    (∀ i, s.turns = [] → decode (.step s.st) 0 = .ok i → step s = exec i s) ∧
    (∀ i rest, s.turns = .engine :: rest → decode (.step s.st) 0 = .ok i → step s = exec i { s with turns := rest }) ∧
    (s.turns = [] → s.st = .idle → step s = .next s) ∧
    (s.st ≠ .idle → ∃ i, decode (.step s.st) 0 = .ok i)

/-- The invariant holds at reset. -/
def Obligations.InvariantHoldsAtReset : Prop := State.reset.Inv

/-- Every step keeps the invariant: the engine's, the host's and the platform's. -/
def Obligations.StepKeepsTheInvariant : Prop :=
  ∀ s t : State, s.Inv → step s = .next t → t.Inv

/-- From a state of the invariant a step always has a next state, unless a host access leaves the memories: an error end
is a final state with a result, never a model fault (R238), and no engine access leaves its memory (R59, R67, R126). -/
def Obligations.StepNeverStops : Prop :=
  ∀ s : State, s.Inv → s.turnWithin = true → ∃ t, step s = .next t

/-- R178: an engine step out of any stage but IDLE, with no turn listed, lowers the bound on the steps left. (With the
engine's turn at the head of the list, a step is the same row: StepRunsTheDecodedInstruction.) -/
def Obligations.EngineStepLowersTheBound : Prop :=
  ∀ s : State, s.Inv → s.st ≠ .idle → s.turns = [] → ∃ t, step s = .next t ∧ t.stepsLeft < s.stepsLeft

/-- R178: every decode ends, within `4 + nb·(2 + 5·es/4)` engine steps, with BUSY = 0 and DONE = 1 (R238). -/
def Obligations.EveryDecodeEndsWithinTheBound : Prop :=
  ∀ s : State, s.Inv → s.st = .check → s.turns = [] →
    ∃ k ≤ 4 + ceilDiv s.cnt.toNat (blockCap s.es.toNat) * (2 + 5 * (s.es.toNat / 4)), ∃ t : State,
      Host.Core.run core k s = .next t ∧ t.st = .idle ∧ t.status.busy = false ∧ t.status.done = true

/-- R36: the cursor never moves backwards in a decode and stays within the input. -/
def Obligations.CursorOnlyMovesForward : Prop :=
  ∀ s t : State, s.Inv → s.st ≠ .idle → s.turns = [] → step s = .next t →
    s.pos.toNat ≤ t.pos.toNat ∧ (s.pos.toNat ≤ s.len.toNat → t.pos.toNat ≤ s.len.toNat)

/-- R67: the engine writes OUT only inside `[0, cnt·es)`, and only COMMIT writes it, `OUT[done·es .. (done+B)·es)` with
`done + B ≤ cnt`. The end of a decode is left out of the second clause: an error leaves OUT open (R206), and so does
any end of a decode whose input the host wrote (R233, log entry 7). -/
def Obligations.EngineWritesOutOnlyInside : Prop :=
  ∀ s t : State, s.Inv → s.turns = [] → step s = .next t →
    (∀ a, s.cnt.toNat * s.es.toNat ≤ a → t.peek .out a = s.peek .out a) ∧
    (s.st ≠ .commit → t.st ≠ .idle → t.out = s.out) ∧
    (s.st = .commit → s.done.toNat + s.blk.toNat ≤ s.cnt.toNat ∧
      ∀ a, ¬ (s.done.toNat * s.es.toNat ≤ a ∧ a < (s.done.toNat + s.blk.toNat) * s.es.toNat) →
        t.peek .out a = s.peek .out a)

/-- R59 and R41: no engine step depends on a byte of IN at or beyond `len`. -/
def Obligations.InputBeyondLenIsNeverRead : Prop :=
  ∀ (s t : State) (m : Memory), s.Inv → (s.setMem .inp m).Inv → s.turns = [] →
    (∀ a < s.len.toNat, (s.setMem .inp m).peek .inp a = s.peek .inp a) →
    step s = .next t → step (s.setMem .inp m) = .next (t.setMem .inp m)

/-- R46: the result of a decode depends only on the latched configuration, the parameters and `IN[0 .. len)`: whatever
two machines hold in their internal storage, OUT and unused input when a decode is launched, after the same number
of steps both have ended, with the same STATUS, ELEM_DONE and IN_POS, and, on success, the same output. -/
def Obligations.ResultDependsOnlyOnTheInput : Prop :=
  ∀ s s' : State, s.Inv → s'.Inv → s.Launched → s'.Launched →
    s.params = s'.params → s.cnt = s'.cnt → s.es = s'.es → s.len = s'.len →
    (∀ a < s.len.toNat, s.peek .inp a = s'.peek .inp a) →
    ∃ (k : Nat) (t t' : State), Host.Core.run core k s = .next t ∧ Host.Core.run core k s' = .next t' ∧
      t.st = .idle ∧ t'.st = .idle ∧ t.status = t'.status ∧ t.elemDone = t'.elemDone ∧ t.inPos = t'.inPos ∧
      (t.status.err = false → ∀ a < s.cnt.toNat * s.es.toNat, t.peek .out a = t'.peek .out a)

/-- R176: the engine's steps from START reach the end that DECODE gives: STATUS, IN_POS, ELEM_DONE, and, on success, the
output, with OUT at and beyond `cnt·es` unchanged. The stream layout DECODE reads holds the spec's own inferences (GK2 to
GK10; log entry 19). -/
def Obligations.EngineRefinesDecode : Prop :=
  ∀ s : State, s.Inv → s.Launched →
    let r := decodeBuffer s.params s.cnt.toNat s.es.toNat s.len.toNat (s.peek .inp) (s.peek .out)
    ∃ (k : Nat) (t : State), k ≤ decodeSteps s.cnt.toNat s.es.toNat ∧ Host.Core.run core k s = .next t ∧
      t.st = .idle ∧ t.status = Status.ended r.reason r.version ∧
      t.inPos.toNat = r.inPos ∧ t.elemDone.toNat = r.elemDone ∧
      (r.reason = none → ∀ a < s.cnt.toNat * s.es.toNat, t.peek .out a = r.out a) ∧
      ∀ a, s.cnt.toNat * s.es.toNat ≤ a → t.peek .out a = s.peek .out a

/-! ## A packed column at its own cursors (41_stream_parser.md) -/

/-- A packed column, where the look-ahead of every group holds at that group's own cursor, however few bytes the groups
take (R120, R123, R124, R126 to R129): the cursors start after the width header, and each next one is where the
selector's row leaves it. The source completes, group `q`'s outputs are the column's values `16q` to `16q+15` in the
plane's place, the cursor ends where the last group leaves it, and nothing else but the latch changes. The selectors'
order, the look-ahead to the buffer's end and the aligned length are the spec's own inferences (GK2, GK9, GK10; log
entry 19). -/
def Obligations.PackedSourceRunsWhereEveryLookAheadHolds : Prop :=
  ∀ row ∈ packedRows, ∀ (s : State) (cur : Nat → Nat),
    s.blkAligned.toNat % 16 = 0 →
    s.j.toNat * s.blk.toNat + s.blkAligned.toNat ≤ 1024 →
    s.len.toNat ≤ s.params.inCap →
    cur 0 = s.pos.toNat + (s.blkAligned.toNat + 63) / 64 → cur 0 ≤ s.len.toNat →
    (∀ q < s.blkAligned.toNat / 16, cur q + 24 ≤ s.len.toNat ∧ ∃ r u,
      decode row.2 (field2 (s.peek .inp (s.pos.toNat + q / 4)) (q % 4)) = .ok r ∧
      exec r { s with pos := BitVec.ofNat 32 (cur q) } = .next u ∧
      u.pos.toNat = cur (q + 1)) →
    let base := s.j.toNat * s.blk.toNat
    ∃ t, exec row.1 s = .next t ∧
      t.pos.toNat = cur (s.blkAligned.toNat / 16) ∧
      (∀ q < s.blkAligned.toNat / 16, ∀ r u,
        decode row.2 (field2 (s.peek .inp (s.pos.toNat + q / 4)) (q % 4)) = .ok r →
        exec r { s with pos := BitVec.ofNat 32 (cur q) } = .next u →
        ∀ k < 16, t.peek .res (base + 16 * q + k) = u.peek .grp k) ∧
      (∀ a, ¬ (base ≤ a ∧ a < base + s.blkAligned.toNat) → t.peek .res a = s.peek .res a) ∧
      (∀ a, 16 ≤ a → t.peek .grp a = s.peek .grp a) ∧
      { t with res := s.res, pos := s.pos, grp := s.grp } = s
end

