-- ==== Sys2Proof/Laws/State.lean ====
section
/-!
SUPPORT. The small lemmas of State: what each named update leaves in each field, and what each memory is after one.
-/

namespace Sys2Proof.Machine

/-! ## setMem -/
@[simp] theorem State.setMem_params (s : State) (sp : Space) (m : Memory) : (s.setMem sp m).params = s.params := by
  cases sp <;> rfl
@[simp] theorem State.setMem_status (s : State) (sp : Space) (m : Memory) : (s.setMem sp m).status = s.status := by
  cases sp <;> rfl
@[simp] theorem State.setMem_elemCount (s : State) (sp : Space) (m : Memory) : (s.setMem sp m).elemCount = s.elemCount := by
  cases sp <;> rfl
@[simp] theorem State.setMem_elemSize (s : State) (sp : Space) (m : Memory) : (s.setMem sp m).elemSize = s.elemSize := by
  cases sp <;> rfl
@[simp] theorem State.setMem_inLen (s : State) (sp : Space) (m : Memory) : (s.setMem sp m).inLen = s.inLen := by
  cases sp <;> rfl
@[simp] theorem State.setMem_elemDone (s : State) (sp : Space) (m : Memory) : (s.setMem sp m).elemDone = s.elemDone := by
  cases sp <;> rfl
@[simp] theorem State.setMem_inPos (s : State) (sp : Space) (m : Memory) : (s.setMem sp m).inPos = s.inPos := by
  cases sp <;> rfl
@[simp] theorem State.setMem_cnt (s : State) (sp : Space) (m : Memory) : (s.setMem sp m).cnt = s.cnt := by
  cases sp <;> rfl
@[simp] theorem State.setMem_es (s : State) (sp : Space) (m : Memory) : (s.setMem sp m).es = s.es := by
  cases sp <;> rfl
@[simp] theorem State.setMem_len (s : State) (sp : Space) (m : Memory) : (s.setMem sp m).len = s.len := by
  cases sp <;> rfl
@[simp] theorem State.setMem_pos (s : State) (sp : Space) (m : Memory) : (s.setMem sp m).pos = s.pos := by
  cases sp <;> rfl
@[simp] theorem State.setMem_ver (s : State) (sp : Space) (m : Memory) : (s.setMem sp m).ver = s.ver := by
  cases sp <;> rfl
@[simp] theorem State.setMem_ts (s : State) (sp : Space) (m : Memory) : (s.setMem sp m).ts = s.ts := by
  cases sp <;> rfl
@[simp] theorem State.setMem_tp (s : State) (sp : Space) (m : Memory) : (s.setMem sp m).tp = s.tp := by
  cases sp <;> rfl
@[simp] theorem State.setMem_cap (s : State) (sp : Space) (m : Memory) : (s.setMem sp m).cap = s.cap := by
  cases sp <;> rfl
@[simp] theorem State.setMem_done (s : State) (sp : Space) (m : Memory) : (s.setMem sp m).done = s.done := by
  cases sp <;> rfl
@[simp] theorem State.setMem_blk (s : State) (sp : Space) (m : Memory) : (s.setMem sp m).blk = s.blk := by
  cases sp <;> rfl
@[simp] theorem State.setMem_blkAligned (s : State) (sp : Space) (m : Memory) : (s.setMem sp m).blkAligned = s.blkAligned := by
  cases sp <;> rfl
@[simp] theorem State.setMem_g (s : State) (sp : Space) (m : Memory) : (s.setMem sp m).g = s.g := by
  cases sp <;> rfl
@[simp] theorem State.setMem_j (s : State) (sp : Space) (m : Memory) : (s.setMem sp m).j = s.j := by
  cases sp <;> rfl
@[simp] theorem State.setMem_errc (s : State) (sp : Space) (m : Memory) : (s.setMem sp m).errc = s.errc := by
  cases sp <;> rfl
@[simp] theorem State.setMem_errr (s : State) (sp : Space) (m : Memory) : (s.setMem sp m).errr = s.errr := by
  cases sp <;> rfl
@[simp] theorem State.setMem_st (s : State) (sp : Space) (m : Memory) : (s.setMem sp m).st = s.st := by
  cases sp <;> rfl
@[simp] theorem State.setMem_turns (s : State) (sp : Space) (m : Memory) : (s.setMem sp m).turns = s.turns := by
  cases sp <;> rfl
@[simp] theorem State.setMem_hostData (s : State) (sp : Space) (m : Memory) : (s.setMem sp m).hostData = s.hostData := by
  cases sp <;> rfl
@[simp] theorem State.setMem_spoiled (s : State) (sp : Space) (m : Memory) : (s.setMem sp m).spoiled = s.spoiled := by
  cases sp <;> rfl
@[simp] theorem State.setMem_draws (s : State) (sp : Space) (m : Memory) : (s.setMem sp m).draws = s.draws := by
  cases sp <;> rfl
@[simp] theorem State.setMem_epoch (s : State) (sp : Space) (m : Memory) : (s.setMem sp m).epoch = s.epoch := by
  cases sp <;> rfl
@[simp] theorem State.mem_setMem_same (s : State) (sp : Space) (m : Memory) : (s.setMem sp m).mem sp = m := by
  cases sp <;> rfl

theorem State.mem_setMem_of_ne (s : State) {sp sp' : Space} (m : Memory) (h : sp' ≠ sp) :
    (s.setMem sp m).mem sp' = s.mem sp' := by
  cases sp <;> cases sp' <;> first | rfl | exact absurd rfl h

@[simp] theorem State.size_setMem (s : State) (sp sp' : Space) (m : Memory) : (s.setMem sp m).size sp' = s.size sp' := by
  cases sp <;> cases sp' <;> rfl

@[simp] theorem State.setMem_setMem (s : State) (sp : Space) (m m' : Memory) :
    (s.setMem sp m).setMem sp m' = s.setMem sp m' := by
  cases sp <;> rfl

@[simp] theorem State.setMem_self (s : State) (sp : Space) : s.setMem sp (s.mem sp) = s := by
  cases sp <;> rfl

@[simp] theorem State.mem_inp (s : State) : s.mem .inp = s.inp := rfl
@[simp] theorem State.mem_out (s : State) : s.mem .out = s.out := rfl
@[simp] theorem State.mem_last (s : State) : s.mem .last = s.last := rfl
@[simp] theorem State.mem_chan (s : State) : s.mem .chan = s.chan := rfl
@[simp] theorem State.mem_ctl (s : State) : s.mem .ctl = s.ctl := rfl
@[simp] theorem State.mem_res (s : State) : s.mem .res = s.res := rfl
@[simp] theorem State.mem_tr (s : State) : s.mem .tr = s.tr := rfl
@[simp] theorem State.mem_grp (s : State) : s.mem .grp = s.grp := rfl

@[simp] theorem State.size_inp (s : State) : s.size .inp = s.params.inCap := rfl
@[simp] theorem State.size_out (s : State) : s.size .out = s.params.outCap := rfl
@[simp] theorem State.size_last (s : State) : s.size .last = 256 := rfl
@[simp] theorem State.size_chan (s : State) : s.size .chan = 64 := rfl
@[simp] theorem State.size_ctl (s : State) : s.size .ctl = 64 := rfl
@[simp] theorem State.size_res (s : State) : s.size .res = 1024 := rfl
@[simp] theorem State.size_tr (s : State) : s.size .tr = 8192 := rfl
@[simp] theorem State.size_grp (s : State) : s.size .grp = 16 := rfl

/-! ## drawOut -/

@[simp] theorem State.drawOut_params (s : State) : s.drawOut.params = s.params := rfl
@[simp] theorem State.drawOut_inp (s : State) : s.drawOut.inp = s.inp := rfl
@[simp] theorem State.drawOut_status (s : State) : s.drawOut.status = s.status := rfl
@[simp] theorem State.drawOut_elemCount (s : State) : s.drawOut.elemCount = s.elemCount := rfl
@[simp] theorem State.drawOut_elemSize (s : State) : s.drawOut.elemSize = s.elemSize := rfl
@[simp] theorem State.drawOut_inLen (s : State) : s.drawOut.inLen = s.inLen := rfl
@[simp] theorem State.drawOut_elemDone (s : State) : s.drawOut.elemDone = s.elemDone := rfl
@[simp] theorem State.drawOut_inPos (s : State) : s.drawOut.inPos = s.inPos := rfl
@[simp] theorem State.drawOut_cnt (s : State) : s.drawOut.cnt = s.cnt := rfl
@[simp] theorem State.drawOut_es (s : State) : s.drawOut.es = s.es := rfl
@[simp] theorem State.drawOut_len (s : State) : s.drawOut.len = s.len := rfl
@[simp] theorem State.drawOut_pos (s : State) : s.drawOut.pos = s.pos := rfl
@[simp] theorem State.drawOut_ver (s : State) : s.drawOut.ver = s.ver := rfl
@[simp] theorem State.drawOut_ts (s : State) : s.drawOut.ts = s.ts := rfl
@[simp] theorem State.drawOut_tp (s : State) : s.drawOut.tp = s.tp := rfl
@[simp] theorem State.drawOut_cap (s : State) : s.drawOut.cap = s.cap := rfl
@[simp] theorem State.drawOut_done (s : State) : s.drawOut.done = s.done := rfl
@[simp] theorem State.drawOut_blk (s : State) : s.drawOut.blk = s.blk := rfl
@[simp] theorem State.drawOut_blkAligned (s : State) : s.drawOut.blkAligned = s.blkAligned := rfl
@[simp] theorem State.drawOut_g (s : State) : s.drawOut.g = s.g := rfl
@[simp] theorem State.drawOut_j (s : State) : s.drawOut.j = s.j := rfl
@[simp] theorem State.drawOut_errc (s : State) : s.drawOut.errc = s.errc := rfl
@[simp] theorem State.drawOut_errr (s : State) : s.drawOut.errr = s.errr := rfl
@[simp] theorem State.drawOut_st (s : State) : s.drawOut.st = s.st := rfl
@[simp] theorem State.drawOut_last (s : State) : s.drawOut.last = s.last := rfl
@[simp] theorem State.drawOut_chan (s : State) : s.drawOut.chan = s.chan := rfl
@[simp] theorem State.drawOut_ctl (s : State) : s.drawOut.ctl = s.ctl := rfl
@[simp] theorem State.drawOut_res (s : State) : s.drawOut.res = s.res := rfl
@[simp] theorem State.drawOut_tr (s : State) : s.drawOut.tr = s.tr := rfl
@[simp] theorem State.drawOut_grp (s : State) : s.drawOut.grp = s.grp := rfl
@[simp] theorem State.drawOut_turns (s : State) : s.drawOut.turns = s.turns := rfl
@[simp] theorem State.drawOut_hostData (s : State) : s.drawOut.hostData = s.hostData := rfl
@[simp] theorem State.drawOut_spoiled (s : State) : s.drawOut.spoiled = s.spoiled := rfl
@[simp] theorem State.drawOut_epoch (s : State) : s.drawOut.epoch = s.epoch := rfl

/-! ## endOk -/

@[simp] theorem State.endOk_params (s : State) : s.endOk.params = s.params := rfl
@[simp] theorem State.endOk_inp (s : State) : s.endOk.inp = s.inp := rfl
@[simp] theorem State.endOk_out (s : State) : s.endOk.out = s.out := rfl
@[simp] theorem State.endOk_elemCount (s : State) : s.endOk.elemCount = s.elemCount := rfl
@[simp] theorem State.endOk_elemSize (s : State) : s.endOk.elemSize = s.elemSize := rfl
@[simp] theorem State.endOk_inLen (s : State) : s.endOk.inLen = s.inLen := rfl
@[simp] theorem State.endOk_cnt (s : State) : s.endOk.cnt = s.cnt := rfl
@[simp] theorem State.endOk_es (s : State) : s.endOk.es = s.es := rfl
@[simp] theorem State.endOk_len (s : State) : s.endOk.len = s.len := rfl
@[simp] theorem State.endOk_pos (s : State) : s.endOk.pos = s.pos := rfl
@[simp] theorem State.endOk_ver (s : State) : s.endOk.ver = s.ver := rfl
@[simp] theorem State.endOk_ts (s : State) : s.endOk.ts = s.ts := rfl
@[simp] theorem State.endOk_tp (s : State) : s.endOk.tp = s.tp := rfl
@[simp] theorem State.endOk_cap (s : State) : s.endOk.cap = s.cap := rfl
@[simp] theorem State.endOk_done (s : State) : s.endOk.done = s.done := rfl
@[simp] theorem State.endOk_blk (s : State) : s.endOk.blk = s.blk := rfl
@[simp] theorem State.endOk_blkAligned (s : State) : s.endOk.blkAligned = s.blkAligned := rfl
@[simp] theorem State.endOk_g (s : State) : s.endOk.g = s.g := rfl
@[simp] theorem State.endOk_j (s : State) : s.endOk.j = s.j := rfl
@[simp] theorem State.endOk_errc (s : State) : s.endOk.errc = s.errc := rfl
@[simp] theorem State.endOk_errr (s : State) : s.endOk.errr = s.errr := rfl
@[simp] theorem State.endOk_last (s : State) : s.endOk.last = s.last := rfl
@[simp] theorem State.endOk_chan (s : State) : s.endOk.chan = s.chan := rfl
@[simp] theorem State.endOk_ctl (s : State) : s.endOk.ctl = s.ctl := rfl
@[simp] theorem State.endOk_res (s : State) : s.endOk.res = s.res := rfl
@[simp] theorem State.endOk_tr (s : State) : s.endOk.tr = s.tr := rfl
@[simp] theorem State.endOk_grp (s : State) : s.endOk.grp = s.grp := rfl
@[simp] theorem State.endOk_turns (s : State) : s.endOk.turns = s.turns := rfl
@[simp] theorem State.endOk_hostData (s : State) : s.endOk.hostData = s.hostData := rfl
@[simp] theorem State.endOk_spoiled (s : State) : s.endOk.spoiled = s.spoiled := rfl
@[simp] theorem State.endOk_draws (s : State) : s.endOk.draws = s.draws := rfl
@[simp] theorem State.endOk_epoch (s : State) : s.endOk.epoch = s.epoch := rfl

/-! ## startWrite -/

@[simp] theorem startWrite_params (s : State) : (startWrite s).params = s.params := rfl
@[simp] theorem startWrite_inp (s : State) : (startWrite s).inp = s.inp := rfl
@[simp] theorem startWrite_out (s : State) : (startWrite s).out = s.out := rfl
@[simp] theorem startWrite_elemCount (s : State) : (startWrite s).elemCount = s.elemCount := rfl
@[simp] theorem startWrite_elemSize (s : State) : (startWrite s).elemSize = s.elemSize := rfl
@[simp] theorem startWrite_inLen (s : State) : (startWrite s).inLen = s.inLen := rfl
@[simp] theorem startWrite_ver (s : State) : (startWrite s).ver = s.ver := rfl
@[simp] theorem startWrite_ts (s : State) : (startWrite s).ts = s.ts := rfl
@[simp] theorem startWrite_tp (s : State) : (startWrite s).tp = s.tp := rfl
@[simp] theorem startWrite_cap (s : State) : (startWrite s).cap = s.cap := rfl
@[simp] theorem startWrite_blk (s : State) : (startWrite s).blk = s.blk := rfl
@[simp] theorem startWrite_blkAligned (s : State) : (startWrite s).blkAligned = s.blkAligned := rfl
@[simp] theorem startWrite_g (s : State) : (startWrite s).g = s.g := rfl
@[simp] theorem startWrite_j (s : State) : (startWrite s).j = s.j := rfl
@[simp] theorem startWrite_last (s : State) : (startWrite s).last = s.last := rfl
@[simp] theorem startWrite_chan (s : State) : (startWrite s).chan = s.chan := rfl
@[simp] theorem startWrite_ctl (s : State) : (startWrite s).ctl = s.ctl := rfl
@[simp] theorem startWrite_res (s : State) : (startWrite s).res = s.res := rfl
@[simp] theorem startWrite_tr (s : State) : (startWrite s).tr = s.tr := rfl
@[simp] theorem startWrite_grp (s : State) : (startWrite s).grp = s.grp := rfl
@[simp] theorem startWrite_turns (s : State) : (startWrite s).turns = s.turns := rfl
@[simp] theorem startWrite_hostData (s : State) : (startWrite s).hostData = s.hostData := rfl
@[simp] theorem startWrite_draws (s : State) : (startWrite s).draws = s.draws := rfl
@[simp] theorem startWrite_epoch (s : State) : (startWrite s).epoch = s.epoch := rfl

/-! ## tailSizes -/

@[simp] theorem tailSizes_params (s : State) : (tailSizes s).params = s.params := rfl
@[simp] theorem tailSizes_inp (s : State) : (tailSizes s).inp = s.inp := rfl
@[simp] theorem tailSizes_out (s : State) : (tailSizes s).out = s.out := rfl
@[simp] theorem tailSizes_status (s : State) : (tailSizes s).status = s.status := rfl
@[simp] theorem tailSizes_elemCount (s : State) : (tailSizes s).elemCount = s.elemCount := rfl
@[simp] theorem tailSizes_elemSize (s : State) : (tailSizes s).elemSize = s.elemSize := rfl
@[simp] theorem tailSizes_inLen (s : State) : (tailSizes s).inLen = s.inLen := rfl
@[simp] theorem tailSizes_elemDone (s : State) : (tailSizes s).elemDone = s.elemDone := rfl
@[simp] theorem tailSizes_inPos (s : State) : (tailSizes s).inPos = s.inPos := rfl
@[simp] theorem tailSizes_cnt (s : State) : (tailSizes s).cnt = s.cnt := rfl
@[simp] theorem tailSizes_es (s : State) : (tailSizes s).es = s.es := rfl
@[simp] theorem tailSizes_len (s : State) : (tailSizes s).len = s.len := rfl
@[simp] theorem tailSizes_pos (s : State) : (tailSizes s).pos = s.pos := rfl
@[simp] theorem tailSizes_ver (s : State) : (tailSizes s).ver = s.ver := rfl
@[simp] theorem tailSizes_cap (s : State) : (tailSizes s).cap = s.cap := rfl
@[simp] theorem tailSizes_done (s : State) : (tailSizes s).done = s.done := rfl
@[simp] theorem tailSizes_blk (s : State) : (tailSizes s).blk = s.blk := rfl
@[simp] theorem tailSizes_blkAligned (s : State) : (tailSizes s).blkAligned = s.blkAligned := rfl
@[simp] theorem tailSizes_g (s : State) : (tailSizes s).g = s.g := rfl
@[simp] theorem tailSizes_j (s : State) : (tailSizes s).j = s.j := rfl
@[simp] theorem tailSizes_errc (s : State) : (tailSizes s).errc = s.errc := rfl
@[simp] theorem tailSizes_errr (s : State) : (tailSizes s).errr = s.errr := rfl
@[simp] theorem tailSizes_st (s : State) : (tailSizes s).st = s.st := rfl
@[simp] theorem tailSizes_last (s : State) : (tailSizes s).last = s.last := rfl
@[simp] theorem tailSizes_chan (s : State) : (tailSizes s).chan = s.chan := rfl
@[simp] theorem tailSizes_ctl (s : State) : (tailSizes s).ctl = s.ctl := rfl
@[simp] theorem tailSizes_res (s : State) : (tailSizes s).res = s.res := rfl
@[simp] theorem tailSizes_tr (s : State) : (tailSizes s).tr = s.tr := rfl
@[simp] theorem tailSizes_grp (s : State) : (tailSizes s).grp = s.grp := rfl
@[simp] theorem tailSizes_turns (s : State) : (tailSizes s).turns = s.turns := rfl
@[simp] theorem tailSizes_hostData (s : State) : (tailSizes s).hostData = s.hostData := rfl
@[simp] theorem tailSizes_spoiled (s : State) : (tailSizes s).spoiled = s.spoiled := rfl
@[simp] theorem tailSizes_draws (s : State) : (tailSizes s).draws = s.draws := rfl
@[simp] theorem tailSizes_epoch (s : State) : (tailSizes s).epoch = s.epoch := rfl

/-! ## blockSizes -/

@[simp] theorem blockSizes_params (s : State) : (blockSizes s).params = s.params := rfl
@[simp] theorem blockSizes_inp (s : State) : (blockSizes s).inp = s.inp := rfl
@[simp] theorem blockSizes_out (s : State) : (blockSizes s).out = s.out := rfl
@[simp] theorem blockSizes_status (s : State) : (blockSizes s).status = s.status := rfl
@[simp] theorem blockSizes_elemCount (s : State) : (blockSizes s).elemCount = s.elemCount := rfl
@[simp] theorem blockSizes_elemSize (s : State) : (blockSizes s).elemSize = s.elemSize := rfl
@[simp] theorem blockSizes_inLen (s : State) : (blockSizes s).inLen = s.inLen := rfl
@[simp] theorem blockSizes_elemDone (s : State) : (blockSizes s).elemDone = s.elemDone := rfl
@[simp] theorem blockSizes_inPos (s : State) : (blockSizes s).inPos = s.inPos := rfl
@[simp] theorem blockSizes_cnt (s : State) : (blockSizes s).cnt = s.cnt := rfl
@[simp] theorem blockSizes_es (s : State) : (blockSizes s).es = s.es := rfl
@[simp] theorem blockSizes_len (s : State) : (blockSizes s).len = s.len := rfl
@[simp] theorem blockSizes_pos (s : State) : (blockSizes s).pos = s.pos := rfl
@[simp] theorem blockSizes_ver (s : State) : (blockSizes s).ver = s.ver := rfl
@[simp] theorem blockSizes_ts (s : State) : (blockSizes s).ts = s.ts := rfl
@[simp] theorem blockSizes_tp (s : State) : (blockSizes s).tp = s.tp := rfl
@[simp] theorem blockSizes_cap (s : State) : (blockSizes s).cap = s.cap := rfl
@[simp] theorem blockSizes_done (s : State) : (blockSizes s).done = s.done := rfl
@[simp] theorem blockSizes_g (s : State) : (blockSizes s).g = s.g := rfl
@[simp] theorem blockSizes_j (s : State) : (blockSizes s).j = s.j := rfl
@[simp] theorem blockSizes_errc (s : State) : (blockSizes s).errc = s.errc := rfl
@[simp] theorem blockSizes_errr (s : State) : (blockSizes s).errr = s.errr := rfl
@[simp] theorem blockSizes_st (s : State) : (blockSizes s).st = s.st := rfl
@[simp] theorem blockSizes_last (s : State) : (blockSizes s).last = s.last := rfl
@[simp] theorem blockSizes_chan (s : State) : (blockSizes s).chan = s.chan := rfl
@[simp] theorem blockSizes_ctl (s : State) : (blockSizes s).ctl = s.ctl := rfl
@[simp] theorem blockSizes_res (s : State) : (blockSizes s).res = s.res := rfl
@[simp] theorem blockSizes_tr (s : State) : (blockSizes s).tr = s.tr := rfl
@[simp] theorem blockSizes_grp (s : State) : (blockSizes s).grp = s.grp := rfl
@[simp] theorem blockSizes_turns (s : State) : (blockSizes s).turns = s.turns := rfl
@[simp] theorem blockSizes_hostData (s : State) : (blockSizes s).hostData = s.hostData := rfl
@[simp] theorem blockSizes_spoiled (s : State) : (blockSizes s).spoiled = s.spoiled := rfl
@[simp] theorem blockSizes_draws (s : State) : (blockSizes s).draws = s.draws := rfl
@[simp] theorem blockSizes_epoch (s : State) : (blockSizes s).epoch = s.epoch := rfl

@[simp] theorem State.endOk_status (s : State) : s.endOk.status = Status.ended none s.ver := rfl
@[simp] theorem State.endOk_elemDone (s : State) : s.endOk.elemDone = s.done := rfl
@[simp] theorem State.endOk_inPos (s : State) : s.endOk.inPos = s.pos := rfl
@[simp] theorem State.endOk_st (s : State) : s.endOk.st = .idle := rfl
@[simp] theorem startWrite_cnt (s : State) : (startWrite s).cnt = s.elemCount := rfl
@[simp] theorem startWrite_es (s : State) : (startWrite s).es = s.elemSize := rfl
@[simp] theorem startWrite_len (s : State) : (startWrite s).len = s.inLen := rfl
@[simp] theorem startWrite_st (s : State) : (startWrite s).st = .check := rfl

/-! ## endError: what taking an error leaves (R202, R203) -/

@[simp] theorem State.endError_params (r : Reason) (s : State) : (s.endError r).params = s.params := by
  unfold State.endError; split <;> rfl
@[simp] theorem State.endError_inp (r : Reason) (s : State) : (s.endError r).inp = s.inp := by
  unfold State.endError; split <;> rfl
@[simp] theorem State.endError_elemCount (r : Reason) (s : State) : (s.endError r).elemCount = s.elemCount := by
  unfold State.endError; split <;> rfl
@[simp] theorem State.endError_elemSize (r : Reason) (s : State) : (s.endError r).elemSize = s.elemSize := by
  unfold State.endError; split <;> rfl
@[simp] theorem State.endError_inLen (r : Reason) (s : State) : (s.endError r).inLen = s.inLen := by
  unfold State.endError; split <;> rfl
@[simp] theorem State.endError_cnt (r : Reason) (s : State) : (s.endError r).cnt = s.cnt := by
  unfold State.endError; split <;> rfl
@[simp] theorem State.endError_es (r : Reason) (s : State) : (s.endError r).es = s.es := by
  unfold State.endError; split <;> rfl
@[simp] theorem State.endError_len (r : Reason) (s : State) : (s.endError r).len = s.len := by
  unfold State.endError; split <;> rfl
@[simp] theorem State.endError_pos (r : Reason) (s : State) : (s.endError r).pos = s.pos := by
  unfold State.endError; split <;> rfl
@[simp] theorem State.endError_ver (r : Reason) (s : State) : (s.endError r).ver = s.ver := by
  unfold State.endError; split <;> rfl
@[simp] theorem State.endError_ts (r : Reason) (s : State) : (s.endError r).ts = s.ts := by
  unfold State.endError; split <;> rfl
@[simp] theorem State.endError_tp (r : Reason) (s : State) : (s.endError r).tp = s.tp := by
  unfold State.endError; split <;> rfl
@[simp] theorem State.endError_cap (r : Reason) (s : State) : (s.endError r).cap = s.cap := by
  unfold State.endError; split <;> rfl
@[simp] theorem State.endError_done (r : Reason) (s : State) : (s.endError r).done = s.done := by
  unfold State.endError; split <;> rfl
@[simp] theorem State.endError_blk (r : Reason) (s : State) : (s.endError r).blk = s.blk := by
  unfold State.endError; split <;> rfl
@[simp] theorem State.endError_blkAligned (r : Reason) (s : State) : (s.endError r).blkAligned = s.blkAligned := by
  unfold State.endError; split <;> rfl
@[simp] theorem State.endError_g (r : Reason) (s : State) : (s.endError r).g = s.g := by
  unfold State.endError; split <;> rfl
@[simp] theorem State.endError_j (r : Reason) (s : State) : (s.endError r).j = s.j := by
  unfold State.endError; split <;> rfl
@[simp] theorem State.endError_last (r : Reason) (s : State) : (s.endError r).last = s.last := by
  unfold State.endError; split <;> rfl
@[simp] theorem State.endError_chan (r : Reason) (s : State) : (s.endError r).chan = s.chan := by
  unfold State.endError; split <;> rfl
@[simp] theorem State.endError_ctl (r : Reason) (s : State) : (s.endError r).ctl = s.ctl := by
  unfold State.endError; split <;> rfl
@[simp] theorem State.endError_res (r : Reason) (s : State) : (s.endError r).res = s.res := by
  unfold State.endError; split <;> rfl
@[simp] theorem State.endError_tr (r : Reason) (s : State) : (s.endError r).tr = s.tr := by
  unfold State.endError; split <;> rfl
@[simp] theorem State.endError_grp (r : Reason) (s : State) : (s.endError r).grp = s.grp := by
  unfold State.endError; split <;> rfl
@[simp] theorem State.endError_turns (r : Reason) (s : State) : (s.endError r).turns = s.turns := by
  unfold State.endError; split <;> rfl
@[simp] theorem State.endError_hostData (r : Reason) (s : State) : (s.endError r).hostData = s.hostData := by
  unfold State.endError; split <;> rfl
@[simp] theorem State.endError_spoiled (r : Reason) (s : State) : (s.endError r).spoiled = s.spoiled := by
  unfold State.endError; split <;> rfl
@[simp] theorem State.endError_epoch (r : Reason) (s : State) : (s.endError r).epoch = s.epoch := by
  unfold State.endError; split <;> rfl
@[simp] theorem State.endError_errc (r : Reason) (s : State) : (s.endError r).errc = r.cls := rfl
@[simp] theorem State.endError_errr (r : Reason) (s : State) : (s.endError r).errr = r.code := rfl
@[simp] theorem State.endError_st (r : Reason) (s : State) : (s.endError r).st = .idle := rfl
@[simp] theorem State.endError_elemDone (r : Reason) (s : State) : (s.endError r).elemDone = s.done := by
  unfold State.endError; split <;> rfl
@[simp] theorem State.endError_inPos (r : Reason) (s : State) : (s.endError r).inPos = s.pos := by
  unfold State.endError; split <;> rfl
@[simp] theorem State.endError_status (r : Reason) (s : State) :
    (s.endError r).status = Status.ended (some r) s.status.version := by
  unfold State.endError; split <;> rfl

/-! ## endDecode: what no end of a decode changes -/

@[simp] theorem State.endDecode_params (r : Option Reason) (s : State) : (s.endDecode r).params = s.params := by
  unfold State.endDecode; split <;> [rfl; (cases r <;> simp)]
@[simp] theorem State.endDecode_inp (r : Option Reason) (s : State) : (s.endDecode r).inp = s.inp := by
  unfold State.endDecode; split <;> [rfl; (cases r <;> simp)]
@[simp] theorem State.endDecode_elemCount (r : Option Reason) (s : State) : (s.endDecode r).elemCount = s.elemCount := by
  unfold State.endDecode; split <;> [rfl; (cases r <;> simp)]
@[simp] theorem State.endDecode_elemSize (r : Option Reason) (s : State) : (s.endDecode r).elemSize = s.elemSize := by
  unfold State.endDecode; split <;> [rfl; (cases r <;> simp)]
@[simp] theorem State.endDecode_inLen (r : Option Reason) (s : State) : (s.endDecode r).inLen = s.inLen := by
  unfold State.endDecode; split <;> [rfl; (cases r <;> simp)]
@[simp] theorem State.endDecode_cnt (r : Option Reason) (s : State) : (s.endDecode r).cnt = s.cnt := by
  unfold State.endDecode; split <;> [rfl; (cases r <;> simp)]
@[simp] theorem State.endDecode_es (r : Option Reason) (s : State) : (s.endDecode r).es = s.es := by
  unfold State.endDecode; split <;> [rfl; (cases r <;> simp)]
@[simp] theorem State.endDecode_len (r : Option Reason) (s : State) : (s.endDecode r).len = s.len := by
  unfold State.endDecode; split <;> [rfl; (cases r <;> simp)]
@[simp] theorem State.endDecode_pos (r : Option Reason) (s : State) : (s.endDecode r).pos = s.pos := by
  unfold State.endDecode; split <;> [rfl; (cases r <;> simp)]
@[simp] theorem State.endDecode_ver (r : Option Reason) (s : State) : (s.endDecode r).ver = s.ver := by
  unfold State.endDecode; split <;> [rfl; (cases r <;> simp)]
@[simp] theorem State.endDecode_ts (r : Option Reason) (s : State) : (s.endDecode r).ts = s.ts := by
  unfold State.endDecode; split <;> [rfl; (cases r <;> simp)]
@[simp] theorem State.endDecode_tp (r : Option Reason) (s : State) : (s.endDecode r).tp = s.tp := by
  unfold State.endDecode; split <;> [rfl; (cases r <;> simp)]
@[simp] theorem State.endDecode_cap (r : Option Reason) (s : State) : (s.endDecode r).cap = s.cap := by
  unfold State.endDecode; split <;> [rfl; (cases r <;> simp)]
@[simp] theorem State.endDecode_done (r : Option Reason) (s : State) : (s.endDecode r).done = s.done := by
  unfold State.endDecode; split <;> [rfl; (cases r <;> simp)]
@[simp] theorem State.endDecode_blk (r : Option Reason) (s : State) : (s.endDecode r).blk = s.blk := by
  unfold State.endDecode; split <;> [rfl; (cases r <;> simp)]
@[simp] theorem State.endDecode_blkAligned (r : Option Reason) (s : State) : (s.endDecode r).blkAligned = s.blkAligned := by
  unfold State.endDecode; split <;> [rfl; (cases r <;> simp)]
@[simp] theorem State.endDecode_g (r : Option Reason) (s : State) : (s.endDecode r).g = s.g := by
  unfold State.endDecode; split <;> [rfl; (cases r <;> simp)]
@[simp] theorem State.endDecode_j (r : Option Reason) (s : State) : (s.endDecode r).j = s.j := by
  unfold State.endDecode; split <;> [rfl; (cases r <;> simp)]
@[simp] theorem State.endDecode_last (r : Option Reason) (s : State) : (s.endDecode r).last = s.last := by
  unfold State.endDecode; split <;> [rfl; (cases r <;> simp)]
@[simp] theorem State.endDecode_chan (r : Option Reason) (s : State) : (s.endDecode r).chan = s.chan := by
  unfold State.endDecode; split <;> [rfl; (cases r <;> simp)]
@[simp] theorem State.endDecode_ctl (r : Option Reason) (s : State) : (s.endDecode r).ctl = s.ctl := by
  unfold State.endDecode; split <;> [rfl; (cases r <;> simp)]
@[simp] theorem State.endDecode_res (r : Option Reason) (s : State) : (s.endDecode r).res = s.res := by
  unfold State.endDecode; split <;> [rfl; (cases r <;> simp)]
@[simp] theorem State.endDecode_tr (r : Option Reason) (s : State) : (s.endDecode r).tr = s.tr := by
  unfold State.endDecode; split <;> [rfl; (cases r <;> simp)]
@[simp] theorem State.endDecode_grp (r : Option Reason) (s : State) : (s.endDecode r).grp = s.grp := by
  unfold State.endDecode; split <;> [rfl; (cases r <;> simp)]
@[simp] theorem State.endDecode_turns (r : Option Reason) (s : State) : (s.endDecode r).turns = s.turns := by
  unfold State.endDecode; split <;> [rfl; (cases r <;> simp)]
@[simp] theorem State.endDecode_hostData (r : Option Reason) (s : State) : (s.endDecode r).hostData = s.hostData := by
  unfold State.endDecode; split <;> [rfl; (cases r <;> simp)]
@[simp] theorem State.endDecode_spoiled (r : Option Reason) (s : State) : (s.endDecode r).spoiled = s.spoiled := by
  unfold State.endDecode; split <;> [rfl; (cases r <;> simp)]
@[simp] theorem State.endDecode_epoch (r : Option Reason) (s : State) : (s.endDecode r).epoch = s.epoch := by
  unfold State.endDecode; split <;> [rfl; (cases r <;> simp)]

end Sys2Proof.Machine
end

