-- ==== Sys2Proof/Laws/Memory.lean ====
section
/-!
SUPPORT. The memory's laws: a read after a write, and the canonical form, which every write keeps.
-/

namespace Sys2Proof.Machine

@[simp] theorem Memory.lookup_nil (x : Nat) : Memory.lookup x [] = none := rfl

theorem Memory.lookup_append (x : Nat) (m m' : Memory) :
    Memory.lookup x (m ++ m') = (Memory.lookup x m).or (Memory.lookup x m') := by
  induction m with
  | nil => rfl
  | cons c m ih =>
    simp only [List.cons_append, Memory.lookup]
    split
    · rfl
    · exact ih

theorem Memory.lookup_filter (x : Nat) (p : Nat → Bool) (m : Memory) :
    Memory.lookup x (m.filter fun c => p c.1) = if p x then Memory.lookup x m else none := by
  induction m with
  | nil => simp
  | cons c m ih =>
    by_cases hc : p c.1 = true <;> by_cases hx : c.1 = x
    · subst hx; simp [List.filter, hc, Memory.lookup]
    · simp [List.filter, hc, Memory.lookup, hx, ih]
    · subst hx; simp [List.filter, hc, ih]
    · simp [List.filter, hc, Memory.lookup, hx, ih]

theorem Memory.lookup_cellsFrom (x a : Nat) (bs : List Byte) :
    Memory.lookup x (Memory.cellsFrom a bs) = if a ≤ x then bs[x - a]? else none := by
  induction bs generalizing a with
  | nil => simp [Memory.cellsFrom]
  | cons b bs ih =>
    simp only [Memory.cellsFrom, Memory.lookup, ih]
    by_cases h : a = x
    · subst h; simp
    · by_cases h' : a ≤ x
      · obtain ⟨k, rfl⟩ : ∃ k, x = a + 1 + k := ⟨x - (a + 1), by omega⟩
        have : a + 1 + k - a = k + 1 := by omega
        simp [h, h', this]
      · have : ¬ a + 1 ≤ x := by omega
        simp [h, h', this]

/-- Reading the listed byte after a write: the byte written, where the write reaches, and the byte before elsewhere. -/
theorem Memory.lookup_write (x a : Nat) (bs : List Byte) (m : Memory) :
    Memory.lookup x (Memory.write a bs m) =
      if a ≤ x ∧ x < a + bs.length then bs[x - a]? else Memory.lookup x m := by
  unfold Memory.write
  rw [Memory.lookup_append, Memory.lookup_append, Memory.lookup_filter x (fun y => decide (y < a)),
    Memory.lookup_filter x (fun y => decide (a + bs.length ≤ y)), Memory.lookup_cellsFrom]
  by_cases h1 : x < a
  · have h2 : ¬ a ≤ x := by omega
    have h3 : ¬ a + bs.length ≤ x := by omega
    simp [h1, h2, h3]
  · have h2 : a ≤ x := by omega
    by_cases h3 : a + bs.length ≤ x
    · have h4 : ¬ x < a + bs.length := by omega
      have h5 : bs.length ≤ x - a := by omega
      simp [h1, h2, h3, h4, List.getElem?_eq_none h5]
    · have h4 : x < a + bs.length := by omega
      have h5 : x - a < bs.length := by omega
      simp [h1, h2, h3, h4, List.getElem?_eq_getElem h5]

theorem Memory.mem_cellsFrom {a : Nat} {bs : List Byte} {c : Host.Cell} (h : c ∈ Memory.cellsFrom a bs) :
    a ≤ c.1 ∧ c.1 < a + bs.length := by
  induction bs generalizing a with
  | nil => simp [Memory.cellsFrom] at h
  | cons b bs ih =>
    simp only [Memory.cellsFrom, List.mem_cons] at h
    rcases h with rfl | h
    · simp
    · have := ih h
      simp only [List.length_cons]
      omega

theorem Memory.cellsFrom_wf (a : Nat) (bs : List Byte) : (Memory.cellsFrom a bs).wf := by
  induction bs generalizing a with
  | nil => exact List.Pairwise.nil
  | cons b bs ih =>
    refine List.Pairwise.cons (fun c hc => ?_) (ih (a + 1))
    have := Memory.mem_cellsFrom hc
    simp only
    omega

/-- A write keeps the canonical form. -/
theorem Memory.write_wf (a : Nat) (bs : List Byte) {m : Memory} (h : m.wf) : (Memory.write a bs m).wf := by
  unfold Memory.write Memory.wf
  refine List.pairwise_append.mpr ⟨List.pairwise_append.mpr ⟨?_, Memory.cellsFrom_wf a bs, ?_⟩, ?_, ?_⟩
  · exact List.Pairwise.filter _ h
  · intro c hc d hd
    have := (List.mem_filter.mp hc).2
    have hd := Memory.mem_cellsFrom hd
    simp only [decide_eq_true_eq] at this
    omega
  · exact List.Pairwise.filter _ h
  · intro c hc d hd
    have hd := (List.mem_filter.mp hd).2
    simp only [decide_eq_true_eq] at hd
    rcases List.mem_append.mp hc with hc | hc
    · have := (List.mem_filter.mp hc).2
      simp only [decide_eq_true_eq] at this
      omega
    · have := Memory.mem_cellsFrom hc
      omega

/-- A write lists offsets below a bound only, if the memory before did and the write ends below it. -/
theorem Memory.write_below {a n : Nat} {bs : List Byte} {m : Memory} (h : ∀ c ∈ m, c.1 < n)
    (hw : a + bs.length ≤ n) : ∀ c ∈ Memory.write a bs m, c.1 < n := by
  intro c hc
  unfold Memory.write at hc
  rcases List.mem_append.mp hc with hc | hc
  · rcases List.mem_append.mp hc with hc | hc
    · exact h c (List.mem_filter.mp hc).1
    · have := Memory.mem_cellsFrom hc
      omega
  · exact h c (List.mem_filter.mp hc).1

/-- Reading a byte after a write of a memory: the byte written, where the write reaches, and the byte before
elsewhere. -/
theorem State.peek_setMem_write (s : State) (sp sp' : Space) (a x : Nat) (bs : List Byte) :
    (s.setMem sp (Memory.write a bs (s.mem sp))).peek sp' x =
      if sp' = sp ∧ a ≤ x ∧ x < a + bs.length then bs.getD (x - a) 0 else s.peek sp' x := by
  unfold State.peek
  by_cases h : sp' = sp
  · subst h
    simp only [State.mem_setMem_same, Memory.lookup_write, State.setMem_epoch, true_and]
    split
    · next hx =>
      have : x - a < bs.length := by omega
      simp [List.getD, this]
    · rfl
  · simp [h, State.mem_setMem_of_ne s _ h]

end Sys2Proof.Machine
end

