-- ==== Sys2Proof/Laws/Ops.lean ====
section
/-!
SUPPORT. What each shared operation can do, said once: reads, writes, the strided write, and the ways a decode ends.
-/

namespace Sys2Proof.Machine

/-! ## Runs and outcomes -/

@[simp] theorem outcome_ok (s : State) : outcome (.ok s) = .next s := rfl
@[simp] theorem outcome_raised (r : Reason) (s : State) :
    outcome (.error (.raised r s)) = .next (s.endDecode (some r)) := rfl
@[simp] theorem outcome_stopped (f : Fault) : outcome (.error (.stopped f)) = .fault f := rfl
@[simp] theorem outcome_raise (r : Reason) (s : State) :
    outcome (raise r s : Run State) = .next (s.endDecode (some r)) := rfl
@[simp] theorem run_bind_ok {α β : Type} (a : α) (f : α → Run β) : ((Except.ok a : Run α) >>= f) = f a := rfl
@[simp] theorem run_bind_error {α β : Type} (e : Exit) (f : α → Run β) :
    ((Except.error e : Run α) >>= f) = .error e := rfl
@[simp] theorem run_bind_raise {α β : Type} (r : Reason) (s : State) (f : α → Run β) :
    ((raise r s : Run α) >>= f) = raise r s := rfl

/-- A run that is a bind succeeds through both of its parts. -/
theorem run_bind_eq_ok {α β : Type} {x : Run α} {f : α → Run β} {b : β} (h : (x >>= f) = .ok b) :
    ∃ a, x = .ok a ∧ f a = .ok b := by
  cases x with
  | ok a => exact ⟨a, rfl, h⟩
  | error e => cases h

/-- A run has a next state in two ways: its own result, or the end of the decode by an error. -/
theorem outcome_eq_next {x : Run State} {t : State} (h : outcome x = .next t) :
    x = .ok t ∨ ∃ r s, x = .error (.raised r s) ∧ t = s.endDecode (some r) := by
  rcases x with (⟨r, s⟩ | f) | s
  · exact .inr ⟨r, s, rfl, by cases h; rfl⟩
  · cases h
  · exact .inl (by cases h; rfl)

/-! ## Reads and writes -/

theorem State.load_eq {s : State} {sp : Space} {a n : Nat} (h : a + n ≤ s.size sp) :
    s.load sp a n = .ok ((List.range n).map fun k => s.peek sp (a + k)) := if_pos h

/-- A read that answers is inside the memory and answers its bytes. -/
theorem State.load_ok {s : State} {sp : Space} {a n : Nat} {bs : List Byte} (h : s.load sp a n = .ok bs) :
    a + n ≤ s.size sp ∧ bs = (List.range n).map fun k => s.peek sp (a + k) := by
  unfold State.load at h
  split at h
  · next hle => exact ⟨hle, by cases h; rfl⟩
  · cases h

theorem State.store_eq {s : State} {sp : Space} {a : Nat} {bs : List Byte} (h : a + bs.length ≤ s.size sp) :
    s.store sp a bs = .ok (s.setMem sp (Memory.write a bs (s.mem sp))) := if_pos h

/-- A write that answers is inside the memory and changes that memory alone. -/
theorem State.store_ok {s t : State} {sp : Space} {a : Nat} {bs : List Byte} (h : s.store sp a bs = .ok t) :
    a + bs.length ≤ s.size sp ∧ t = s.setMem sp (Memory.write a bs (s.mem sp)) := by
  unfold State.store at h
  split at h
  · next hle => exact ⟨hle, by cases h; rfl⟩
  · cases h

/-- What a byte reads as after a write that answers. -/
theorem State.peek_store {s t : State} {sp : Space} {a : Nat} {bs : List Byte} (h : s.store sp a bs = .ok t)
    (sp' : Space) (x : Nat) :
    t.peek sp' x = if sp' = sp ∧ a ≤ x ∧ x < a + bs.length then bs.getD (x - a) 0 else s.peek sp' x := by
  rw [(State.store_ok h).2, State.peek_setMem_write]

/-- A read or a write never raises an error of the decode. -/
theorem State.load_not_raised {s u : State} {sp : Space} {a n : Nat} {r : Reason} :
    s.load sp a n ≠ .error (.raised r u) := by
  unfold State.load; split <;> simp

theorem State.store_not_raised {s u : State} {sp : Space} {a : Nat} {bs : List Byte} {r : Reason} :
    s.store sp a bs ≠ .error (.raised r u) := by
  unfold State.store; split <;> simp

/-- The strided write inside the memory: that memory alone changes, to what the reference function's strided write
gives, and it keeps the canonical form and its bound. -/
theorem State.storeStrided_eq (sp : Space) (stride n : Nat) (rows : List (List Byte)) (hn : ∀ r ∈ rows, r.length = n) :
    ∀ (a : Nat) (s : State), (∀ i < rows.length, a + i * stride + n ≤ s.size sp) →
      ∃ m, State.storeStrided sp stride a rows s = .ok (s.setMem sp m) ∧
        (∀ x, (s.setMem sp m).peek sp x = Bytes.putStrided stride a rows (s.peek sp) x) ∧
        ((s.mem sp).wf → m.wf) ∧ ((∀ c ∈ s.mem sp, c.1 < s.size sp) → ∀ c ∈ m, c.1 < s.size sp) := by
  induction rows with
  | nil =>
    intro a s _
    exact ⟨s.mem sp, by simp [State.storeStrided], fun x => by simp [Bytes.putStrided], id, id⟩
  | cons r rows ih =>
    intro a s h
    have hr : r.length = n := hn r (by simp)
    have h0 : a + r.length ≤ s.size sp := by have := h 0 (by simp); omega
    obtain ⟨m, hm, hp, hw, hb⟩ := ih (fun r' hr' => hn r' (by simp [hr'])) (a + stride)
      (s.setMem sp (Memory.write a r (s.mem sp))) (fun i hi => by
        have := h (i + 1) (by simpa using hi)
        rw [State.size_setMem]
        have e : (i + 1) * stride = i * stride + stride := by ring
        omega)
    refine ⟨m, ?_, ?_, ?_, ?_⟩
    · simp only [State.storeStrided, State.store_eq h0, run_bind_ok, hm, State.setMem_setMem]
    · intro x
      rw [State.setMem_setMem] at hp
      rw [hp, Bytes.putStrided]
      congr 1
      funext y
      rw [State.peek_setMem_write]
      simp [Bytes.put]
    · intro hs
      refine hw ?_
      rw [State.mem_setMem_same]
      exact Memory.write_wf a r hs
    · intro hs
      have := hb (by
        rw [State.mem_setMem_same, State.size_setMem]
        exact Memory.write_below hs h0)
      simpa using this

/-! ## The ends of a decode -/

@[simp] theorem State.freeBytes_length (s : State) (n : Nat) : (s.freeBytes n).length = n := by
  simp [State.freeBytes]

/-- After OUT is drawn, its bytes below `cnt·es` are free draws, and the others are as before. -/
theorem State.peek_drawOut (s : State) (sp : Space) (x : Nat) :
    s.drawOut.peek sp x =
      if sp = .out ∧ x < s.openBytes then Config.freeByte (s.draws + x) else s.peek sp x := by
  have h : s.drawOut.peek sp x = (s.setMem .out (Memory.write 0 (s.freeBytes s.openBytes) (s.mem .out))).peek sp x := by
    cases sp <;> rfl
  rw [h, State.peek_setMem_write]
  by_cases hx : sp = .out ∧ x < s.openBytes
  · simp only [hx.1, hx.2, State.freeBytes, true_and, Nat.zero_le, Nat.zero_add, List.length_map, List.length_range,
      if_true, Nat.sub_zero]
    simp [List.getD, hx.2]
  · rw [if_neg hx, if_neg]
    rintro ⟨h1, -, h2⟩
    exact hx ⟨h1, by simpa using h2⟩

@[simp] theorem State.endDecode_st (r : Option Reason) (s : State) : (s.endDecode r).st = .idle := by
  unfold State.endDecode
  split
  · rfl
  · cases r <;> rfl

/-- Every end of a decode leaves one of R201's encodings in STATUS. -/
theorem State.endDecode_status (r : Option Reason) (s : State) : ∃ r' v, (s.endDecode r).status = Status.ended r' v := by
  unfold State.endDecode
  split
  · exact ⟨_, _, rfl⟩
  · cases r with
    | none => exact ⟨none, s.ver, rfl⟩
    | some r => exact ⟨_, _, State.endError_status r s⟩

theorem State.endDecode_of_obeyed {s : State} (h : s.spoiled = false) (r : Option Reason) :
    s.endDecode r = match r with | none => s.endOk | some r => s.endError r := by
  cases r <;> simp [State.endDecode, h]

/-- What no end of a decode changes. -/
theorem State.endDecode_frame (r : Option Reason) (s : State) :
    { s.endDecode r with
      status := s.status, errc := s.errc, errr := s.errr, inPos := s.inPos, elemDone := s.elemDone, st := s.st
      out := s.out, draws := s.draws } = s := by
  unfold State.endDecode
  split
  · rfl
  · cases r with
    | none => rfl
    | some r => dsimp only; unfold State.endError; split <;> rfl

/-- OUT after any end of a decode: it is as before, or its bytes below `cnt·es` are free draws. -/
theorem State.endDecode_out (r : Option Reason) (s : State) :
    (s.endDecode r).out = s.out ∨ (s.endDecode r).out = s.drawOut.out := by
  unfold State.endDecode
  split
  · exact .inr rfl
  · cases r with
    | none => exact .inl rfl
    | some r => dsimp only; unfold State.endError; split <;> simp

theorem State.drawOut_wf (s : State) (h : s.out.wf) : s.drawOut.out.wf := Memory.write_wf _ _ h

theorem State.drawOut_below (s : State) (h : ∀ c ∈ s.out, c.1 < s.params.outCap) :
    ∀ c ∈ s.drawOut.out, c.1 < s.params.outCap :=
  Memory.write_below h (by simp [State.openBytes])

end Sys2Proof.Machine
end

