-- ==== Sys2Proof/Laws/Canonical.lean ====
section
/-!
SUPPORT. The memories of a state are in canonical form and inside their sizes, and every operation on them keeps that.
-/

namespace Sys2Proof.Machine

/-- Every memory is in its canonical form and inside its size, and `IN_CAP` is legal: the part of the invariant that is
not about the stage. -/
structure MemoriesOk (s : State) : Prop where
  inCap : 33 ≤ s.params.inCap
  canonical : ∀ sp, (s.mem sp).wf
  within : ∀ sp, ∀ c ∈ s.mem sp, c.1 < s.size sp

theorem State.Inv.memoriesOk {s : State} (h : s.Inv) : MemoriesOk s := ⟨h.inCap, h.canonical, h.within⟩

theorem MemoriesOk.inv {s : State} (h : MemoriesOk s) (hs : s.StageOk) : s.Inv :=
  ⟨h.inCap, h.canonical, h.within, hs⟩

/-- Only the memories and the parameters matter. -/
theorem MemoriesOk.congr {s t : State} (h : MemoriesOk s) (hp : t.params = s.params)
    (hm : ∀ sp, t.mem sp = s.mem sp) : MemoriesOk t := by
  have hz : ∀ sp, t.size sp = s.size sp := fun sp => by cases sp <;> simp [State.size, hp]
  exact ⟨by rw [hp]; exact h.inCap, fun sp => by rw [hm]; exact h.canonical sp,
    fun sp => by rw [hm, hz]; exact h.within sp⟩

theorem MemoriesOk.setMem {s : State} (h : MemoriesOk s) {sp : Space} {m : Memory} (hm : m.wf)
    (hb : ∀ c ∈ m, c.1 < s.size sp) : MemoriesOk (s.setMem sp m) := by
  refine ⟨by simpa using h.inCap, fun sp' => ?_, fun sp' => ?_⟩
  · by_cases e : sp' = sp
    · subst e; simpa using hm
    · rw [State.mem_setMem_of_ne s _ e]; exact h.canonical sp'
  · by_cases e : sp' = sp
    · subst e; simpa using hb
    · rw [State.mem_setMem_of_ne s _ e]; simpa using h.within sp'

theorem MemoriesOk.write {s : State} (h : MemoriesOk s) {sp : Space} {a : Nat} {bs : List Byte}
    (hl : a + bs.length ≤ s.size sp) : MemoriesOk (s.setMem sp (Memory.write a bs (s.mem sp))) :=
  h.setMem (Memory.write_wf a bs (h.canonical sp)) (Memory.write_below (h.within sp) hl)

theorem MemoriesOk.store {s t : State} (h : MemoriesOk s) {sp : Space} {a : Nat} {bs : List Byte}
    (ht : s.store sp a bs = .ok t) : MemoriesOk t := by
  obtain ⟨hl, rfl⟩ := State.store_ok ht
  exact h.write hl

/-- Every end of a decode keeps it. -/
theorem MemoriesOk.endDecode {s : State} (h : MemoriesOk s) (r : Option Reason) : MemoriesOk (s.endDecode r) := by
  have hout : (s.endDecode r).out.wf ∧ ∀ c ∈ (s.endDecode r).out, c.1 < s.params.outCap := by
    rcases State.endDecode_out r s with e | e <;> rw [e]
    · exact ⟨h.canonical .out, h.within .out⟩
    · exact ⟨State.drawOut_wf s (h.canonical .out), State.drawOut_below s (h.within .out)⟩
  refine (h.setMem (sp := .out) (m := (s.endDecode r).out) hout.1 hout.2).congr (by simp) fun sp => ?_
  cases sp <;> simp [State.mem, State.setMem]

/-- A decode that ends leaves a state of the invariant. -/
theorem MemoriesOk.endDecode_inv {s : State} (h : MemoriesOk s) (r : Option Reason) : (s.endDecode r).Inv := by
  refine (h.endDecode r).inv ?_
  unfold State.StageOk
  rw [State.endDecode_st]
  exact .inr (State.endDecode_status r s)

end Sys2Proof.Machine
end

