-- ==== Sys2Proof/Laws/Group.lean ====
section
/-!
SUPPORT. What a group, a column and a residual source do, said once, against the reference function's groups and
columns: the cursor, the outputs, and that nothing else changes.
-/

namespace Sys2Proof.Machine

/-! ## The reference function's groups -/

theorem refFields_spec (inp : Bytes) (w p : Nat) (ts : List Nat) (e : Nat) :
    (refFields inp w p ts e).1.length = ts.length ∧
      e ≤ (refFields inp w p ts e).2 ∧ (refFields inp w p ts e).2 ≤ e + ts.length := by
  induction ts generalizing e with
  | nil => simp [refFields]
  | cons t ts ih =>
    have h1 := ih (e + 1)
    have h2 := ih e
    simp only [refFields, List.length_cons]
    split <;> simp only [List.length_cons] <;> omega

/-- A reference group has 16 values and consumes at most 24 bytes (R108). -/
theorem refGroup_spec (inp : Bytes) {w : Nat} (hw : w = 0 ∨ w = 1 ∨ w = 2 ∨ w = 4 ∨ w = 8) (p : Nat) :
    (refGroup inp w p).1.length = 16 ∧ p ≤ (refGroup inp w p).2 ∧ (refGroup inp w p).2 ≤ p + 24 := by
  have h := refFields_spec inp w p (List.range 16) (p + 2 * w)
  simp only [List.length_range] at h
  unfold refGroup
  rcases hw with rfl | rfl | rfl | rfl | rfl
  · simp
  · refine ⟨by simpa using h.1, ?_, ?_⟩ <;> simp at h ⊢ <;> omega
  · refine ⟨by simpa using h.1, ?_, ?_⟩ <;> simp at h ⊢ <;> omega
  · refine ⟨by simpa using h.1, ?_, ?_⟩ <;> simp at h ⊢ <;> omega
  · simp [Bytes.take]

/-- The reference loop over a column's groups, from cursors that each group leaves where the next starts and that each
leave 24 bytes: its values are the groups' outputs in order, its cursor the last (R120). -/
theorem refGroups_cursors (inp : Bytes) (len : Nat) (table : List Nat) (hp : Nat)
    (htable : ∀ k < 4, table.getD k 0 = 0 ∨ table.getD k 0 = 1 ∨ table.getD k 0 = 2 ∨ table.getD k 0 = 4 ∨
      table.getD k 0 = 8) (cur : Nat → Nat) (n : Nat) :
    let out := fun i => refGroup inp (table.getD (((inp (hp + i / 4)).toNat >>> (2 * (i % 4))) % 4) 0) (cur i)
    ∀ q, (∀ i, q ≤ i → i < q + n → cur i + 24 ≤ len ∧ (out i).2 = cur (i + 1)) →
      ∃ c, refGroups inp len table hp q n (cur q) = .ok (c, cur (q + n)) ∧ c.length = 16 * n ∧
        ∀ i < n, ∀ k < 16, c.getD (16 * i + k) 0 = (out (q + i)).1.getD k 0 := by
  intro out
  induction n with
  | zero => intro q _; exact ⟨[], rfl, rfl, by simp⟩
  | succ n ih =>
    intro q h
    have h0 := h q le_rfl (by omega)
    obtain ⟨c, hc, hl, hv⟩ := ih (q + 1) (fun i h1 h2 => h i (by omega) (by omega))
    have hspec : (out q).1.length = 16 := (refGroup_spec inp (htable _ (by omega)) (cur q)).1
    refine ⟨(out q).1 ++ c, ?_, by rw [List.length_append, hspec, hl]; omega, ?_⟩
    · simp only [refGroups]
      rw [if_neg (by omega)]
      change (refGroups inp len table hp (q + 1) n (out q).2 >>= fun r => .ok ((out q).1 ++ r.1, r.2)) = _
      rw [h0.2, hc, show q + 1 + n = q + (n + 1) by omega]
      rfl
    · intro i hi k hk
      cases i with
      | zero =>
        simp only [Nat.mul_zero, Nat.zero_add, Nat.add_zero, List.getD]
        rw [List.getElem?_append_left (by omega)]
      | succ i =>
        rw [← show q + 1 + i = q + (i + 1) by omega, ← hv i (by omega) k hk]
        simp only [List.getD]
        rw [List.getElem?_append_right (by omega), hspec, show 16 * (i + 1) + k - 16 = 16 * i + k by omega]

/-! ## The machine's groups -/

/-- The escapes of a group are read as the reference function reads them. -/
theorem takeEscapes_eq (s : State) (w p : Nat) (region : List Byte) (ts : List Nat) (e : Nat)
    (hr : ∀ t ∈ ts, packedField w region t =
      ((s.peek .inp (p + t * w / 8)).toNat >>> (8 - w - t * w % 8)) &&& sentinel w)
    (he : e + ts.length ≤ s.params.inCap) :
    takeEscapes s w (ts.map (packedField w region)) e = .ok (refFields (s.peek .inp) w p ts e) := by
  induction ts generalizing e with
  | nil => rfl
  | cons t ts ih =>
    have ht := hr t (by simp)
    have hts : ∀ t ∈ ts, packedField w region t =
        ((s.peek .inp (p + t * w / 8)).toNat >>> (8 - w - t * w % 8)) &&& sentinel w :=
      fun x hx => hr x (by simp [hx])
    simp only [List.length_cons] at he
    simp only [List.map_cons, takeEscapes, refFields, ht]
    split
    · rw [State.load_eq (by simpa using by omega), run_bind_ok, ih (e + 1) hts (by omega)]
      rfl
    · rw [ih e hts (by omega)]
      rfl

/-- What a group does where 24 bytes are left: the reference group's 16 values in the latch, its cursor, and nothing else
(R100). -/
theorem group_eq (s : State) {w : Nat} (hw : w = 0 ∨ w = 1 ∨ w = 2 ∨ w = 4 ∨ w = 8)
    (h : s.pos.toNat + 24 ≤ s.params.inCap) :
    group w s = .ok
      { s with
        grp := Memory.write 0 (refGroup (s.peek .inp) w s.pos.toNat).1 s.grp
        pos := BitVec.ofNat 32 (refGroup (s.peek .inp) w s.pos.toNat).2 } := by
  have hres : ∀ (v : List Byte) (p : Nat), v.length = 16 →
      groupResult v p s = .ok { s with grp := Memory.write 0 v s.grp, pos := BitVec.ofNat 32 p } := by
    intro v p hv
    unfold groupResult
    rw [State.store_eq (by simp [hv])]
    rfl
  have hunpack : ∀ w, (w = 1 ∨ w = 2 ∨ w = 4) → unpackGroup w s = .ok
      { s with
        grp := Memory.write 0 (refFields (s.peek .inp) w s.pos.toNat (List.range 16) (s.pos.toNat + 2 * w)).1 s.grp
        pos := BitVec.ofNat 32 (refFields (s.peek .inp) w s.pos.toNat (List.range 16) (s.pos.toNat + 2 * w)).2 } := by
    intro w hw
    simp only [unpackGroup]
    rw [State.load_eq (by rw [State.size_inp]; omega), run_bind_ok,
      show groupSize = 16 from rfl,
      takeEscapes_eq s w s.pos.toNat _ (List.range 16) _ ?_ (by simp only [List.length_range]; omega), run_bind_ok]
    · exact hres _ _ (by simpa using (refFields_spec (s.peek .inp) w s.pos.toNat (List.range 16) _).1)
    · intro t ht
      have ht : t < 16 := by simpa using ht
      have hlt : t * w / 8 < 2 * w := by
        rcases hw with rfl | rfl | rfl <;> omega
      unfold packedField
      simp [List.getD, hlt]
  rcases hw with rfl | rfl | rfl | rfl | rfl
  · simp only [group, zeroGroup, refGroup, if_true]
    exact hres _ _ (by simp [groupSize])
  · exact (hunpack 1 (by simp))
  · exact (hunpack 2 (by simp))
  · exact (hunpack 4 (by simp))
  · show literalGroup s = _
    simp only [literalGroup, refGroup, Bytes.take]
    rw [State.load_eq (by rw [State.size_inp]; simp only [groupSize]; omega), run_bind_ok]
    exact hres _ _ (by simp [groupSize])

/-! ## Columns -/

/-- The width table of a selector format (R81). -/
def widthsOf : Format → List Nat
  | .wselV0 => [0, 2, 4, 8]
  | .wselV1C0 => [0, 1, 2, 4]
  | .wselV1C1 => [1, 2, 4, 8]
  | _ => []

/-- The formats of width selectors. -/
def isWidthFormat : Format → Bool
  | .wselV0 | .wselV1C0 | .wselV1C1 => true
  | _ => false

theorem field2_toNat (b : Byte) (k : Nat) : (field2 b k).toNat = (b.toNat >>> (2 * k)) % 4 := by
  unfold field2
  rw [BitVec.toNat_and, BitVec.toNat_ushiftRight]
  exact Nat.and_two_pow_sub_one_eq_mod _ 2

theorem twoBit_cases {b : Byte} (h : b.toNat < 4) : b = 0 ∨ b = 1 ∨ b = 2 ∨ b = 3 := by
  rcases Nat.lt_or_ge b.toNat 1 with h1 | h1
  · left; apply BitVec.eq_of_toNat_eq; simp; omega
  · rcases Nat.lt_or_ge b.toNat 2 with h2 | h2
    · right; left; apply BitVec.eq_of_toNat_eq; simp; omega
    · rcases Nat.lt_or_ge b.toNat 3 with h3 | h3
      · right; right; left; apply BitVec.eq_of_toNat_eq; simp; omega
      · right; right; right; apply BitVec.eq_of_toNat_eq; simp; omega

/-- A selector's row is the group of its table's width (R81, R124). -/
theorem fetchUnit_group {f : Format} (hf : isWidthFormat f = true) {b : Byte} (hb : b.toNat < 4) :
    ∃ i, decode f b = .ok i ∧ fetchUnit f b = .ok i ∧ ∀ s, runGroup i s = group ((widthsOf f).getD b.toNat 0) s := by
  rcases twoBit_cases hb with rfl | rfl | rfl | rfl <;> cases f <;> first
    | (exfalso; simp [isWidthFormat] at hf; done)
    | exact ⟨_, rfl, rfl, fun _ => rfl⟩

theorem widthsOf_legal {f : Format} (hf : isWidthFormat f = true) {k : Nat} (hk : k < 4) :
    (widthsOf f).getD k 0 = 0 ∨ (widthsOf f).getD k 0 = 1 ∨ (widthsOf f).getD k 0 = 2 ∨ (widthsOf f).getD k 0 = 4 ∨
      (widthsOf f).getD k 0 = 8 := by
  rcases k with _ | _ | _ | _ | k
  all_goals first
    | omega
    | (cases f <;> first | (exfalso; simp [isWidthFormat] at hf; done) | decide)

/-- The latch written by some groups: its canonical form, its bound and every byte beyond its 16 are kept. -/
def LatchKept (m m' : Memory) : Prop :=
  (m.wf → m'.wf) ∧ ((∀ c ∈ m, c.1 < 16) → ∀ c ∈ m', c.1 < 16) ∧
    ∀ a, 16 ≤ a → Memory.lookup a m' = Memory.lookup a m

theorem LatchKept.refl (m : Memory) : LatchKept m m := ⟨id, id, fun _ _ => rfl⟩

theorem LatchKept.write {m m' : Memory} {v : List Byte} (hv : v.length = 16) (h : LatchKept (Memory.write 0 v m) m') :
    LatchKept m m' :=
  ⟨fun hm => h.1 (Memory.write_wf 0 v hm), fun hm => h.2.1 (Memory.write_below hm (by omega)),
    fun a ha => by rw [h.2.2 a ha, Memory.lookup_write, if_neg (by omega)]⟩

/-- What the groups of a column do, against the reference function's loop: its values and cursor, or its error with the
cursor of the failing check; but for the latch, nothing else changes (R120, R123). -/
theorem columnGroups_eq {f : Format} (hf : isWidthFormat f = true) (hp : Nat) (header : List Byte) (s₀ : State)
    (hcap : s₀.len.toNat ≤ s₀.params.inCap) (n : Nat) :
    ∀ (q : Nat) (s : State), (∃ m p, s = { s₀ with grp := m, pos := p }) →
      (∀ k, q / 4 ≤ k → k ≤ (q + n - 1) / 4 → header.getD k 0 = s₀.peek .inp (hp + k)) →
      (match refGroups (s₀.peek .inp) s₀.len.toNat (widthsOf f) hp q n s.pos.toNat with
        | .ok (c, p) => c.length = 16 * n ∧ s.pos.toNat ≤ p ∧ p ≤ s.pos.toNat + 24 * n ∧
            (n ≠ 0 → p ≤ s.len.toNat) ∧
            ∃ m, LatchKept s.grp m ∧
              columnGroups f header q n s = .ok (c, { s with grp := m, pos := BitVec.ofNat 32 p })
        | .error (r, p) => r = .truncGroup ∧ s.pos.toNat ≤ p ∧ (s.pos.toNat ≤ s.len.toNat → p ≤ s.len.toNat) ∧
            ∃ m, LatchKept s.grp m ∧
            columnGroups f header q n s = .error (.raised r { s with grp := m, pos := BitVec.ofNat 32 p })) := by
  induction n with
  | zero =>
    rintro q s ⟨m, p, rfl⟩ _
    simp only [refGroups, columnGroups]
    refine ⟨by simp, le_rfl, by simp, by simp, m, LatchKept.refl m, ?_⟩
    simp
  | succ n ih =>
    rintro q s ⟨m, p, rfl⟩ hh
    simp only [refGroups, columnGroups, groupDecodeLimit]
    by_cases hlt : s₀.len.toNat < p.toNat + 24
    · simp only [hlt, if_true]
      refine ⟨trivial, le_rfl, fun h => h, m, LatchKept.refl m, ?_⟩
      simp [raise]
    · simp only [hlt, if_false]
      have hsel : (selector header q).toNat = ((s₀.peek .inp (hp + q / 4)).toNat >>> (2 * (q % 4))) % 4 := by
        rw [selector, field2_toNat, hh (q / 4) le_rfl (by omega)]
      obtain ⟨i, -, hi, hrun⟩ := fetchUnit_group hf (b := selector header q) (by rw [hsel]; omega)
      have hw := widthsOf_legal hf (k := (selector header q).toNat) (by rw [hsel]; omega)
      rw [hi, run_bind_ok, hrun, group_eq _ hw (by simp only; omega), run_bind_ok]
      rw [← hsel]
      have hpk : ({ s₀ with grp := m, pos := p } : State).peek .inp = s₀.peek .inp := rfl
      rw [hpk]
      obtain ⟨hv, hp1, hp2⟩ := refGroup_spec (s₀.peek .inp) hw p.toNat
      generalize refGroup (s₀.peek .inp) ((widthsOf f).getD (selector header q).toNat 0) p.toNat = gv at hv hp1 hp2
      obtain ⟨v, p'⟩ := gv
      simp only at hv hp1 hp2 ⊢
      have hp' : (BitVec.ofNat 32 p').toNat = p' := by
        rw [BitVec.toNat_ofNat, Nat.mod_eq_of_lt]
        have := s₀.len.isLt
        omega
      have hload : ({ s₀ with grp := Memory.write 0 v m, pos := BitVec.ofNat 32 p' } : State).load .grp 0 groupSize =
          .ok v := by
        rw [State.load_eq (by simp [groupSize])]
        congr 1
        apply List.ext_getElem (by simp [hv, groupSize])
        intro k h1 h2
        have := State.peek_setMem_write { s₀ with grp := m, pos := BitVec.ofNat 32 p' } .grp .grp 0 (0 + k) v
        simp only [State.setMem, State.mem_grp] at this
        simp only [List.getElem_map, List.getElem_range, this]
        simp [h2]
      rw [hload, run_bind_ok]
      have := ih (q + 1) { s₀ with grp := Memory.write 0 v m, pos := BitVec.ofNat 32 p' } ⟨_, _, rfl⟩
        (fun k h1 h2 => hh k (by omega) (by omega))
      simp only [hp'] at this
      rcases hrec : refGroups (s₀.peek .inp) s₀.len.toNat (widthsOf f) hp (q + 1) n p' with ⟨r, pe⟩ | ⟨c, pc⟩
      · rw [hrec] at this
        obtain ⟨hr, h1, h1', m', hm', h2⟩ := this
        rw [h2]
        exact ⟨hr, by omega, by omega, m', LatchKept.write hv hm', rfl⟩
      · rw [hrec] at this
        obtain ⟨hc, h1, h2, h3, m', hm', h4⟩ := this
        rw [h4]
        refine ⟨by simp [hv, hc]; omega, by omega, by omega, ?_, m', LatchKept.write hv hm', rfl⟩
        intro _
        by_cases hn : n = 0
        · omega
        · exact h3 hn

end Sys2Proof.Machine
end

