-- ==== Sys2Proof/Laws/Source.lean ====
section
/-!
SUPPORT. What a column and each residual source do, said once: a column and a packed source against the reference
function's column, a zero and a literal source by their own writes.
-/

namespace Sys2Proof.Machine

/-- What a column does where `IN[0..len)` lies in the input memory: the reference column's values and cursor, or its
error in the state of the failing check; but for the latch and the cursor, nothing changes (R120 to R124). -/
theorem column_eq {f : Format} (hf : isWidthFormat f) (n : Nat) (s : State) (hcap : s.len.toNat ≤ s.params.inCap) :
    match refColumn (s.peek .inp) s.len.toNat (widthsOf f) s.pos.toNat n with
    | .ok (c, p) => c.length = n ∧ s.pos.toNat ≤ p ∧ p ≤ s.pos.toNat + (n + 63) / 64 + 24 * (n / 16) ∧
        (s.pos.toNat ≤ s.len.toNat → p ≤ s.len.toNat) ∧
        ∃ m, LatchKept s.grp m ∧ column f n s = .ok (c, { s with grp := m, pos := BitVec.ofNat 32 p })
    | .error (r, p) => s.pos.toNat ≤ p ∧ (s.pos.toNat ≤ s.len.toNat → p ≤ s.len.toNat) ∧
        ∃ m, LatchKept s.grp m ∧ column f n s = .error (.raised r { s with grp := m, pos := BitVec.ofNat 32 p }) := by
  unfold refColumn column
  by_cases h16 : n % 16 = 0
  · have hsize : ceilDiv (n / 16) 4 = (n + 63) / 64 := by
      simp only [ceilDiv]; omega
    simp only [groupSize, hsize, h16, ne_eq, not_true_eq_false, if_false]
    by_cases hlen : s.len.toNat < s.pos.toNat + (n + 63) / 64
    · simp only [hlen, if_true]
      exact ⟨le_rfl, fun h => h, s.grp, LatchKept.refl _, by simp [raise]⟩
    · simp only [hlen, if_false]
      rw [State.load_eq (by rw [State.size_inp]; omega), run_bind_ok]
      have hpos : (BitVec.ofNat 32 (s.pos.toNat + (n + 63) / 64)).toNat = s.pos.toNat + (n + 63) / 64 := by
        rw [BitVec.toNat_ofNat, Nat.mod_eq_of_lt]
        have := s.len.isLt
        omega
      by_cases h0 : n = 0
      · subst h0
        simp [refGroups, columnGroups]
        exact LatchKept.refl _
      · have h := columnGroups_eq hf s.pos.toNat
          ((List.range ((n + 63) / 64)).map fun k => s.peek .inp (s.pos.toNat + k)) s hcap (n / 16) 0
          { s with pos := BitVec.ofNat 32 (s.pos.toNat + (n + 63) / 64) } ⟨s.grp, _, rfl⟩
          (fun k _ h2 => by
            have hk : k < (n + 63) / 64 := by omega
            simp [List.getD, hk])
        simp only [hpos] at h
        rcases hr : refGroups (s.peek .inp) s.len.toNat (widthsOf f) s.pos.toNat 0 (n / 16)
          (s.pos.toNat + (n + 63) / 64) with ⟨r, p⟩ | ⟨c, p⟩
        · rw [hr] at h
          obtain ⟨rfl, h1, h2, m, hm, h3⟩ := h
          exact ⟨by omega, by omega, m, hm, h3⟩
        · rw [hr] at h
          obtain ⟨h1, h2, h3, h4, m, hm, h5⟩ := h
          exact ⟨by omega, by omega, by omega, by omega, m, hm, h5⟩
  · simp only [groupSize, h16, ne_eq, not_false_eq_true, if_true]
    exact ⟨le_rfl, fun h => h, s.grp, LatchKept.refl _, by simp [raise]⟩

/-- The state after a source: the plane's bytes in RES, the latch and the cursor. -/
def afterSource (s : State) (bs : List Byte) (m : Memory) (p : Nat) : State :=
  { s with res := Memory.write s.planeBase bs s.res, grp := m, pos := BitVec.ofNat 32 p }

/-- What a packed source does: its column's values in the plane's place, or the column's error with RES as it was. -/
theorem packedSource_eq {f : Format} (hf : isWidthFormat f) (s : State) (hcap : s.len.toNat ≤ s.params.inCap)
    (hfit : s.planeBase + s.blkAligned.toNat ≤ 1024) :
    match refColumn (s.peek .inp) s.len.toNat (widthsOf f) s.pos.toNat s.blkAligned.toNat with
    | .ok (c, p) => c.length = s.blkAligned.toNat ∧ s.pos.toNat ≤ p ∧
        p ≤ s.pos.toNat + (s.blkAligned.toNat + 63) / 64 + 24 * (s.blkAligned.toNat / 16) ∧
        (s.pos.toNat ≤ s.len.toNat → p ≤ s.len.toNat) ∧
        ∃ m, LatchKept s.grp m ∧ packedSource f s = .ok (afterSource s c m p)
    | .error (r, p) => s.pos.toNat ≤ p ∧ (s.pos.toNat ≤ s.len.toNat → p ≤ s.len.toNat) ∧
        ∃ m, LatchKept s.grp m ∧ packedSource f s = .error (.raised r { s with grp := m, pos := BitVec.ofNat 32 p }) := by
  have h := column_eq hf s.blkAligned.toNat s hcap
  unfold packedSource
  rcases hr : refColumn (s.peek .inp) s.len.toNat (widthsOf f) s.pos.toNat s.blkAligned.toNat with ⟨r, p⟩ | ⟨c, p⟩
  · rw [hr] at h
    obtain ⟨h1, h2, m, hm, h3⟩ := h
    exact ⟨h1, h2, m, hm, by rw [h3]; rfl⟩
  · rw [hr] at h
    obtain ⟨h1, h2, h3, h4, m, hm, h5⟩ := h
    refine ⟨h1, h2, h3, h4, m, hm, ?_⟩
    rw [h5, run_bind_ok]
    simp only
    rw [State.store_eq (by rw [h1]; exact hfit)]
    rfl

/-- What SRC_ZERO does (R130). -/
theorem srcZero_eq (s : State) (hfit : s.planeBase + s.blk.toNat ≤ 1024) :
    srcZero s = .ok { s with res := Memory.write s.planeBase (List.replicate s.blk.toNat 0) s.res } := by
  unfold srcZero
  rw [State.store_eq (by simpa using hfit)]
  rfl

/-- What SRC_LITERAL does where its bytes are left (R131). -/
theorem srcLiteral_eq (s : State) (hfit : s.planeBase + s.blk.toNat ≤ 1024) (hcap : s.len.toNat ≤ s.params.inCap)
    (h : s.pos.toNat + s.blk.toNat ≤ s.len.toNat) :
    srcLiteral s = .ok
      { s with
        res := Memory.write s.planeBase (Bytes.take (s.peek .inp) s.pos.toNat s.blk.toNat) s.res
        pos := BitVec.ofNat 32 (s.pos.toNat + s.blk.toNat) } := by
  unfold srcLiteral
  rw [if_neg (by omega), State.load_eq (by rw [State.size_inp]; omega), run_bind_ok,
    State.store_eq (by simpa using hfit)]
  rfl

/-- Where SRC_LITERAL's bytes are not left, it raises TRUNC_LITERAL and changes nothing (R131). -/
theorem srcLiteral_short (s : State) (h : s.len.toNat < s.pos.toNat + s.blk.toNat) :
    srcLiteral s = raise .truncLiteral s := by
  unfold srcLiteral
  exact if_pos h

/-- A write of the plane leaves the other bytes of RES. -/
theorem peek_afterSource (s : State) (bs : List Byte) (m : Memory) (p x : Nat) :
    (afterSource s bs m p).peek .res x =
      if s.planeBase ≤ x ∧ x < s.planeBase + bs.length then bs.getD (x - s.planeBase) 0 else s.peek .res x := by
  have h : (afterSource s bs m p).peek .res x = (s.setMem .res (Memory.write s.planeBase bs (s.mem .res))).peek .res x := rfl
  rw [h, State.peek_setMem_write]
  simp

end Sys2Proof.Machine
end

