-- ==== Sys2Proof/Laws/Delta.lean ====
section
/-!
SUPPORT. What a lane of the delta does, said once, against the reference function's lane: TR alone changes, to the
lane's strided output.
-/

namespace Sys2Proof.Machine

@[simp] theorem chain_length {α : Type} (f : α → α → α) (p : α) (rs : List α) : (chain f p rs).length = rs.length := by
  induction rs generalizing p with
  | nil => rfl
  | cons r rs ih => simp [chain, ih]

@[simp] theorem laneBytes_length {w : Nat} (n : Nat) (v : BitVec w) : (laneBytes n v).length = n := by
  simp [laneBytes]

/-- The values of a lane, as the reference function computes them from RES and LAST (R143, R150). -/
def laneValues {w : Nat} (n k : Nat) (f : BitVec w → BitVec w → BitVec w) (s : State) : List (BitVec w) :=
  chain f (laneWord w (Bytes.take (s.peek .last) (s.g.toNat + k) n))
    ((List.range s.blk.toNat).map fun i =>
      laneWord w ((List.range n).map fun x => s.peek .res ((k + x) * s.blk.toNat + i)))

@[simp] theorem laneValues_length {w : Nat} (n k : Nat) (f : BitVec w → BitVec w → BitVec w) (s : State) :
    (laneValues n k f s).length = s.blk.toNat := by
  simp [laneValues]

/-- What a lane does where the block fits: TR changes, alone, to the strided write of the lane's values, and stays in
canonical form and inside its size (R143, R150, R151). -/
theorem deltaLane_eq {w : Nat} (n k : Nat) (f : BitVec w → BitVec w → BitVec w) (s : State)
    (hk : k + n ≤ 4) (hfit : DeltaFits s) :
    ∃ m, deltaLane n k f s = .ok { s with tr := m } ∧
      (∀ x, ({ s with tr := m } : State).peek .tr x =
        Bytes.putStrided s.es.toNat (s.g.toNat + k) ((laneValues n k f s).map (laneBytes n)) (s.peek .tr) x) ∧
      (s.tr.wf → m.wf) ∧ ((∀ c ∈ s.tr, c.1 < 8192) → ∀ c ∈ m, c.1 < 8192) := by
  obtain ⟨hb, hg, he, ht⟩ := hfit
  have hwords : ((List.range s.blk.toNat).map fun i => laneWord w
        (laneOf ((List.range (4 * s.blk.toNat)).map fun x => s.peek .res (0 + x)) s.blk.toNat k n i)) =
      (List.range s.blk.toNat).map fun i =>
        laneWord w ((List.range n).map fun x => s.peek .res ((k + x) * s.blk.toNat + i)) := by
    apply List.map_congr_left
    intro i hi
    unfold laneOf
    congr 1
    apply List.map_congr_left
    intro x hx
    have hi : i < s.blk.toNat := by simpa using hi
    have hx : x < n := by simpa using hx
    have : (k + x) * s.blk.toNat + i < 4 * s.blk.toNat := by
      have : (k + x + 1) * s.blk.toNat ≤ 4 * s.blk.toNat := Nat.mul_le_mul_right _ (by omega)
      have e : (k + x + 1) * s.blk.toNat = (k + x) * s.blk.toNat + s.blk.toNat := by ring
      omega
    simp [List.getD, this]
  have hrows : ((laneValues n k f s).map (laneBytes n)).length = s.blk.toNat := by simp
  obtain ⟨m, hm, hp, hw, hbd⟩ := State.storeStrided_eq .tr s.es.toNat n ((laneValues n k f s).map (laneBytes n))
    (fun r hr => by obtain ⟨v, -, rfl⟩ := List.mem_map.mp hr; simp) (s.g.toNat + k) s (fun i hi => by
      rw [hrows] at hi
      rw [State.size_tr]
      have : (i + 1) * s.es.toNat ≤ s.blk.toNat * s.es.toNat := Nat.mul_le_mul_right _ (by omega)
      have e : (i + 1) * s.es.toNat = i * s.es.toNat + s.es.toNat := by ring
      omega)
  refine ⟨m, ?_, hp, hw, hbd⟩
  simp only [deltaLane]
  rw [State.load_eq (by rw [State.size_res]; omega), run_bind_ok, State.load_eq (by rw [State.size_last]; omega),
    run_bind_ok, hwords]
  exact hm

/-- Which byte a strided write leaves at an offset outside its rows: the byte before. -/
theorem Bytes.putStrided_of_outside (stride n : Nat) (rows : List (List Byte)) (hn : ∀ r ∈ rows, r.length = n) :
    ∀ (a : Nat) (m : Bytes) (x : Nat), (∀ i < rows.length, ¬ (a + i * stride ≤ x ∧ x < a + i * stride + n)) →
      Bytes.putStrided stride a rows m x = m x := by
  induction rows with
  | nil => intros; rfl
  | cons r rows ih =>
    intro a m x h
    rw [Bytes.putStrided, ih (fun r' hr' => hn r' (by simp [hr'])) _ _ _ (fun i hi => by
      have := h (i + 1) (by simpa using hi)
      have e : (i + 1) * stride = i * stride + stride := by ring
      omega)]
    have := h 0 (by simp)
    simp only [Bytes.put, hn r (by simp)]
    rw [if_neg (by omega)]

/-- Which byte a strided write leaves in row `i`, where the rows do not overlap. -/
theorem Bytes.putStrided_of_inside (stride n : Nat) (hs : n ≤ stride) (rows : List (List Byte))
    (hn : ∀ r ∈ rows, r.length = n) :
    ∀ (a : Nat) (m : Bytes) (i k : Nat), i < rows.length → k < n →
      Bytes.putStrided stride a rows m (a + i * stride + k) = (rows.getD i []).getD k 0 := by
  induction rows with
  | nil => intro a m i k hi; simp at hi
  | cons r rows ih =>
    intro a m i k hi hk
    have hr : r.length = n := hn r (by simp)
    cases i with
    | zero =>
      rw [Bytes.putStrided, Bytes.putStrided_of_outside stride n rows (fun r' hr' => hn r' (by simp [hr']))]
      · simp only [Bytes.put, hr]
        rw [if_pos (by omega)]
        simp
      · intro i _
        have : 0 ≤ i * stride := Nat.zero_le _
        omega
    | succ i =>
      have e : a + (i + 1) * stride + k = a + stride + i * stride + k := by ring
      rw [Bytes.putStrided, e, ih (fun r' hr' => hn r' (by simp [hr'])) _ _ _ _ (by simpa using hi) hk]
      simp

/-- Each value of a lane comes from its residual and the value before it. -/
theorem chain_getD {α : Type} (f : α → α → α) (d : α) (rs : List α) (p : α) (i : Nat) (h : i < rs.length) :
    (chain f p rs).getD i d = f (rs.getD i d) (if i = 0 then p else (chain f p rs).getD (i - 1) d) := by
  induction rs generalizing p i with
  | nil => simp at h
  | cons r rs ih =>
    cases i with
    | zero => simp [chain]
    | succ i =>
      have hi : i < rs.length := by simpa using h
      simp only [chain, List.getD_cons_succ, Nat.add_one_ne_zero, if_false, Nat.add_sub_cancel]
      rw [ih (f r p) i hi]
      cases i with
      | zero => simp
      | succ i => simp

/-- Each lane value comes from its residual word and the value before it, the first from the seed (R143, R150). -/
theorem laneValues_getD {w : Nat} (n k : Nat) (f : BitVec w → BitVec w → BitVec w) (s : State) (e : Nat)
    (he : e < s.blk.toNat) :
    (laneValues n k f s).getD e 0 =
      f (laneWord w ((List.range n).map fun x => s.peek .res ((k + x) * s.blk.toNat + e)))
        (if e = 0 then laneWord w (Bytes.take (s.peek .last) (s.g.toNat + k) n)
          else (laneValues n k f s).getD (e - 1) 0) := by
  unfold laneValues
  rw [chain_getD _ _ _ _ _ (by simpa using he)]
  congr 1
  simp [List.getD, he]

/-- A lane, byte by byte: its bytes of TR are those of its values, every other byte of TR and everything else is as
before (R151). -/
theorem deltaLane_peek {w : Nat} (n k : Nat) (f : BitVec w → BitVec w → BitVec w) (s : State)
    (hk : k + n ≤ 4) (hfit : DeltaFits s) :
    ∃ m, deltaLane n k f s = .ok { s with tr := m } ∧
      (∀ e < s.blk.toNat, ∀ x < n, ({ s with tr := m } : State).peek .tr (e * s.es.toNat + s.g.toNat + k + x) =
        (laneBytes n ((laneValues n k f s).getD e 0)).getD x 0) ∧
      (∀ a, (∀ e < s.blk.toNat, ∀ x < n, a ≠ e * s.es.toNat + s.g.toNat + k + x) →
        ({ s with tr := m } : State).peek .tr a = s.peek .tr a) := by
  obtain ⟨m, hm, hp, -, -⟩ := deltaLane_eq n k f s hk hfit
  have hrows : ∀ r ∈ (laneValues n k f s).map (laneBytes n), r.length = n := by
    intro r hr
    obtain ⟨v, -, rfl⟩ := List.mem_map.mp hr
    simp
  refine ⟨m, hm, fun e he x hx => ?_, fun a ha => ?_⟩
  · have hg := hfit.group
    rw [hp, show e * s.es.toNat + s.g.toNat + k + x = s.g.toNat + k + e * s.es.toNat + x by ring,
      Bytes.putStrided_of_inside s.es.toNat n (by omega) _ hrows _ _ _ _ (by simpa using he) hx]
    simp [List.getD, he]
  · rw [hp, Bytes.putStrided_of_outside s.es.toNat n _ hrows]
    intro i hi hx
    have hi : i < s.blk.toNat := by simpa using hi
    exact ha i hi (a - (s.g.toNat + k + i * s.es.toNat)) (by omega) (by omega)

end Sys2Proof.Machine
end

