-- ==== Sys2Proof/Laws/PerInstr.lean ====
section
/-!
SUPPORT. The per-instruction family EncodedField: every row's field value lies inside the bits its format gives it.
-/

namespace Sys2Proof.Laws

/-- The encoded field value of an instruction has no bit above its format's field (R94). -/
def EncodedField.Statement (i : Instr) : Prop := (encode i).2.toNat < 2 ^ (encode i).1.bits

theorem EncodedField.hdrV0 : EncodedField.Statement .hdrV0 := by unfold EncodedField.Statement; decide
theorem EncodedField.hdrV1 : EncodedField.Statement .hdrV1 := by unfold EncodedField.Statement; decide
theorem EncodedField.hdrBadVersion (x : BitVec 4) : EncodedField.Statement (.hdrBadVersion x) := BitVec.isLt _
theorem EncodedField.hdrBadMagic (x : Byte) : EncodedField.Statement (.hdrBadMagic x) := BitVec.isLt _
theorem EncodedField.grpW0V0 : EncodedField.Statement .grpW0V0 := by unfold EncodedField.Statement; decide
theorem EncodedField.grpW2V0 : EncodedField.Statement .grpW2V0 := by unfold EncodedField.Statement; decide
theorem EncodedField.grpW4V0 : EncodedField.Statement .grpW4V0 := by unfold EncodedField.Statement; decide
theorem EncodedField.grpW8V0 : EncodedField.Statement .grpW8V0 := by unfold EncodedField.Statement; decide
theorem EncodedField.grpW0C0 : EncodedField.Statement .grpW0C0 := by unfold EncodedField.Statement; decide
theorem EncodedField.grpW1C0 : EncodedField.Statement .grpW1C0 := by unfold EncodedField.Statement; decide
theorem EncodedField.grpW2C0 : EncodedField.Statement .grpW2C0 := by unfold EncodedField.Statement; decide
theorem EncodedField.grpW4C0 : EncodedField.Statement .grpW4C0 := by unfold EncodedField.Statement; decide
theorem EncodedField.grpW1C1 : EncodedField.Statement .grpW1C1 := by unfold EncodedField.Statement; decide
theorem EncodedField.grpW2C1 : EncodedField.Statement .grpW2C1 := by unfold EncodedField.Statement; decide
theorem EncodedField.grpW4C1 : EncodedField.Statement .grpW4C1 := by unfold EncodedField.Statement; decide
theorem EncodedField.grpW8C1 : EncodedField.Statement .grpW8C1 := by unfold EncodedField.Statement; decide
theorem EncodedField.srcPacked0 : EncodedField.Statement .srcPacked0 := by unfold EncodedField.Statement; decide
theorem EncodedField.srcPacked1 : EncodedField.Statement .srcPacked1 := by unfold EncodedField.Statement; decide
theorem EncodedField.srcZero : EncodedField.Statement .srcZero := by unfold EncodedField.Statement; decide
theorem EncodedField.srcLiteral : EncodedField.Statement .srcLiteral := by unfold EncodedField.Statement; decide
theorem EncodedField.srcPackedV0 : EncodedField.Statement .srcPackedV0 := by unfold EncodedField.Statement; decide
theorem EncodedField.deltaZz8 (x : BitVec 6) : EncodedField.Statement (.deltaZz8 x) := BitVec.isLt _
theorem EncodedField.deltaZz16 (x : BitVec 6) : EncodedField.Statement (.deltaZz16 x) := BitVec.isLt _
theorem EncodedField.deltaRxor32 (x : BitVec 6) : EncodedField.Statement (.deltaRxor32 x) := BitVec.isLt _
theorem EncodedField.chanBad (x : BitVec 6) : EncodedField.Statement (.chanBad x) := BitVec.isLt _
theorem EncodedField.deltaZz8V0 : EncodedField.Statement .deltaZz8V0 := by unfold EncodedField.Statement; decide
theorem EncodedField.start : EncodedField.Statement .start := by unfold EncodedField.Statement; decide
theorem EncodedField.hdr : EncodedField.Statement .hdr := by unfold EncodedField.Statement; decide
theorem EncodedField.tail : EncodedField.Statement .tail := by unfold EncodedField.Statement; decide
theorem EncodedField.blk : EncodedField.Statement .blk := by unfold EncodedField.Statement; decide
theorem EncodedField.plane : EncodedField.Statement .plane := by unfold EncodedField.Statement; decide
theorem EncodedField.delta : EncodedField.Statement .delta := by unfold EncodedField.Statement; decide
theorem EncodedField.commit : EncodedField.Statement .commit := by unfold EncodedField.Statement; decide
theorem EncodedField.final : EncodedField.Statement .final := by unfold EncodedField.Statement; decide

end Sys2Proof.Laws
end

