-- ==== Sys2Proof/Tests/Slice0.lean ====
section
/-!
SUPPORT. Tests on small states, with results taken from spec/95_test_vectors.md (the vector is named in each docstring)
or written out from an encoding table; and, for each statement with hypotheses, a state and operands that meet them.
-/

namespace Sys2Proof.Tests

open Sys2Proof Sys2Proof.Machine

/-! ## Helpers -/

/-- A machine with known parameters and IN from offset 0 on. -/
def machine (bytes : List Byte) : State :=
  { State.reset with
    params := { inCap := 2000, outCap := 100000, rotShift := .four }
    inp := Memory.write 0 bytes [] }

def zeros (n : Nat) : List Byte := List.replicate n 0

/-- Whether an outcome is a next state that passes a check. -/
def answers (o : Host.Outcome State Fault Refusal) (p : State → Bool) : Bool :=
  match o with
  | .next t => p t
  | .fault _ | .refused _ => false

/-- `n` bytes of a memory from `a` on. -/
def bytesOf (s : State) (sp : Space) (a n : Nat) : List Byte := (List.range n).map fun k => s.peek sp (a + k)

/-- STATUS, ELEM_DONE and IN_POS. -/
def ended (status done pos : Nat) (t : State) : Bool :=
  t.st == .idle && t.status.word.toNat == status && t.elemDone.toNat == done && t.inPos.toNat == pos

/-- A group's outputs and how many bytes it consumes, from cursor 0, with 24 further bytes (L2-G). -/
def groupGives (i : Instr) (bytes out : List Byte) (consumed : Nat) : Bool :=
  answers (exec i { machine (bytes ++ zeros 24) with len := 60 }) fun t =>
    bytesOf t .grp 0 16 == out && t.pos.toNat == consumed

/-! ## WellFormed and Decode -/

theorem test_ill_formed_version_0 : (Instr.hdrBadVersion 0).WellFormed = false := by decide
theorem test_ill_formed_version_1 : (Instr.hdrBadVersion 1).WellFormed = false := by decide
theorem test_ill_formed_magic : (Instr.hdrBadMagic 0xA5).WellFormed = false := by decide
theorem test_well_formed_magic : (Instr.hdrBadMagic 0x00).WellFormed = true := by decide

theorem test_decode_hdrV0 : decode .hdr 0b10100000#8 = .ok .hdrV0 := by decide
theorem test_decode_hdrV1 : decode .hdr 0b10100001#8 = .ok .hdrV1 := by decide
theorem test_decode_hdrBadVersion : decode .hdr 0b10100010#8 = .ok (.hdrBadVersion 2) := by decide
theorem test_decode_hdrBadMagic : decode .hdr 0b11100001#8 = .ok (.hdrBadMagic 0xE1) := by decide
theorem test_decode_grpW0V0 : decode .wselV0 (field2 0b11111100#8 0) = .ok .grpW0V0 := by decide
theorem test_decode_grpW2V0 : decode .wselV0 (field2 0b11110111#8 1) = .ok .grpW2V0 := by decide
theorem test_decode_grpW4V0 : decode .wselV0 (field2 0b11101111#8 2) = .ok .grpW4V0 := by decide
theorem test_decode_grpW8V0 : decode .wselV0 (field2 0b11000000#8 3) = .ok .grpW8V0 := by decide
theorem test_decode_grpW0C0 : decode .wselV1C0 (field2 0b11100100#8 0) = .ok .grpW0C0 := by decide
theorem test_decode_grpW1C0 : decode .wselV1C0 (field2 0b11100100#8 1) = .ok .grpW1C0 := by decide
theorem test_decode_grpW2C0 : decode .wselV1C0 (field2 0b11100100#8 2) = .ok .grpW2C0 := by decide
theorem test_decode_grpW4C0 : decode .wselV1C0 (field2 0b11100100#8 3) = .ok .grpW4C0 := by decide
theorem test_decode_grpW1C1 : decode .wselV1C1 (field2 0b00011011#8 3) = .ok .grpW1C1 := by decide
theorem test_decode_grpW2C1 : decode .wselV1C1 (field2 0b00011011#8 2) = .ok .grpW2C1 := by decide
theorem test_decode_grpW4C1 : decode .wselV1C1 (field2 0b00011011#8 1) = .ok .grpW4C1 := by decide
theorem test_decode_grpW8C1 : decode .wselV1C1 (field2 0b00011011#8 0) = .ok .grpW8C1 := by decide
theorem test_decode_srcPacked0 : decode .ctrl2 (field2 0b11100100#8 0) = .ok .srcPacked0 := by decide
theorem test_decode_srcPacked1 : decode .ctrl2 (field2 0b11100100#8 1) = .ok .srcPacked1 := by decide
theorem test_decode_srcZero : decode .ctrl2 (field2 0b11101110#8 0) = .ok .srcZero := by decide
theorem test_decode_srcLiteral : decode .ctrl2 (field2 0b11101110#8 1) = .ok .srcLiteral := by decide
theorem test_decode_srcPackedV0 : decode .ctrlV0 0 = .ok .srcPackedV0 := by decide
theorem test_decode_deltaZz8 : decode .chanmode 0b10110100#8 = .ok (.deltaZz8 0b101101) := by decide
theorem test_decode_deltaZz16 : decode .chanmode 0b00000101#8 = .ok (.deltaZz16 0b000001) := by decide
theorem test_decode_deltaRxor32 : decode .chanmode 0b01100010#8 = .ok (.deltaRxor32 0b011000) := by decide
theorem test_decode_chanBad : decode .chanmode 0b11111111#8 = .ok (.chanBad 0b111111) := by decide
theorem test_decode_deltaZz8V0 : decode .chanmodeV0 0 = .ok .deltaZz8V0 := by decide
theorem test_decode_steps :
    ([Stage.check, .hdr, .tail, .blk, .plane, .delta, .commit, .final].map fun st => (decode (.step st) 0).toOption) =
      [Instr.start, .hdr, .tail, .blk, .plane, .delta, .commit, .final].map some := by decide
theorem test_decode_idle : decode (.step .idle) 0 = .error .idleHasNoStep := by decide
theorem test_decode_wider : decode .ctrl2 4 = .error (.widerThanField 4) := by decide
theorem test_decode_no_bits : decode .ctrlV0 1 = .error (.noStreamBits 1) := by decide

/-! ## A table word in place -/

theorem test_fetch_header :
    (match step (State.reset.withFetchWord 8 0xA1) with | .next t => t.ver = 1 ∧ t.st = .tail | _ => False) ∧
      decodeTableWord 8 0xA1 = some .hdrV1 := by
  exact ⟨⟨rfl, rfl⟩, by decide⟩
theorem test_fetch_selector : decodeTableWord 2 3 = some .grpW8V0 := by decide

/-! ## Residual groups -/

/-- L2-G1. -/
theorem test_grpW0V0 : groupGives .grpW0V0 [0xFF] (zeros 16) 0 = true := by decide
/-- L2-G1. -/
theorem test_grpW0C0 : groupGives .grpW0C0 [0xAA] (zeros 16) 0 = true := by decide
/-- L2-G3. -/
theorem test_grpW1C0 : groupGives .grpW1C0 [0x80, 0x01, 0x7F, 0x05] ([0x7F] ++ zeros 14 ++ [0x05]) 4 = true := by decide
/-- L2-G4. -/
theorem test_grpW1C1 :
    groupGives .grpW1C1 ([0xFF, 0xFF] ++ (List.range 16).map (BitVec.ofNat 8)) ((List.range 16).map (BitVec.ofNat 8)) 18 =
      true := by decide
/-- L2-G6. -/
theorem test_grpW2V0 :
    groupGives .grpW2V0 [0x1B, 0xE4, 0x55, 0xAA, 0x03, 0xFF]
      [0, 1, 2, 3, 0xFF, 2, 1, 0, 1, 1, 1, 1, 2, 2, 2, 2] 6 = true := by decide
/-- L2-G13. -/
theorem test_grpW2C0 :
    groupGives .grpW2C0 [0x3F, 0, 0, 0, 0x58, 0x57, 0x58] ([0, 0x58, 0x57, 0x58] ++ zeros 12) 7 = true := by decide
/-- L2-G16. -/
theorem test_grpW2C1 : groupGives .grpW2C1 [0xC0, 0, 0, 0, 3] (3 :: zeros 15) 5 = true := by decide
/-- L2-G9. -/
theorem test_grpW4V0 :
    groupGives .grpW4V0 [0x01, 0x23, 0x45, 0x67, 0x89, 0xAB, 0xCD, 0xEF, 0x9C]
      [0, 1, 2, 3, 4, 5, 6, 7, 8, 9, 10, 11, 12, 13, 14, 0x9C] 9 = true := by decide
/-- L2-G11. -/
theorem test_grpW4C0 : groupGives .grpW4C0 (zeros 7 ++ [0x0F, 0x80]) (zeros 15 ++ [0x80]) 9 = true := by decide
/-- L2-G10. -/
theorem test_grpW4C1 : groupGives .grpW4C1 (List.replicate 8 0xFF ++ zeros 16) (zeros 16) 24 = true := by decide
/-- L2-G12. -/
theorem test_grpW8V0 :
    groupGives .grpW8V0 ((List.range 16).map (BitVec.ofNat 8)) ((List.range 16).map (BitVec.ofNat 8)) 16 = true := by
  decide
/-- L2-G12. -/
theorem test_grpW8C1 :
    groupGives .grpW8C1 ((List.range 16).map (BitVec.ofNat 8)) ((List.range 16).map (BitVec.ofNat 8)) 16 = true := by
  decide
/-- L2-G17. -/
theorem test_bad_width : answers (outcome (group 3 (machine []))) (ended 0xE36 0 0) = true := by decide

/-! ## Residual sources -/

/-- A state with one block of `b` elements before plane `j`. -/
def inBlock (bytes : List Byte) (len b aligned j : Nat) : State :=
  { machine bytes with
    len := BitVec.ofNat 32 len, blk := BitVec.ofNat 9 b, blkAligned := BitVec.ofNat 9 aligned, j := BitVec.ofNat 2 j }

/-- L2-C1: selectors 1 and 3, a column of 32. -/
theorem test_srcPackedV0 :
    answers (exec .srcPackedV0
        (inBlock ([0x0D, 0, 0, 0, 0] ++ (List.range 16).map (fun k => BitVec.ofNat 8 (0x10 + k)) ++ zeros 24) 45 32 32 0))
      (fun t => bytesOf t .res 0 32 == zeros 16 ++ (List.range 16).map (fun k => BitVec.ofNat 8 (0x10 + k)) &&
        t.pos == 21) = true := by decide
/-- L2-C3t: group 4 finds 23 bytes. -/
theorem test_srcPacked0_truncated :
    answers (exec .srcPacked0 (inBlock ([0xE4, 0x01] ++ zeros 37) 39 80 80 0)) (ended 0xB26 0 16) = true := by decide
/-- L2-C2, in plane 1's place: `B = 3` of 16 aligned values. -/
theorem test_srcPacked1 :
    answers (exec .srcPacked1 (inBlock ([0x00, 0x40, 0x00, 0x09] ++ zeros 24) 28 3 16 1))
      (fun t => bytesOf t .res 3 16 == [0, 9] ++ zeros 14 && t.pos == 4) = true := by decide
/-- L2-C5. -/
theorem test_srcZero :
    answers (exec .srcZero (inBlock [] 0 3 16 2)) (fun t => bytesOf t .res 6 3 == zeros 3 && t.pos == 0) = true := by decide
/-- L2-C7. -/
theorem test_srcLiteral :
    answers (exec .srcLiteral (inBlock [0x00, 0x4B, 0x4B, 0x4B] 4 4 16 1))
      (fun t => bytesOf t .res 4 4 == [0x00, 0x4B, 0x4B, 0x4B] && t.pos == 4) = true := by decide
/-- L2-C8. -/
theorem test_srcLiteral_truncated :
    answers (exec .srcLiteral { inBlock [] 100 256 256 0 with pos := 2 }) (ended 0x926 0 2) = true := by decide

/-! ## Deltas -/

/-- A state before the delta of an element of 4 bytes: RES and LAST. -/
def beforeDelta (b : Nat) (res last : List Byte) : State :=
  { machine [] with
    blk := BitVec.ofNat 9 b, es := 4, res := Memory.write 0 res [], last := Memory.write 0 last [] }

/-- The bytes of lane byte `k`, over the elements. -/
def laneOut (t : State) (b k : Nat) : List Byte := (List.range b).map fun i => t.peek .tr (i * 4 + k)

/-- L2-Z8. -/
theorem test_unzz8 :
    ([0x00, 0x01, 0x02, 0x03, 0x7F, 0x80, 0xFE, 0xFF].map unzz8 : List Byte) =
      [0x00, 0xFF, 0x01, 0xFE, 0xC0, 0x40, 0x7F, 0x80] := by decide
/-- L2-Z16. -/
theorem test_unzz16 :
    ([0x0000, 0x0001, 0x0002, 0xFFFE, 0xFFFF, 0x0258, 0x0257].map unzz16 : List (BitVec 16)) =
      [0x0000, 0xFFFF, 0x0001, 0x7FFF, 0x8000, 0x012C, 0xFED4] := by decide
/-- L2-D1. -/
theorem test_deltaZz8 :
    answers (exec (.deltaZz8 0x3F) (beforeDelta 5 ([0, 1, 2, 0xFF, 0xFE] ++ zeros 15) [0x10, 0, 0, 0]))
      (fun t => laneOut t 5 0 == [0x10, 0x0F, 0x10, 0x90, 0x0F] && laneOut t 5 1 == zeros 5) = true := by decide
/-- L2-D1, the wrap, in lane 3. -/
theorem test_deltaZz8V0 :
    answers (exec .deltaZz8V0 (beforeDelta 1 [0, 0, 0, 2] [0x01, 0x02, 0x03, 0xFF]))
      (fun t => bytesOf t .tr 0 4 == [0x01, 0x02, 0x03, 0x00]) = true := by decide
/-- L2-D2. -/
theorem test_deltaZz16 :
    answers (exec (.deltaZz16 0)
        (beforeDelta 4 ([0, 1, 0xFE, 0xFF] ++ [0, 0, 0xFF, 0xFF] ++ zeros 8) [0x34, 0x12, 0, 0]))
      (fun t => laneOut t 4 0 == [0x34, 0x33, 0x32, 0x32] && laneOut t 4 1 == [0x12, 0x12, 0x92, 0x12]) = true := by decide
/-- L2-D2, the wrap, in the upper lane. -/
theorem test_deltaZz16_wraps :
    answers (exec (.deltaZz16 0) (beforeDelta 1 [0, 0, 2, 0] [0, 0, 0xFF, 0xFF]))
      (fun t => bytesOf t .tr 0 4 == zeros 4) = true := by decide
/-- L2-D3, the fourth row. -/
theorem test_deltaRxor32 :
    answers (exec (.deltaRxor32 0b011000) (beforeDelta 2 [0, 0, 0x4B, 0x4B, 0, 0, 0, 0x4B] (zeros 4)))
      (fun t => bytesOf t .tr 0 8 == [0x2C, 0x01, 0, 0, 0, 0, 0x2C, 0x01]) = true := by decide
/-- L2-D3, the fourth row with `CHAN_ROT_SHIFT` = 2. -/
theorem test_deltaRxor32_shift2 :
    answers (exec (.deltaRxor32 0b011000)
        { beforeDelta 2 [0, 0, 0x4B, 0x4B, 0, 0, 0, 0x4B] (zeros 4) with
          params := { inCap := 2000, outCap := 100000, rotShift := .two } })
      (fun t => bytesOf t .tr 0 8 == [0, 0, 0x4B, 0, 0x4B, 0, 0, 0]) = true := by decide
/-- L2-D4. -/
theorem test_chanBad : answers (exec (.chanBad 0) { machine [] with pos := 2 }) (ended 0xC16 0 2) = true := by decide

/-! ## Header rows and sequencer steps -/

/-- S-P1's header byte. -/
theorem test_hdrV0 : answers (exec .hdrV0 (machine [])) (fun t => t.ver == 0 && t.pos == 1 && t.st == .tail) = true := by
  decide
/-- S-P2's header byte. -/
theorem test_hdrV1 : answers (exec .hdrV1 (machine []))
    (fun t => t.ver == 1 && t.status.version == 1 && t.st == .tail) = true := by decide
/-- S-E6. -/
theorem test_hdrBadVersion : answers (exec (.hdrBadVersion 2) (machine [])) (ended 0x616 0 0) = true := by decide
/-- S-E5. -/
theorem test_hdrBadMagic : answers (exec (.hdrBadMagic 0xE0) (machine [])) (ended 0x516 0 0) = true := by decide

/-- The registers of S-P8. -/
def configured (bytes : List Byte) (cnt es len : Nat) : State :=
  { machine bytes with
    elemCount := BitVec.ofNat 32 cnt, elemSize := BitVec.ofNat 32 es, inLen := BitVec.ofNat 32 len }

/-- S-P8's start. -/
theorem test_start : answers (exec .start (configured [] 1 4 37))
    (fun t => t.status.word == 1 && t.es == 4 && t.len == 37 && t.st == .check) = true := by decide
/-- S-E1. -/
theorem test_start_checks : answers (exec .start (startWrite (configured [] 1 6 41))) (ended 0x136 0 0) = true := by decide
/-- S-E4. -/
theorem test_hdr_empty : answers (exec .hdr { startWrite (configured [] 1 4 0) with st := .hdr }) (ended 0x416 0 0) = true := by
  decide
/-- S-E15, the second part: the bad magic comes before the bad version. -/
theorem test_hdr_order : answers (exec .hdr { startWrite (configured (2 :: zeros 40) 1 4 41) with st := .hdr })
    (ended 0x516 0 0) = true := by decide

/-- After the header of a version-0 or version-1 buffer. -/
def afterHeader (v : BitVec 1) (bytes : List Byte) (cnt es len : Nat) : State :=
  { startWrite (configured bytes cnt es len) with
    ver := v, status := { Status.started with version := v }, pos := 1, st := .tail }

/-- S-P2's tail: the channels `62 62` (and L2-S1, es = 8). -/
theorem test_tail : answers (exec .tail (afterHeader 1 (0xA1 :: zeros 40 ++ [0x62, 0x62]) 4 8 43))
    (fun t => t.ts == 10 && t.tp == 24 && t.cap == 256 && t.st == .blk && bytesOf t .chan 0 2 == [0x62, 0x62] &&
      bytesOf t .last 0 8 == zeros 8) = true := by decide
/-- S-E7, the second stream. -/
theorem test_tail_short : answers (exec .tail (afterHeader 1 (0xA1 :: zeros 23) 1 4 24)) (ended 0x10716 0 1) = true := by
  decide

/-- At the first block of S-P2. -/
def atBlock (v : BitVec 1) (bytes : List Byte) (cnt es len : Nat) : State :=
  { afterHeader v bytes cnt es len with
    ts := BitVec.ofNat 9 (tailSize v es), tp := BitVec.ofNat 9 (tailPadded v es), cap := BitVec.ofNat 9 (blockCap es)
    st := .blk }

/-- S-P2: four elements, sixteen aligned, the control bytes `ee ee`. -/
theorem test_blk : answers (exec .blk (atBlock 1 ([0xA1, 0xEE, 0xEE] ++ zeros 40) 4 8 43))
    (fun t => t.blk == 4 && t.blkAligned == 16 && t.pos == 3 && bytesOf t .ctl 0 2 == [0xEE, 0xEE] && t.st == .plane) =
      true := by decide
/-- S-E8: no byte is left for the second block's control byte. -/
theorem test_blk_truncated :
    answers (exec .blk { atBlock 1 [] 257 4 1026 with pos := 1026, done := 256 }) (ended 0x10826 256 1026) = true := by
  decide

/-- Before a plane of the first block. -/
def atPlane (v : BitVec 1) (bytes ctl : List Byte) (cnt es len pos j : Nat) : State :=
  { atBlock v bytes cnt es len with
    blk := BitVec.ofNat 9 cnt, blkAligned := BitVec.ofNat 9 (align16 cnt), ctl := Memory.write 0 ctl []
    pos := BitVec.ofNat 32 pos, j := BitVec.ofNat 2 j, st := .plane }

/-- S-P2: plane 1 of the first group is literal. -/
theorem test_plane : answers (exec .plane (atPlane 1 ([0xA1, 0xEE, 0xEE, 0x00, 0x4B, 0x4B, 0x4B] ++ zeros 36) [0xEE, 0xEE] 4 8 43 3 1))
    (fun t => bytesOf t .res 4 4 == [0, 0x4B, 0x4B, 0x4B] && t.pos == 7 && t.j == 2 && t.st == .plane) = true := by decide
/-- S-E11: the second plane's group finds 14 bytes. -/
theorem test_plane_truncated :
    answers (exec .plane (atPlane 0 ([0xA0, 0x03] ++ (List.range 16).map (BitVec.ofNat 8) ++ zeros 15) [] 16 4 33 18 1))
      (ended 0xB26 0 19) = true := by decide
/-- S-E12: all planes zero, then MODE 3. -/
theorem test_delta_bad_channel :
    answers (exec .delta { atPlane 1 [] [0xAA] 1 4 26 2 3 with chan := [(0, 3)], st := .delta }) (ended 0x10C16 0 2) =
      true := by decide
/-- S-P6, group 0, element 0: `0x0100ff01` rotated by 31 on the seed `0x01020304`; the next group follows. -/
theorem test_delta :
    answers (exec .delta
        { atPlane 1 [] [0xE4, 0x55] 1 8 66 2 3 with
          chan := [(0, 0x12), (1, 0)], res := Memory.write 0 [0x01, 0xFF, 0x00, 0x01] []
          last := Memory.write 0 [4, 3, 2, 1] [], st := .delta })
      (fun t => bytesOf t .tr 0 4 == [0x84, 0x7C, 0x82, 0x81] && t.g == 4 && t.j == 0 && t.st == .plane) = true := by decide
/-- The last block of S-P5: element 256 goes to OUT and to LAST. -/
theorem test_commit :
    answers (exec .commit
        { atPlane 1 [] [] 1 4 284 260 3 with cnt := 257, done := 256, tr := Memory.write 0 [1, 0, 0, 0] [], st := .commit })
      (fun t => bytesOf t .out 1024 4 == [1, 0, 0, 0] && bytesOf t .last 0 4 == [1, 0, 0, 0] && t.done == 257 &&
        t.st == .final) = true := by decide
/-- S-P1's end. -/
theorem test_final : answers (exec .final { atBlock 0 [] 4 8 81 with pos := 49, done := 4, st := .final })
    (ended 0x2 4 49) = true := by decide
/-- S-P9's end with a byte of the tail fewer. -/
theorem test_final_mismatch : answers (exec .final { atBlock 0 [] 16 4 52 with pos := 21, done := 16, st := .final })
    (ended 0xD16 16 21) = true := by decide

/-! ## Witnesses: for each statement with hypotheses, a state and operands that meet them, at boundary values -/

theorem witness_DecodeOfEncode : (Instr.hdrBadVersion 2).WellFormed = true ∧ (Instr.hdrBadVersion 15).WellFormed = true ∧
    (Instr.hdrBadMagic 0x9F).WellFormed = true ∧ (Instr.hdrBadMagic 0xB0).WellFormed = true := by decide

theorem witness_EncodeOfDecode : decode .chanmode 0xFF = .ok (.chanBad 0x3F) ∧ decode .wselV1C1 3 = .ok .grpW8C1 := by
  decide

theorem witness_SelectorPicksTheTablesWidth :
    (Format.wselV1C1, [1, 2, 4, 8]) ∈ [(Format.wselV0, [0, 2, 4, 8]), (.wselV1C0, [0, 1, 2, 4]), (.wselV1C1, [1, 2, 4, 8])] ∧
      3 < 4 := by decide

/-- Exactly the 24 bytes of the look-ahead are left (PackedGroupUnpacksWithEscapes, LiteralGroupCopiesSixteenBytes,
GroupConsumesWithinTheLimit). -/
theorem witness_Groups : let s := { machine (List.replicate 26 0xFF) with pos := 2, len := 26 };
    s.pos.toNat + 24 ≤ s.len.toNat ∧ s.len.toNat ≤ s.params.inCap := by decide

/-- A second input that agrees on the bytes consumed, and differs after them. -/
theorem witness_GroupConsumesWithinTheLimit :
    let s := { machine (List.replicate 24 7) with len := 24 }
    let m := Memory.write 16 (zeros 8) s.inp;
    s.pos.toNat + 24 ≤ s.len.toNat ∧ s.len.toNat ≤ s.params.inCap ∧
      (∀ t, group 8 s = .ok t → t.pos.toNat = 16) ∧
      (∀ a, s.pos.toNat ≤ a → a < 16 → (s.setMem .inp m).peek .inp a = s.peek .inp a) ∧
      (s.setMem .inp m).peek .inp 16 ≠ s.peek .inp 16 := by
  refine ⟨by decide, by decide, fun t h => ?_, ?_, by decide⟩
  · cases h; rfl
  · have h : ∀ a < 16, (({ machine (List.replicate 24 7) with len := 24 } : State).setMem .inp
        (Memory.write 16 (zeros 8) (machine (List.replicate 24 7)).inp)).peek .inp a =
        ({ machine (List.replicate 24 7) with len := 24 } : State).peek .inp a := by decide
    exact fun a _ ha => h a ha

theorem witness_OtherWidthsAreUsageErrors : 3 ∉ [0, 1, 2, 4, 8] ∧ 16 ∉ [0, 1, 2, 4, 8] := by decide

theorem witness_ZeroSourceFillsThePlane : (inBlock [] 0 256 256 3).blk.toNat ≤ 256 := by decide

/-- Exactly `B` bytes are left, and one fewer. -/
theorem witness_LiteralSourceCopiesOrTruncates :
    (let s := inBlock (zeros 4) 4 4 16 0;
      s.blk.toNat ≤ 256 ∧ s.len.toNat ≤ s.params.inCap ∧ ¬ s.len.toNat < s.pos.toNat + s.blk.toNat) ∧
    (let s := inBlock (zeros 3) 3 4 16 0;
      s.blk.toNat ≤ 256 ∧ s.len.toNat ≤ s.params.inCap ∧ s.len.toNat < s.pos.toNat + s.blk.toNat ∧ s.spoiled = false) := by
  decide

/-- One group after its header byte, with exactly 24 bytes left; and the largest column in the last plane. -/
theorem witness_PackedSourceRunsItsGroupsInOrder :
    (.srcPackedV0, .wselV0) ∈ packedRows ∧
    (let s := inBlock (zeros 25) 25 1 16 0;
      s.blkAligned.toNat % 16 = 0 ∧ s.j.toNat * s.blk.toNat + s.blkAligned.toNat ≤ 1024 ∧
        s.pos.toNat + (s.blkAligned.toNat + 63) / 64 + 24 * (s.blkAligned.toNat / 16) ≤ s.len.toNat ∧
        s.len.toNat ≤ s.params.inCap) ∧
    (let s := inBlock [] 388 256 256 3;
      s.blkAligned.toNat % 16 = 0 ∧ s.j.toNat * s.blk.toNat + s.blkAligned.toNat ≤ 1024 ∧
        s.pos.toNat + (s.blkAligned.toNat + 63) / 64 + 24 * (s.blkAligned.toNat / 16) ≤ s.len.toNat ∧
        s.len.toNat ≤ s.params.inCap) := by decide

/-- L2-C1's column: two groups, of widths 2 and 8, from cursors 1 and 5, in a buffer of 45
bytes, where 24 bytes for each group in advance would need 49. -/
theorem witness_PackedSourceRunsWhereEveryLookAheadHolds :
    let s := inBlock ([0x0D, 0, 0, 0, 0] ++ (List.range 16).map (fun k => BitVec.ofNat 8 (0x10 + k)) ++ zeros 24)
      45 32 32 0;
    let cur : Nat → Nat := fun q => [1, 5, 21].getD q 0;
    (.srcPackedV0, .wselV0) ∈ packedRows ∧ s.blkAligned.toNat % 16 = 0 ∧
      s.j.toNat * s.blk.toNat + s.blkAligned.toNat ≤ 1024 ∧ s.len.toNat ≤ s.params.inCap ∧
      cur 0 = s.pos.toNat + (s.blkAligned.toNat + 63) / 64 ∧ cur 0 ≤ s.len.toNat ∧
      ∀ q < s.blkAligned.toNat / 16, cur q + 24 ≤ s.len.toNat ∧ ∃ r u,
        decode .wselV0 (field2 (s.peek .inp (s.pos.toNat + q / 4)) (q % 4)) = .ok r ∧
        exec r { s with pos := BitVec.ofNat 32 (cur q) } = .next u ∧ u.pos.toNat = cur (q + 1) := by
  refine ⟨by decide, by decide, by decide, by decide, by decide, by decide, fun q hq => ?_⟩
  have hq : q < 2 := hq
  obtain rfl | rfl : q = 0 ∨ q = 1 := by omega
  · exact ⟨by decide, .grpW2V0, _, by decide, rfl, rfl⟩
  · exact ⟨by decide, .grpW8V0, _, by decide, rfl, rfl⟩

theorem witness_PackedSourceNeedsItsWidthHeader :
    let s := inBlock (zeros 3) 3 256 256 0;
    s.blkAligned.toNat % 16 = 0 ∧ s.len.toNat < s.pos.toNat + (s.blkAligned.toNat + 63) / 64 ∧ s.spoiled = false := by
  decide

/-- The first group finds 23 bytes. -/
theorem witness_GroupLookAhead_first :
    let s := inBlock (zeros 24) 24 1 16 0;
    let cur : Nat → Nat := fun _ => 1;
    s.blkAligned.toNat % 16 = 0 ∧ 0 < s.blkAligned.toNat / 16 ∧ s.len.toNat ≤ s.params.inCap ∧
      cur 0 = s.pos.toNat + (s.blkAligned.toNat + 63) / 64 ∧ cur 0 ≤ s.len.toNat ∧ s.len.toNat < cur 0 + 24 ∧
      s.spoiled = false := by decide

/-- The second group finds 8 bytes: the first is a literal one. -/
theorem witness_GroupLookAhead_second :
    let s := inBlock (3 :: zeros 24) 25 32 32 0;
    let cur : Nat → Nat := fun q => 1 + 16 * q;
    s.blkAligned.toNat % 16 = 0 ∧ 1 < s.blkAligned.toNat / 16 ∧ s.len.toNat ≤ s.params.inCap ∧
      cur 0 = s.pos.toNat + (s.blkAligned.toNat + 63) / 64 ∧ cur 0 ≤ s.len.toNat ∧
      (∀ p < 1, cur p + 24 ≤ s.len.toNat ∧ ∃ r u,
        decode .wselV0 (field2 (s.peek .inp (s.pos.toNat + p / 4)) (p % 4)) = .ok r ∧
        exec r { s with pos := BitVec.ofNat 32 (cur p) } = .next u ∧ u.pos.toNat = cur (p + 1)) ∧
      s.len.toNat < cur 1 + 24 := by
  refine ⟨by decide, by decide, by decide, by decide, by decide, fun p hp => ?_, by decide⟩
  obtain rfl : p = 0 := by omega
  exact ⟨by decide, .grpW8V0, _, by decide, rfl, rfl⟩

theorem witness_ColumnLengthMustBeAMultipleOfSixteen : 17 % 16 ≠ 0 ∧ (inBlock [] 0 17 17 0).blkAligned.toNat = 17 := by
  decide

/-- The largest block of the smallest and of the largest element, at the last group (the three delta rows). -/
theorem witness_DeltaFits :
    DeltaFits { beforeDelta 256 [] [] with es := 32, g := 28 } ∧
      DeltaFits { beforeDelta 32 [] [] with es := 256, g := 252 } ∧ DeltaFits (beforeDelta 1 [] []) :=
  ⟨⟨by decide, by decide, by decide, by decide⟩, ⟨by decide, by decide, by decide, by decide⟩,
    ⟨by decide, by decide, by decide, by decide⟩⟩

/-- A decode the host left alone, and a spoiled one (HeaderRowsAcceptOrReject, BadChannelModeRaises,
TakingAnErrorRecordsIt, SpoiledDecodeStillEnds). -/
theorem witness_spoiled : (machine []).spoiled = false ∧ ({ machine [] with spoiled := true } : State).spoiled = true := by
  decide

theorem witness_RotationFieldRotatesRight : 0 < 32 ∧ 31 < 32 := by decide

/-- Each of the four clauses. -/
theorem witness_HeaderStepChecksInOrder :
    (machine []).len.toNat < 1 ∧
    (let s := { machine [0xB1] with len := 1 };
      s.len.toNat ≤ s.params.inCap ∧ ¬ s.len.toNat < 1 ∧ (s.peek .inp 0).toNat / 16 ≠ 0xA) ∧
    (let s := { machine [0xA2] with len := 1 };
      s.len.toNat ≤ s.params.inCap ∧ ¬ s.len.toNat < 1 ∧ (s.peek .inp 0).toNat / 16 = 0xA ∧
        1 < (s.peek .inp 0).toNat % 16) ∧
    (let s := { machine [0xA1] with len := 2000 };
      s.len.toNat ≤ s.params.inCap ∧ ¬ s.len.toNat < 1 ∧ (s.peek .inp 0).toNat / 16 = 0xA ∧
        ¬ 1 < (s.peek .inp 0).toNat % 16) := by decide

theorem witness_HeaderStepRunsTheDecodedRow :
    let s := { machine [0xA1] with len := 1 };
    1 ≤ s.len.toNat ∧ s.len.toNat ≤ s.params.inCap ∧ decode .hdr (s.peek .inp 0) = .ok .hdrV1 := by decide

theorem witness_StartLatchesTheConfiguration :
    let s := { configured [] 1 4 37 with turns := [.host (.writeReg 0 1)] };
    s.status.busy = false ∧ (1 : Word).getLsbD 0 = true ∧ s.turns = .host (.writeReg 0 1) :: [] := by decide

/-- Each usage error on its own side of its limit, and the largest legal configuration. -/
theorem witness_UsageTestsComeInOrder :
    ∀ s ∈ [startWrite (configured [] 1 0 33), startWrite (configured [] 1 260 33), startWrite (configured [] 1 4 2001),
        startWrite (configured [] 25001 4 33), startWrite (configured [] 25000 4 2000)],
      s.status.busy = true ∧ s.st = .check := by decide

/-- Exactly the padded tail is left, in version 0 and in version 1; and one byte fewer. -/
theorem witness_Tail :
    (let s := afterHeader 0 [] 0 4 33;
      legalElemSize s.es.toNat = true ∧ s.len.toNat ≤ s.params.inCap ∧ s.ver = 0 ∧ s.pos.toNat + 32 ≤ s.len.toNat) ∧
    (let s := afterHeader 1 [] 1 256 321;
      legalElemSize s.es.toNat = true ∧ s.len.toNat ≤ s.params.inCap ∧ s.ver = 1 ∧ s.pos.toNat + 320 ≤ s.len.toNat) ∧
    (let s := afterHeader 1 [] 1 256 320;
      legalElemSize s.es.toNat = true ∧ s.len.toNat < s.pos.toNat + 320 ∧ s.spoiled = false) := by decide

theorem witness_BlockCapacity : legalElemSize 4 = true ∧ legalElemSize 256 = true ∧ 256 % 16 = 0 ∧ 256 * 4 ≤ 8192 := by
  decide

/-- Version 0; version 1 with exactly the control bytes left; version 1 with none left. -/
theorem witness_BlockStartReadsTheControlRegion :
    (let s := atBlock 0 [] 1 4 1;
      s.es.toNat ≤ 256 ∧ s.cap.toNat ≤ 256 ∧ s.len.toNat ≤ s.params.inCap ∧ s.ver = 0) ∧
    (let s := atBlock 1 [] 1 256 65;
      s.es.toNat ≤ 256 ∧ s.cap.toNat ≤ 256 ∧ s.len.toNat ≤ s.params.inCap ∧ s.ver = 1 ∧
        ¬ s.len.toNat < s.pos.toNat + s.es.toNat / 4) ∧
    (let s := atBlock 1 [] 1 256 64;
      s.es.toNat ≤ 256 ∧ s.cap.toNat ≤ 256 ∧ s.len.toNat ≤ s.params.inCap ∧ s.ver = 1 ∧
        s.len.toNat < s.pos.toNat + s.es.toNat / 4 ∧ s.spoiled = false) := by decide

/-- A source that answers, and one that raises, in version 1; and version 0. -/
theorem witness_PlaneRunsTheCodesSource :
    (atPlane 1 [] [0xAA] 1 4 26 2 3).ver = 1 ∧ (atPlane 0 [] [] 1 4 37 1 0).ver = 0 ∧
    (∃ u, runSource .srcZero (atPlane 1 [] [0xAA] 1 4 26 2 3) = .ok u) ∧
    (∃ e, runSource .srcLiteral (atPlane 1 [] [0xFF] 256 4 100 2 0) = .error e) :=
  ⟨by decide, by decide, ⟨_, rfl⟩, ⟨_, rfl⟩⟩

theorem witness_DeltaRunsTheModesReconstruction :
    (∀ s ∈ [{ atPlane 1 [] [] 1 8 66 2 3 with g := 4, chan := [(1, 0x12)] }, atPlane 0 [] [] 1 8 66 2 3,
        { atPlane 1 [] [] 1 8 66 2 3 with chan := [(0, 3)] }],
      s.blk.toNat ≤ 256 ∧ s.g.toNat + 4 ≤ s.es.toNat ∧ s.es.toNat ≤ 256 ∧ s.blk.toNat * s.es.toNat ≤ 8192 ∧
        s.g.toNat % 4 = 0) ∧
      ({ atPlane 1 [] [] 1 8 66 2 3 with chan := [(0, 3)] } : State).peek .chan 0 = 3 := by decide

/-- The whole of OUT, to its last byte. -/
theorem witness_CommitWritesTheBlock :
    let s := { atPlane 1 [] [] 32 256 66 2 3 with cnt := 32, params := { inCap := 33, outCap := 8192, rotShift := .two } };
    1 ≤ s.blk.toNat ∧ s.blk.toNat * s.es.toNat ≤ 8192 ∧ s.es.toNat ≤ 256 ∧
      s.done.toNat * s.es.toNat + s.blk.toNat * s.es.toNat ≤ s.params.outCap ∧
      s.done.toNat + s.blk.toNat ≤ s.cnt.toNat := by decide

/-- Exactly the padded tail is left, and one byte more. -/
theorem witness_FinalChecksTheTrailingBytes :
    (let s := { atBlock 0 [] 0 4 33 with st := .final };
      s.spoiled = false ∧ s.len.toNat = s.pos.toNat + s.tp.toNat) ∧
    (let s := { atBlock 0 [] 0 4 34 with st := .final };
      s.spoiled = false ∧ s.len.toNat ≠ s.pos.toNat + s.tp.toNat) := by decide

/-- A byte below `cnt·es` and inside OUT, and the first byte at `cnt·es`. -/
theorem witness_OutputIsOpenAfterAnError :
    let s := atBlock 0 [] 1 4 33;
    s.spoiled = false ∧ Reason.empty ≠ .outRange ∧ 3 < s.cnt.toNat * s.es.toNat ∧ 3 < s.params.outCap ∧
      s.cnt.toNat * s.es.toNat ≤ 4 := by decide

theorem witness_StatusWordsOfTheOutcomes : (none, 0x2#32) ∈ [((none : Option Reason), 0x2#32)] := by decide

/-- Every offset, among them the listed, an unlisted and a misaligned one; idle and busy. -/
theorem witness_RegisterAccesses (offset : Word) :
    let s := { configured [] 1 4 37 with turns := [.host (.readReg offset)] };
    let u := { startWrite (configured [] 1 4 37) with turns := [.host (.writeReg offset 1)] };
    s.turns = .host (.readReg offset) :: [] ∧ s.status.busy = false ∧
      u.turns = .host (.writeReg offset 1) :: [] ∧ u.status.busy = true := ⟨rfl, rfl, rfl, rfl⟩

theorem witness_RegisterWrites_ignored :
    (0x18 : Word) ∉ ([0x08, 0x0C, 0x10] : List Word) ∧ (0 : Word) ∉ ([0x08, 0x0C, 0x10] : List Word) ∧
      (2 : Word).getLsbD 0 = false := by decide

/-- The last byte of IN and of OUT; a write at `len - 1` while BUSY. -/
theorem witness_HostAccesses :
    let s := { startWrite (configured [] 1 4 2000) with turns := [.host (.writeIn 1999 5)] };
    let u := { startWrite (configured [] 1 4 2000) with turns := [.host (.readOut 99999)] };
    s.turns = .host (.writeIn 1999 5) :: [] ∧ 1999 < s.params.inCap ∧ s.status.busy = true ∧ 1999 < s.len.toNat ∧
      u.turns = .host (.readOut 99999) :: [] ∧ 99999 < u.params.outCap :=
  ⟨rfl, by decide, rfl, by decide, rfl, by decide⟩

theorem witness_ResetLeavesTheStatedValues :
    let s := { startWrite (configured [] 1 4 37) with turns := [.reset] };
    s.turns = .reset :: [] ∧ step s = .next (platformReset { s with turns := [] }) := ⟨rfl, rfl⟩

theorem witness_StepRunsTheDecodedInstruction :
    let s := { atPlane 1 [] [0xAA] 1 4 26 2 3 with turns := [.engine] };
    s.turns = .engine :: [] ∧ decode (.step s.st) 0 = .ok .plane ∧ s.st ≠ .idle ∧
      (machine []).turns = [] ∧ (machine []).st = .idle := by decide

/-! ### States of the invariant -/

/-- The invariant of a state, its memories checked by evaluation. -/
theorem inv_of {s : State} (hc : 33 ≤ s.params.inCap)
    (hm : ([Space.inp, .out, .last, .chan, .ctl, .res, .tr, .grp].all fun sp =>
      decide (s.mem sp).wf && (s.mem sp).all fun c => decide (c.1 < s.size sp)) = true)
    (hs : s.StageOk) : s.Inv := by
  have h : ∀ sp, (decide (s.mem sp).wf && (s.mem sp).all fun c => decide (c.1 < s.size sp)) = true := by
    intro sp
    exact List.all_eq_true.mp hm sp (by cases sp <;> decide)
  refine ⟨hc, fun sp => ?_, fun sp c hcell => ?_, hs⟩
  · have := h sp
    simp only [Bool.and_eq_true, decide_eq_true_eq] at this
    exact this.1
  · have := h sp
    simp only [Bool.and_eq_true, List.all_eq_true, decide_eq_true_eq] at this
    exact this.2 c hcell

/-- S-P8 launched: in CHECK, the host away. -/
def launched : State := startWrite (configured ([0xA0, 0, 0, 0, 0] ++ zeros 28 ++ [0x11, 0x22, 0x33, 0x44]) 1 4 37)

theorem witness_launched : launched.Inv ∧ launched.Launched ∧ launched.st = .check ∧ launched.turns = [] :=
  ⟨inv_of (by decide) (by decide) ⟨rfl, rfl, rfl⟩, ⟨rfl, rfl, rfl, rfl, rfl, rfl⟩, rfl, rfl⟩

/-- A second machine with the same configuration and input, and other internal storage and OUT. -/
def launchedElsewhere : State :=
  { launched with
    last := [(0, 9)], tr := [(8191, 1)], out := [(0, 7)], inp := Memory.write 37 [0xEE] launched.inp, draws := 5, epoch := 2 }

theorem witness_ResultDependsOnlyOnTheInput :
    launchedElsewhere.Inv ∧ launchedElsewhere.Launched ∧ launched.params = launchedElsewhere.params ∧
      launched.cnt = launchedElsewhere.cnt ∧ launched.es = launchedElsewhere.es ∧ launched.len = launchedElsewhere.len ∧
      ∀ a < launched.len.toNat, launched.peek .inp a = launchedElsewhere.peek .inp a :=
  ⟨inv_of (by decide) (by decide) ⟨rfl, rfl, rfl⟩, ⟨rfl, rfl, rfl, rfl, rfl, rfl⟩, rfl, rfl, rfl, rfl, by decide⟩

theorem witness_InputBeyondLenIsNeverRead :
    let m := Memory.write 37 [0xEE] launched.inp;
    launched.Inv ∧ (launched.setMem .inp m).Inv ∧ launched.turns = [] ∧
      (∀ a < launched.len.toNat, (launched.setMem .inp m).peek .inp a = launched.peek .inp a) ∧
      ∃ t, step launched = .next t :=
  ⟨witness_launched.1, inv_of (by decide) (by decide) ⟨rfl, rfl, rfl⟩, rfl, by decide, ⟨_, rfl⟩⟩

/-- A first block of one element, with 388 bytes left, at its first, its third and its last plane. -/
theorem witness_PlaneCompletesWithBytesLeft : ∀ j ∈ [0, 2, 3],
    let s := atPlane 0 [0xA0] [] 1 4 389 1 j;
    s.Inv ∧ s.st = .plane ∧ s.pos.toNat + 388 ≤ s.len.toNat ∧ s.turns = [] ∧ s.st ≠ .idle ∧ s.j.toNat = j := by
  simp only [List.forall_mem_cons, List.not_mem_nil, false_implies, implies_true, and_true]
  refine ⟨?_, ?_, ?_⟩ <;>
  exact ⟨inv_of (by decide) (by decide)
    ⟨⟨⟨⟨by decide, by decide, by decide⟩, by decide, by decide, by decide, by decide, by decide, by decide, by decide,
      by decide⟩, by decide, by decide, by decide, by decide⟩, by decide, by decide⟩,
    rfl, by decide, rfl, by decide, rfl⟩

/-- At COMMIT, for the statements about every step. -/
theorem witness_EngineWritesOutOnlyInside :
    let s := { atPlane 0 [0xA0] [] 1 4 389 1 3 with st := .commit };
    s.Inv ∧ s.turns = [] ∧ s.st = .commit ∧ ∃ t, step s = .next t :=
  ⟨inv_of (by decide) (by decide)
    ⟨⟨⟨by decide, by decide, by decide⟩, by decide, by decide, by decide, by decide, by decide, by decide, by decide,
      by decide⟩, by decide, by decide, by decide, by decide⟩,
    rfl, rfl, ⟨_, rfl⟩⟩

/-- A host access to the last byte of IN. -/
theorem witness_StepNeverStops :
    let s := { machine [] with turns := [.host (.readIn 1999)] };
    s.Inv ∧ s.turnWithin = true ∧ ∃ t, step s = .next t :=
  ⟨inv_of (by decide) (by decide) (.inl rfl), by decide, ⟨_, rfl⟩⟩

end Sys2Proof.Tests
end

section
/-!
PROOFS. The residual group decoder (40_group_decoder.md): the latch after a group's result, the rows of the two widths
that unpack nothing, and the widths no row has.
-/

namespace Sys2Proof.Machine

/-- A group's result, where it has its 16 values, changes the latch and the cursor alone (R100). -/
theorem groupResult_eq {v : List Byte} (hv : v.length = groupSize) (p : Nat) (s : State) :
    groupResult v p s = .ok { s with grp := Memory.write 0 v s.grp, pos := BitVec.ofNat 32 p } := by
  have hfits : 0 + v.length ≤ s.size .grp := by simp [hv, groupSize]
  rw [groupResult, State.store_eq hfits]
  rfl

/-- What the latch reads as after a group's result: its values, and beyond them what it read before. -/
theorem peek_grp_latched (s : State) (v : List Byte) (p : Word) (a : Nat) :
    ({ s with grp := Memory.write 0 v s.grp, pos := p } : State).peek .grp a =
      if a < v.length then v.getD a 0 else s.peek .grp a := by
  have h := State.peek_setMem_write { s with pos := p } .grp .grp 0 a v
  simp only [true_and, Nat.zero_le, Nat.zero_add, Nat.sub_zero] at h
  exact h

/-- The width-0 group writes 16 zeros into the latch, in every state, and changes nothing else (R102). -/
theorem zeroGroup_eq (s : State) :
    group 0 s = .ok { s with grp := Memory.write 0 (List.replicate groupSize 0) s.grp } := by
  have h := groupResult_eq (List.length_replicate (n := groupSize) (a := (0 : Byte))) s.pos.toNat s
  rw [BitVec.ofNat_toNat, BitVec.setWidth_eq] at h
  exact h

/-- The width-8 group writes the 16 bytes at the cursor into the latch and moves the cursor past them (R106). -/
theorem literalGroup_eq (s : State) (h : s.pos.toNat + 24 ≤ s.params.inCap) :
    group 8 s = .ok { s with
      grp := Memory.write 0 (Bytes.take (s.peek .inp) s.pos.toNat 16) s.grp
      pos := BitVec.ofNat 32 (s.pos.toNat + 16) } :=
  group_eq s (by simp) h

/-- A width outside R81's tables raises BAD_WIDTH in the state as it is (R107). -/
theorem group_raises_badWidth {w : Nat} (hw : w ∉ [0, 1, 2, 4, 8]) (s : State) : group w s = raise .badWidth s := by
  simp only [List.mem_cons, List.not_mem_nil, or_false, not_or] at hw
  obtain ⟨h0, h1, h2, h4, h8⟩ := hw
  simp [group, h0, h1, h2, h4, h8]

/-- Both rows of GRP_W0 are the width-0 group (R81). -/
theorem exec_zeroRow {i : Instr} (hi : i ∈ [Instr.grpW0V0, .grpW0C0]) (s : State) :
    exec i s = outcome (group 0 s) := by
  obtain rfl | rfl : i = .grpW0V0 ∨ i = .grpW0C0 := by simpa using hi
  · rfl
  · rfl

/-- Both rows of GRP_W8 are the width-8 group (R81). -/
theorem exec_literalRow {i : Instr} (hi : i ∈ [Instr.grpW8V0, .grpW8C1]) (s : State) :
    exec i s = outcome (group 8 s) := by
  obtain rfl | rfl : i = .grpW8V0 ∨ i = .grpW8C1 := by simpa using hi
  · rfl
  · rfl

/-- Settles O7: the latch holds the bytes read at the cursor, which does not wrap, as 24 bytes are left below `len`. -/
theorem literalGroupCopiesSixteenBytes : Obligations.LiteralGroupCopiesSixteenBytes := by
  intro i hi s hlen hcap
  refine ⟨_, (exec_literalRow hi s).trans (congrArg outcome (literalGroup_eq s (by omega))),
    fun k hk => ?_, ?_, fun a ha => ?_, rfl⟩
  · rw [peek_grp_latched]
    simp [Bytes.take, hk]
  · have hlt : s.pos.toNat + 16 < 2 ^ 32 := by have := s.len.isLt; omega
    exact Nat.mod_eq_of_lt hlt
  · rw [peek_grp_latched, if_neg (by simpa [Bytes.take] using ha)]

/-- Settles O5: the result is latched at the cursor the group began at. -/
theorem zeroWidthGroupYieldsZeros : Obligations.ZeroWidthGroupYieldsZeros := by
  intro i hi s
  refine ⟨_, (exec_zeroRow hi s).trans (congrArg outcome (zeroGroup_eq s)), fun k hk => ?_, fun a ha => ?_, rfl⟩
  · rw [peek_grp_latched, if_pos (by simpa [groupSize] using hk)]
    exact List.getD_replicate _ hk
  · rw [peek_grp_latched, if_neg (by simpa [groupSize] using ha)]

/-- Settles O9: the raised error ends the decode, which is the step's next state. -/
theorem otherWidthsAreUsageErrors : Obligations.OtherWidthsAreUsageErrors := by
  intro w hw s
  rw [group_raises_badWidth hw, outcome_raise]

end Sys2Proof.Machine
end

section
/-!
PROOFS. The bitstream parser and the residual sources (41_stream_parser.md): the checks of a column before its groups,
and the two sources that unpack nothing.
-/

namespace Sys2Proof.Machine

/-! ## The ends of a decode -/

/-- An error of a decode the host left alone: IN_POS is the cursor of the failing check, and STATUS holds the error with
the version bit it had (R202, R203). -/
theorem State.endDecode_error_record {s : State} (h : s.spoiled = false) (r : Reason) :
    (s.endDecode (some r)).inPos = s.pos ∧
      (s.endDecode (some r)).status = Status.ended (some r) s.status.version := by
  rw [State.endDecode_of_obeyed h]
  exact ⟨State.endError_inPos r s, State.endError_status r s⟩

/-! ## A column's checks -/

/-- A column whose length is no multiple of 16 raises before anything is read (R121). -/
theorem column_raises_badColumnLength {n : Nat} (hn : n % 16 ≠ 0) (f : Format) (s : State) :
    column f n s = raise .badColumnLength s := if_pos hn

/-- A column of whole groups with fewer bytes left than its width header raises before the header is read (R122). -/
theorem column_raises_truncWidthHeader {n : Nat} (hn : n % 16 = 0) (f : Format) {s : State}
    (hlen : s.len.toNat < s.pos.toNat + (n + 63) / 64) : column f n s = raise .truncWidthHeader s := by
  have hsize : ceilDiv (n / groupSize) 4 = (n + 63) / 64 := by
    simp only [ceilDiv, groupSize]
    omega
  have hwhole : ¬ n % groupSize ≠ 0 := not_not_intro hn
  simp only [column, hsize]
  rw [if_neg hwhole, if_pos hlen]

/-- The error a packed source's column raises is the source's own (R126, R203). -/
theorem packedSource_raises {f : Format} {s : State} {r : Reason} (h : column f s.blkAligned.toNat s = raise r s) :
    packedSource f s = raise r s := by
  rw [packedSource, h]
  rfl

/-- The three packed rows are the packed source with their own selectors' format (R127 to R129). -/
theorem exec_packedRow {row : Instr × Format} (hrow : row ∈ packedRows) (s : State) :
    exec row.1 s = outcome (packedSource row.2 s) := by
  obtain rfl | rfl | rfl :
      row = (.srcPackedV0, .wselV0) ∨ row = (.srcPacked0, .wselV1C0) ∨ row = (.srcPacked1, .wselV1C1) := by
    simpa [packedRows] using hrow
  · rfl
  · rfl
  · rfl

/-- Where its column raises, a packed row ends the decode with that error (R203). -/
theorem exec_packedRow_of_column_raises {row : Instr × Format} (hrow : row ∈ packedRows) {s : State} {r : Reason}
    (h : column row.2 s.blkAligned.toNat s = raise r s) : exec row.1 s = .next (s.endDecode (some r)) := by
  rw [exec_packedRow hrow, packedSource_raises h, outcome_raise]

/-! ## The plane's place in RES -/

/-- With at most 256 elements in the block, each of the four planes lies in RES (R126). -/
theorem planeBase_add_blk_le {s : State} (h : s.blk.toNat ≤ 256) : s.planeBase + s.blk.toNat ≤ 1024 := by
  have hj : s.j.toNat ≤ 3 := Nat.le_of_lt_succ s.j.isLt
  have hbase : s.planeBase ≤ 3 * 256 := Nat.mul_le_mul hj h
  omega

/-- Byte `i` of what a source wrote stands `i` bytes into the plane's place. -/
theorem peek_afterSource_inside (s : State) {bs : List Byte} (m : Memory) (p : Nat) {i : Nat} (hi : i < bs.length) :
    (afterSource s bs m p).peek .res (s.planeBase + i) = bs.getD i 0 := by
  rw [peek_afterSource, if_pos (by omega), Nat.add_sub_cancel_left]

/-- Outside the plane's place RES reads as before. -/
theorem peek_afterSource_outside (s : State) {bs : List Byte} (m : Memory) (p : Nat) {a : Nat}
    (ha : ¬ (s.planeBase ≤ a ∧ a < s.planeBase + bs.length)) : (afterSource s bs m p).peek .res a = s.peek .res a := by
  rw [peek_afterSource, if_neg ha]

/-! ## The zero and the literal source -/

/-- SRC_ZERO writes the plane's zeros, with the latch and the cursor as they were (R130). -/
theorem exec_srcZero_eq {s : State} (hblk : s.blk.toNat ≤ 256) :
    exec .srcZero s = .next (afterSource s (List.replicate s.blk.toNat 0) s.grp s.pos.toNat) := by
  have hrun : exec .srcZero s = outcome (srcZero s) := rfl
  rw [hrun, srcZero_eq s (planeBase_add_blk_le hblk), outcome_ok, afterSource, BitVec.ofNat_toNat, BitVec.setWidth_eq]

/-- SRC_LITERAL, where its bytes are left, writes them in the plane's place and passes them (R131). -/
theorem exec_srcLiteral_eq {s : State} (hblk : s.blk.toNat ≤ 256) (hcap : s.len.toNat ≤ s.params.inCap)
    (hleft : s.pos.toNat + s.blk.toNat ≤ s.len.toNat) :
    exec .srcLiteral s = .next
      (afterSource s (Bytes.take (s.peek .inp) s.pos.toNat s.blk.toNat) s.grp (s.pos.toNat + s.blk.toNat)) :=
  congrArg outcome (srcLiteral_eq s (planeBase_add_blk_le hblk) hcap hleft)

/-- SRC_LITERAL, where its bytes are not left, ends the decode with TRUNC_LITERAL (R131). -/
theorem exec_srcLiteral_short {s : State} (hshort : s.len.toNat < s.pos.toNat + s.blk.toNat) :
    exec .srcLiteral s = .next (s.endDecode (some .truncLiteral)) :=
  congrArg outcome (srcLiteral_short s hshort)

/-! ## The statements -/

/-- Settles O10: the plane fits RES, so the zeros are stored whatever is left of the input. -/
theorem zeroSourceFillsThePlane : Obligations.ZeroSourceFillsThePlane := by
  intro s hblk
  refine ⟨_, exec_srcZero_eq hblk, fun i hi => ?_, fun a ha => ?_, ?_⟩
  · rw [← State.planeBase, peek_afterSource_inside s _ _ (by simpa using hi)]
    exact List.getD_replicate _ hi
  · exact peek_afterSource_outside s _ _ (by simpa [State.planeBase] using ha)
  · simp [afterSource]

/-- Settles O11, on either side of the one length test. -/
theorem literalSourceCopiesOrTruncates : Obligations.LiteralSourceCopiesOrTruncates := by
  intro s hblk hcap
  split
  case isTrue hshort =>
    exact ⟨_, exec_srcLiteral_short hshort, rfl, fun hobeyed => State.endDecode_error_record hobeyed _⟩
  case isFalse hleft =>
    have hleft : s.pos.toNat + s.blk.toNat ≤ s.len.toNat := Nat.le_of_not_lt hleft
    refine ⟨_, exec_srcLiteral_eq hblk hcap hleft, fun i hi => ?_, fun a ha => ?_, ?_, rfl⟩
    · rw [← State.planeBase, peek_afterSource_inside s _ _ (by simpa [Bytes.take] using hi)]
      simp [Bytes.take, hi]
    · exact peek_afterSource_outside s _ _ (by simpa [Bytes.take, State.planeBase] using ha)
    · have hlt : s.pos.toNat + s.blk.toNat < 2 ^ 32 := by have := s.len.isLt; omega
      exact Nat.mod_eq_of_lt hlt

/-- Settles O13: the header's check comes after the length's, which a multiple of 16 passes, and before any read. -/
theorem packedSourceNeedsItsWidthHeader : Obligations.PackedSourceNeedsItsWidthHeader := by
  intro row hrow s hwhole hlen
  exact ⟨_, exec_packedRow_of_column_raises hrow (column_raises_truncWidthHeader hwhole row.2 hlen), rfl,
    fun hobeyed => State.endDecode_error_record hobeyed _⟩

/-- Settles O15: the length is the column's first check. -/
theorem columnLengthMustBeAMultipleOfSixteen : Obligations.ColumnLengthMustBeAMultipleOfSixteen := by
  intro row hrow s n hn
  refine ⟨column_raises_badColumnLength hn row.2 s, ?_⟩
  rintro rfl
  exact exec_packedRow_of_column_raises hrow (column_raises_badColumnLength hn row.2 s)

end Sys2Proof.Machine
end

section
/-!
PROOFS. The delta reconstructor (42_delta.md): the zigzag as a signed value, the rotation and its amount, the words that
stand in a memory's bytes, and the lanes of a row, one after the other over the same residuals and seed.
-/

namespace Sys2Proof.Machine

/-! ## The zigzag arithmetic -/

/-- The formula's mask keeps the lowest bit. -/
theorem and_one_eq_ofNat {w : Nat} (v : BitVec w) : v &&& 1#w = BitVec.ofNat w (v.toNat % 2) := by
  rw [← Nat.and_one_is_mod, BitVec.ofNat_and, BitVec.ofNat_toNat, BitVec.setWidth_eq]

/-- An even word is halved. -/
theorem unzz_of_even {w : Nat} {v : BitVec w} (h : v.toNat % 2 = 0) : unzz v = v >>> 1 := by
  rw [unzz, and_one_eq_ofNat, h, BitVec.sub_zero, BitVec.xor_zero]

/-- An odd word is halved and complemented. -/
theorem unzz_of_odd {w : Nat} {v : BitVec w} (h : v.toNat % 2 = 1) : unzz v = ~~~(v >>> 1) := by
  rw [unzz, and_one_eq_ofNat, h, BitVec.zero_sub, BitVec.neg_one_eq_allOnes, BitVec.xor_allOnes]

/-- At every width the zigzag folds the sign into the lowest bit (R140, R141). -/
theorem unzz_toInt {w : Nat} (v : BitVec w) :
    (unzz v).toInt = if v.toNat % 2 = 0 then (v.toNat / 2 : Int) else -((v.toNat + 1) / 2 : Int) := by
  have hv : v.toNat < 2 ^ w := v.isLt
  have hhalf : (v >>> 1).toNat = v.toNat / 2 := by rw [BitVec.toNat_ushiftRight, Nat.shiftRight_one]
  split
  case isTrue heven =>
    rw [unzz_of_even heven, BitVec.toInt_eq_toNat_of_lt (by omega), hhalf]
    rfl
  case isFalse hodd =>
    have hnot : (~~~(v >>> 1)).toNat = 2 ^ w - 1 - v.toNat / 2 := by rw [BitVec.toNat_not, hhalf]
    rw [unzz_of_odd (by omega), BitVec.toInt_eq_toNat_cond, hnot, if_neg (by omega)]
    generalize 2 ^ w = size at hv
    omega

/-- No two words fold to the same value: even ones go to the values from 0 on, odd ones to the negative. -/
theorem unzz_injective (w : Nat) : Function.Injective (unzz (w := w)) := by
  intro v u h
  have hint : (unzz v).toInt = (unzz u).toInt := congrArg BitVec.toInt h
  rw [unzz_toInt, unzz_toInt] at hint
  apply BitVec.eq_of_toNat_eq
  split at hint
  · split at hint
    · omega
    · omega
  · split at hint
    · omega
    · omega

theorem unzz_bijective (w : Nat) : Function.Bijective (unzz (w := w)) :=
  Finite.injective_iff_bijective.mp (unzz_injective w)

/-- Settles O21: the width-16 case of the folding. -/
theorem unzz16IsTheSignedFolding : Obligations.Unzz16IsTheSignedFolding :=
  ⟨fun v => ⟨rfl, unzz_toInt v⟩, unzz_bijective 16⟩

/-- Settles O20: the width-8 case of the folding. -/
theorem unzz8IsTheSignedFolding : Obligations.Unzz8IsTheSignedFolding :=
  ⟨fun v => ⟨rfl, unzz_toInt v⟩, unzz_bijective 8⟩

/-! ## The rotation -/

/-- The rule's two shifts are a rotation left; for amount 0 both of them leave the word as it is (R142). -/
theorem rotl32_eq_rotateLeft (v : BitVec 32) {r : Nat} (h : r < 32) : rotl32 v r = v.rotateLeft r := by
  rw [rotl32, BitVec.rotateLeft_def, Nat.mod_eq_of_lt h]
  obtain rfl | hpos := Nat.eq_zero_or_pos r
  · simp [BitVec.ushiftRight_eq_zero]
  · rw [Nat.mod_eq_of_lt (by omega)]

/-- The mode stands in the two low bits of the descriptor (R84). -/
theorem channelByte_toNat (rest : BitVec 6) (mode : BitVec 2) :
    (channelByte rest mode).toNat = rest.toNat * 4 + mode.toNat := by
  rw [channelByte, BitVec.toNat_append, ← Nat.shiftLeft_add_eq_or_of_lt mode.isLt, Nat.shiftLeft_eq]

/-- The amount `(32 - ROT) mod 32`, counted in the integers, where ROT may exceed 32 (R86). -/
theorem rotAmount_eq (shift : RotShift) (d : Byte) :
    rotAmount shift d = ((32 - ((d.toNat / 2 ^ shift.bits : Nat) : Int)) % 32).toNat := by
  have hd : d.toNat < 256 := d.isLt
  have hrot : d.toNat / 2 ^ shift.bits < 64 := by
    cases shift
    case four => simp only [RotShift.bits]; omega
    case two => simp only [RotShift.bits]; omega
  rw [rotAmount, Nat.shiftRight_eq_div_pow]
  omega

/-! ## Words in a memory's bytes -/

theorem leNat_append (bs cs : List Byte) : leNat (bs ++ cs) = leNat bs + 256 ^ bs.length * leNat cs := by
  induction bs with
  | nil => simp [leNat]
  | cons b bs ih =>
    simp only [List.cons_append, leNat, ih, List.length_cons]
    ring

/-- The little-endian number of `n` bytes, byte `m` counting `256 ^ m` (R50). -/
theorem leNat_map_range (n : Nat) (b : Nat → Byte) :
    leNat ((List.range n).map b) = ((List.range n).map fun m => (b m).toNat * 256 ^ m).sum := by
  induction n with
  | zero => rfl
  | succ n ih =>
    rw [List.sum_range_succ, ← ih, List.range_succ, List.map_append, leNat_append]
    simp [leNat, Nat.mul_comm]

/-- The word of the statements is the model's lane word of the same bytes. -/
theorem wordAt_eq_laneWord (s : State) (sp : Space) (w n : Nat) (offset : Nat → Nat) :
    wordAt s sp w n offset = laneWord w ((List.range n).map fun m => s.peek sp (offset m)) := by
  rw [wordAt, laneWord, leNat_map_range]

/-- A word is decided by its own `n` bytes. -/
theorem wordAt_congr {s t : State} {sp : Space} {w n : Nat} {offset : Nat → Nat}
    (h : ∀ x < n, s.peek sp (offset x) = t.peek sp (offset x)) : wordAt s sp w n offset = wordAt t sp w n offset := by
  rw [wordAt_eq_laneWord, wordAt_eq_laneWord]
  congr 1
  exact List.map_congr_left fun x hx => h x (List.mem_range.mp hx)

/-- A word of one byte is that byte. -/
theorem wordAt_one (s : State) (sp : Space) (offset : Nat → Nat) : wordAt s sp 8 1 offset = s.peek sp (offset 0) := by
  simp [wordAt]

theorem leNat_laneBytes {w : Nat} (n : Nat) (v : BitVec w) : leNat (laneBytes n v) = v.toNat % 256 ^ n := by
  induction n with
  | zero => simp [laneBytes, leNat, Nat.mod_one]
  | succ n ih =>
    have hlast : laneBytes (n + 1) v = laneBytes n v ++ [v.extractLsb' (8 * n) 8] := by
      simp [laneBytes, List.range_succ]
    rw [hlast, leNat_append, ih, laneBytes_length, Nat.mod_pow_succ]
    simp [leNat, BitVec.extractLsb'_toNat, Nat.shiftRight_eq_div_pow, Nat.pow_mul]

/-- A word's bytes, all of them, make up the word again (R143, R151). -/
theorem laneWord_laneBytes {w n : Nat} (hw : w = 8 * n) (v : BitVec w) : laneWord w (laneBytes n v) = v := by
  have hpow : 2 ^ w = 256 ^ n := by rw [hw, Nat.pow_mul]
  have hlt : v.toNat < 256 ^ n := hpow ▸ v.isLt
  rw [laneWord, leNat_laneBytes, Nat.mod_eq_of_lt hlt, BitVec.ofNat_toNat, BitVec.setWidth_eq]

/-! ## One lane -/

/-- A lane of `n` bytes, word by word: its words of TR are its values, and bytes outside them are as before (R151). -/
theorem deltaLane_words {w n : Nat} (hw : w = 8 * n) (k : Nat) (f : BitVec w → BitVec w → BitVec w) (s : State)
    (hk : k + n ≤ 4) (hfit : DeltaFits s) :
    ∃ m, deltaLane n k f s = .ok (s.setMem .tr m) ∧
      (∀ e < s.blk.toNat, wordAt (s.setMem .tr m) .tr w n (fun x => e * s.es.toNat + s.g.toNat + k + x) =
        (laneValues n k f s).getD e 0) ∧
      (∀ a, (∀ e < s.blk.toNat, ∀ x < n, a ≠ e * s.es.toNat + s.g.toNat + k + x) →
        (s.setMem .tr m).peek .tr a = s.peek .tr a) := by
  obtain ⟨m, hrun, hinside, houtside⟩ := deltaLane_peek n k f s hk hfit
  refine ⟨m, hrun, fun e he => ?_, houtside⟩
  have hbytes : ((List.range n).map fun x => (s.setMem .tr m).peek .tr (e * s.es.toNat + s.g.toNat + k + x)) =
      laneBytes n ((laneValues n k f s).getD e 0) := by
    refine List.map_congr_left fun x hx => ?_
    have hx : x < n := List.mem_range.mp hx
    exact (hinside e he x hx).trans (by simp [laneBytes, hx])
  rw [wordAt_eq_laneWord, hbytes, laneWord_laneBytes hw]

/-- A lane's value from words of RES and LAST and the value before it (R143, R150). -/
theorem laneValues_words {w n k : Nat} (f : BitVec w → BitVec w → BitVec w) {s : State} {e : Nat}
    (he : e < s.blk.toNat) :
    (laneValues n k f s).getD e 0 =
      f (wordAt s .res w n fun x => (k + x) * s.blk.toNat + e)
        (if e = 0 then wordAt s .last w n fun x => s.g.toNat + k + x else (laneValues n k f s).getD (e - 1) 0) := by
  rw [laneValues_getD n k f s e he, wordAt_eq_laneWord, wordAt_eq_laneWord]
  rfl

/-! ## The lanes of a row -/

/-- The first `c` lanes of a row with lanes of `n` bytes, one after the other (R149). -/
def deltaLanes {w : Nat} (n : Nat) (f : BitVec w → BitVec w → BitVec w) : Nat → State → Run State
  | 0, s => .ok s
  | c + 1, s => deltaLanes n f c s >>= deltaLane n (n * c) f

/-- What the first `c` lanes of `n` bytes leave in TR, from the state `s` before them: each word of a lane comes from
its residual word in RES and the word before it, the seed's in LAST for the first (R143, R150), and the rest of TR is as
before (R151). -/
structure LanesWritten {w : Nat} (n : Nat) (f : BitVec w → BitVec w → BitVec w) (s : State) (c : Nat) (m : Memory) :
    Prop where
  word : ∀ e < s.blk.toNat, ∀ l < c,
    wordAt (s.setMem .tr m) .tr w n (fun x => e * s.es.toNat + s.g.toNat + n * l + x) =
      f (wordAt s .res w n fun x => (n * l + x) * s.blk.toNat + e)
        (if e = 0 then wordAt s .last w n fun x => s.g.toNat + n * l + x
          else wordAt (s.setMem .tr m) .tr w n fun x => (e - 1) * s.es.toNat + s.g.toNat + n * l + x)
  rest : ∀ a, (∀ e < s.blk.toNat, ∀ k < n * c, a ≠ e * s.es.toNat + s.g.toNat + k) →
    (s.setMem .tr m).peek .tr a = s.peek .tr a

/-- TR is no part of what makes a block fit. -/
theorem DeltaFits.setMem_tr {s : State} (h : DeltaFits s) (m : Memory) : DeltaFits (s.setMem .tr m) :=
  ⟨h.blk, h.group, h.element, h.block⟩

/-- Two bytes of component groups of any two elements coincide only at the same place in the group. -/
theorem groupByte_ne {es g k k' : Nat} (hg : g + 4 ≤ es) (hk : k < 4) (hk' : k' < 4) (hne : k ≠ k') (e e' : Nat) :
    e * es + g + k ≠ e' * es + g + k' := by
  intro h
  have hmod : (es * e + (g + k)) % es = (es * e' + (g + k')) % es := by
    congr 1
    linarith
  rw [Nat.mul_add_mod, Nat.mul_add_mod, Nat.mod_eq_of_lt (by omega), Nat.mod_eq_of_lt (by omega)] at hmod
  omega

/-- The next lane keeps the lanes before it, which lie in other bytes of each group, and reads the same residuals and
seed. -/
theorem LanesWritten.succ {w n c : Nat} (hw : w = 8 * n) {f : BitVec w → BitVec w → BitVec w} {s : State} {m : Memory}
    (hfit : DeltaFits s) (hc : n * (c + 1) ≤ 4) (h : LanesWritten n f s c m) :
    ∃ m', deltaLane n (n * c) f (s.setMem .tr m) = .ok (s.setMem .tr m') ∧ LanesWritten n f s (c + 1) m' := by
  rw [Nat.mul_succ] at hc
  obtain ⟨m', hrun, hwords, hrest⟩ := deltaLane_words hw (n * c) f (s.setMem .tr m) hc (hfit.setMem_tr m)
  simp only [State.setMem_setMem, State.setMem_blk, State.setMem_es, State.setMem_g] at hrun hwords hrest
  have hearlier : ∀ l < c, ∀ e,
      wordAt (s.setMem .tr m') .tr w n (fun x => e * s.es.toNat + s.g.toNat + n * l + x) =
        wordAt (s.setMem .tr m) .tr w n fun x => e * s.es.toNat + s.g.toNat + n * l + x := by
    intro l hl e
    have hbelow : n * l + n ≤ n * c := Nat.mul_le_mul_left n hl
    refine wordAt_congr fun x hx => hrest _ fun e' _ x' hx' => ?_
    rw [Nat.add_assoc _ (n * l), Nat.add_assoc _ (n * c)]
    exact groupByte_ne hfit.group (by omega) (by omega) (by omega) e e'
  refine ⟨m', hrun, fun e he l hl => ?_, fun a ha => ?_⟩
  · obtain hl | rfl := Nat.lt_succ_iff_lt_or_eq.mp hl
    · rw [hearlier l hl, hearlier l hl]
      exact h.word e he l hl
    · have hvalue := laneValues_words (n := n) (k := n * l) f (s := s.setMem .tr m) he
      rw [hwords e he, hvalue]
      congr 1
      split
      · rfl
      · rw [hwords (e - 1) (by omega)]
  · rw [hrest a fun e he x hx => ?_, h.rest a fun e he k hk => ha e he k (by rw [Nat.mul_succ]; omega)]
    rw [Nat.add_assoc _ (n * c)]
    exact ha e he (n * c + x) (by rw [Nat.mul_succ]; omega)

/-- Where the block fits, the first `c` lanes run, and TR alone changes. -/
theorem deltaLanes_written {w n : Nat} (hw : w = 8 * n) (f : BitVec w → BitVec w → BitVec w) {s : State}
    (hfit : DeltaFits s) (c : Nat) (hc : n * c ≤ 4) :
    ∃ m, deltaLanes n f c s = .ok (s.setMem .tr m) ∧ LanesWritten n f s c m := by
  induction c with
  | zero => exact ⟨s.tr, rfl, fun e _ l hl => absurd hl (Nat.not_lt_zero l), fun _ _ => rfl⟩
  | succ c ih =>
    obtain ⟨m, hrun, hwritten⟩ := ih (by rw [Nat.mul_succ] at hc; omega)
    obtain ⟨m', hlane, hwritten'⟩ := hwritten.succ hw hfit hc
    exact ⟨m', by rw [deltaLanes, hrun, run_bind_ok, hlane], hwritten'⟩

/-- Lanes that fill the group of four bytes change the group's bytes of TR and nothing else (R151). -/
theorem LanesWritten.onlyTheGroupsBytesOfTr {w n c : Nat} {f : BitVec w → BitVec w → BitVec w} {s : State} {m : Memory}
    (hc : n * c = 4) (h : LanesWritten n f s c m) : OnlyTheGroupsBytesOfTr s (s.setMem .tr m) :=
  ⟨fun a ha => h.rest a (hc ▸ ha), rfl⟩

/-! ## The statements -/

/-- Both rows of DELTA_ZZ8 are the four byte lanes, whatever the descriptor's bits 7:2 (R90, R144). -/
theorem exec_deltaZz8Row {i : Instr} (hi : i = .deltaZz8V0 ∨ ∃ rest, i = .deltaZz8 rest) (s : State) :
    exec i s = outcome (deltaLanes 1 (fun v p => unzz8 v + p) 4 s) := by
  have hlanes : zigzag8 s = deltaLanes 1 (fun v p => unzz8 v + p) 4 s := by
    simp only [zigzag8, deltaLanes, run_bind_ok, bind_assoc]
  rw [← hlanes]
  obtain rfl | ⟨rest, rfl⟩ := hi
  · rfl
  · rfl

/-- DELTA_ZZ16 is the two 16-bit lanes, whatever the descriptor's bits 7:2 (R90, R145). -/
theorem exec_deltaZz16 (rest : BitVec 6) (s : State) :
    exec (.deltaZz16 rest) s = outcome (deltaLanes 2 (fun v p => unzz16 v + p) 2 s) := rfl

/-- DELTA_RXOR32 is the one 32-bit lane, each residual word rotated left by the descriptor's amount (R86, R146). -/
theorem exec_deltaRxor32 (rest : BitVec 6) (s : State) {r : Nat}
    (hr : r = rotAmount s.params.rotShift (channelByte rest 2#2)) :
    exec (.deltaRxor32 rest) s = outcome (deltaLanes (w := 32) 4 (fun v p => v.rotateLeft r ^^^ p) 1 s) := by
  have hlt : r < 32 := hr ▸ Nat.mod_lt _ (by decide)
  have hrotl : (fun v p : BitVec 32 => v.rotateLeft r ^^^ p) = fun v p => rotl32 v r ^^^ p := by
    funext v p
    rw [rotl32_eq_rotateLeft v hlt]
  rw [hrotl, hr]
  rfl

/-- Settles O16: the four lanes of one byte. -/
theorem zigzag8AddsResidualsPerByte : Obligations.Zigzag8AddsResidualsPerByte := by
  intro i hi s hfit
  obtain ⟨m, hrun, hwritten⟩ := deltaLanes_written (w := 8) (n := 1) rfl (fun v p => unzz8 v + p) hfit 4 (by decide)
  refine ⟨_, by rw [exec_deltaZz8Row hi, hrun, outcome_ok], hwritten.onlyTheGroupsBytesOfTr rfl, fun e he k hk => ?_⟩
  simpa only [wordAt_one, Nat.one_mul, Nat.add_zero] using hwritten.word e he k hk

/-- Settles O17: the two lanes of two bytes. -/
theorem zigzag16AddsResidualsPerLane : Obligations.Zigzag16AddsResidualsPerLane := by
  intro rest s hfit
  obtain ⟨m, hrun, hwritten⟩ := deltaLanes_written (w := 16) (n := 2) rfl (fun v p => unzz16 v + p) hfit 2 (by decide)
  exact ⟨_, by rw [exec_deltaZz16, hrun, outcome_ok], hwritten.onlyTheGroupsBytesOfTr rfl, hwritten.word⟩

/-- Settles O18: the one lane of four bytes, with the rule's rotation. -/
theorem rotateXorChainsTheWholeWord : Obligations.RotateXorChainsTheWholeWord := by
  intro rest s hfit rot r
  have hr : r = rotAmount s.params.rotShift (channelByte rest 2#2) := by
    rw [rotAmount_eq, channelByte_toNat]
    rfl
  obtain ⟨m, hrun, hwritten⟩ :=
    deltaLanes_written (w := 32) (n := 4) rfl (fun v p => v.rotateLeft r ^^^ p) hfit 1 (by decide)
  refine ⟨_, by rw [exec_deltaRxor32 rest s hr, hrun, outcome_ok], hwritten.onlyTheGroupsBytesOfTr rfl, fun e he => ?_⟩
  simpa only [Nat.mul_zero, Nat.add_zero, Nat.zero_add] using hwritten.word e he 0 (by decide)

end Sys2Proof.Machine
end

section
/-!
PROOFS. The block sequencer (43_sequencer.md): the header byte's checks, the tail's and the block's sizes, the control
region, the commit of a block and the check of the trailing bytes.
-/

namespace Sys2Proof.Machine

/-! ## The header (R161) -/

/-- The high nibble of a byte is the byte over 16. -/
theorem highNibble_toNat (b : Byte) : (b.extractLsb' 4 4).toNat = b.toNat / 16 := by
  have hlt : b.toNat / 16 < 16 := by have := b.isLt; omega
  rw [BitVec.extractLsb'_toNat, Nat.shiftRight_eq_div_pow]
  exact Nat.mod_eq_of_lt hlt

/-- The low nibble of a byte is the byte modulo 16. -/
theorem lowNibble_toNat (b : Byte) : (b.extractLsb' 0 4).toNat = b.toNat % 16 := by
  rw [BitVec.extractLsb'_toNat, Nat.shiftRight_zero]

/-- A byte whose magic is not 0xA is HDR_BAD_MAGIC, whatever its version nibble (R88). -/
theorem decodeHeader_of_magic_ne {b : Byte} (hmagic : b.toNat / 16 ≠ 0xA) : decodeHeader b = .hdrBadMagic b := by
  have hne : b.extractLsb' 4 4 ≠ vertexMagic := fun h => hmagic (by rw [← highNibble_toNat, h]; rfl)
  exact if_neg hne

/-- With the magic 0xA, the header's row is chosen by the version nibble alone (R71). -/
theorem decodeHeader_of_magic {b : Byte} (hmagic : b.toNat / 16 = 0xA) :
    decodeHeader b =
      if b.toNat % 16 = 0 then .hdrV0
      else if b.toNat % 16 = 1 then .hdrV1
      else .hdrBadVersion (b.extractLsb' 0 4) := by
  have heq : b.extractLsb' 4 4 = vertexMagic := BitVec.eq_of_toNat_eq (by rw [highNibble_toNat, hmagic]; rfl)
  simp only [decodeHeader, heq, if_true, ← BitVec.toNat_inj, lowNibble_toNat]
  rfl

/-- A version above 1 is HDR_BAD_VERSION (R88). -/
theorem decodeHeader_of_version_gt {b : Byte} (hmagic : b.toNat / 16 = 0xA) (hversion : 1 < b.toNat % 16) :
    decodeHeader b = .hdrBadVersion (b.extractLsb' 0 4) := by
  rw [decodeHeader_of_magic hmagic, if_neg (by omega), if_neg (by omega)]

/-- A header of version 0 or 1 is accepted with that version, the byte's bit 0 (R161). -/
theorem runHeader_of_version_le {b : Byte} (hmagic : b.toNat / 16 = 0xA) (hversion : b.toNat % 16 ≤ 1) (s : State) :
    runHeader (decodeHeader b) s = acceptHeader (BitVec.ofNat 1 b.toNat) s := by
  rw [decodeHeader_of_magic hmagic]
  obtain h0 | h1 : b.toNat % 16 = 0 ∨ b.toNat % 16 = 1 := by omega
  · have hbit : BitVec.ofNat 1 b.toNat = 0 := BitVec.eq_of_toNat_eq (by simp; omega)
    rw [if_pos h0, hbit]
    rfl
  · have hbit : BitVec.ofNat 1 b.toNat = 1 := BitVec.eq_of_toNat_eq (by simp; omega)
    rw [if_neg (by omega), if_pos h1, hbit]
    rfl

/-- The HDR step of an empty buffer raises EMPTY before the header is read (R161). -/
theorem exec_hdr_empty {s : State} (hlen : s.len.toNat < 1) : exec .hdr s = .next (s.endDecode (some .empty)) :=
  congrArg outcome (if_pos hlen)

/-- The HDR step of a buffer with a byte runs the row of that byte (R71, R161). -/
theorem exec_hdr_eq {s : State} (hlen : ¬ s.len.toNat < 1) (hcap : s.len.toNat ≤ s.params.inCap) :
    exec .hdr s = outcome (runHeader (decodeHeader (s.peek .inp 0)) s) := by
  have hhdr : hdr s = runHeader (decodeHeader (s.peek .inp 0)) s := by
    rw [hdr, if_neg hlen, State.load_eq (by rw [State.size_inp]; omega)]
    rfl
  exact congrArg outcome hhdr

/-! ## The tail (R162, R163) -/

/-- What the element size test accepts (R160). -/
theorem legalElemSize_iff (es : Nat) : legalElemSize es = true ↔ 4 ≤ es ∧ es ≤ 256 ∧ es % 4 = 0 := by
  simp only [legalElemSize, Bool.and_eq_true, decide_eq_true_eq, beq_iff_eq, and_assoc]
  rfl

/-- The padded tail of a legal element size fits its register (R35, R162). -/
theorem tailPadded_lt {es : Nat} (hes : es ≤ 256) (ver : BitVec 1) : tailPadded ver es < 2 ^ 9 := by
  simp only [tailPadded, tailSize, tailMinV0, tailMinV1]
  split
  · omega
  · omega

/-- Without room for the padded tail, TAIL raises SHORT_TAIL with the two sizes set and nothing read (R163). -/
theorem exec_tail_short {s : State} (hes : s.es.toNat ≤ 256)
    (hshort : s.len.toNat < s.pos.toNat + tailPadded s.ver s.es.toNat) :
    exec .tail s = .next ((tailSizes s).endDecode (some .shortTail)) := by
  have htp : (tailSizes s).tp.toNat = tailPadded s.ver s.es.toNat := Nat.mod_eq_of_lt (tailPadded_lt hes s.ver)
  have htail : tail s = raise .shortTail (tailSizes s) := if_pos (by rw [htp]; exact hshort)
  exact congrArg outcome htail

/-! ## The block's sizes (R166, R167) -/

/-- A block of the capacity's elements fits, as the capacity is at most `floor(8192/es)` (R166, R180). -/
theorem blockCap_mul_le (es : Nat) : blockCap es * es ≤ 8192 := by
  have hcap : blockCap es ≤ 8192 / es := (min_le_right _ _).trans (Nat.div_mul_le_self _ _)
  exact (Nat.mul_le_mul_right es hcap).trans (Nat.div_mul_le_self _ _)

/-- No larger multiple of 16 up to 256 fits (R166). -/
theorem le_blockCap {es n : Nat} (hes : 0 < es) (hn : n % 16 = 0) (hmax : n ≤ 256) (hfit : n * es ≤ 8192) :
    n ≤ blockCap es := by
  have hdiv : n ≤ 8192 / es := (Nat.le_div_iff_mul_le hes).mpr hfit
  simp only [blockCap, blockMax, blockBytes]
  omega

/-- Both sides of the cap at 256 are multiples of 16 (R166). -/
theorem blockCap_mod (es : Nat) : blockCap es % 16 = 0 := by
  simp only [blockCap, blockMax, blockBytes]
  omega

/-- How many elements the next block has (R167). -/
def State.blockCount (s : State) : Nat := min s.cap.toNat (s.cnt.toNat - s.done.toNat)

/-- The block's count, under a capacity of at most 256, fits its register (R35, R167). -/
theorem blockSizes_blk_toNat {s : State} (hcap : s.cap.toNat ≤ 256) : (blockSizes s).blk.toNat = s.blockCount := by
  have hlt : s.blockCount < 2 ^ 9 := by simp only [State.blockCount]; omega
  exact Nat.mod_eq_of_lt hlt

/-- So does its aligned count. -/
theorem blockSizes_blkAligned_toNat {s : State} (hcap : s.cap.toNat ≤ 256) :
    (blockSizes s).blkAligned.toNat = (s.blockCount + 15) / 16 * 16 := by
  have hlt : (s.blockCount + 15) / 16 * 16 < 2 ^ 9 := by simp only [State.blockCount]; omega
  exact Nat.mod_eq_of_lt hlt

/-! ## Copies between memories -/

@[simp] theorem Bytes.take_length (m : Bytes) (a n : Nat) : (Bytes.take m a n).length = n := by simp [Bytes.take]

/-- Byte `k` of a run of bytes taken from `a` on. -/
theorem Bytes.take_getD (m : Bytes) (a : Nat) {n k : Nat} (hk : k < n) : (Bytes.take m a n).getD k 0 = m (a + k) := by
  simp [Bytes.take, hk]

/-- Byte `k` of what was written stands `k` bytes into its place. -/
theorem State.peek_write_inside (s : State) (sp : Space) (a : Nat) {bs : List Byte} {k : Nat} (hk : k < bs.length) :
    (s.setMem sp (Memory.write a bs (s.mem sp))).peek sp (a + k) = bs.getD k 0 := by
  rw [State.peek_setMem_write, if_pos ⟨rfl, by omega, by omega⟩, Nat.add_sub_cancel_left]

/-- Outside its place the memory reads as before. -/
theorem State.peek_write_outside (s : State) (sp : Space) {a x : Nat} {bs : List Byte}
    (hx : ¬ (a ≤ x ∧ x < a + bs.length)) : (s.setMem sp (Memory.write a bs (s.mem sp))).peek sp x = s.peek sp x := by
  rw [State.peek_setMem_write, if_neg fun h => hx h.2]

/-! ## The control region (R168) -/

/-- The control bytes of the next block: zeros in version 0, the stream's `es/4` bytes at the cursor in version 1. -/
def State.controlBytes (s : State) : List Byte :=
  if s.ver = 0 then List.replicate (s.es.toNat / 4) 0 else Bytes.take (s.peek .inp) s.pos.toNat (s.es.toNat / 4)

/-- How many bytes of the stream the control region takes. -/
def State.controlLength (s : State) : Nat := if s.ver = 0 then 0 else s.es.toNat / 4

@[simp] theorem State.controlBytes_length (s : State) : s.controlBytes.length = s.es.toNat / 4 := by
  unfold State.controlBytes
  split
  · exact List.length_replicate
  · exact Bytes.take_length _ _ _

/-- Each control byte is a zero or a byte of the stream. -/
theorem State.controlBytes_getD (s : State) {q : Nat} (hq : q < s.es.toNat / 4) :
    s.controlBytes.getD q 0 = if s.ver = 0 then 0 else s.peek .inp (s.pos.toNat + q) := by
  unfold State.controlBytes
  split
  · exact List.getD_replicate _ hq
  · exact Bytes.take_getD _ _ hq

/-- With its bytes left, the control region fills CTL and the cursor passes what it took, and nothing else changes. -/
theorem controlRegion_eq {s : State} (hes : s.es.toNat ≤ 256) (hcap : s.len.toNat ≤ s.params.inCap)
    (hleft : ¬ (s.ver = 1 ∧ s.len.toNat < s.pos.toNat + s.es.toNat / 4)) :
    controlRegion s = .ok { s with
      ctl := Memory.write 0 s.controlBytes s.ctl
      pos := BitVec.ofNat 32 (s.pos.toNat + s.controlLength) } := by
  have hstore : s.store .ctl 0 s.controlBytes = .ok { s with ctl := Memory.write 0 s.controlBytes s.ctl } :=
    State.store_eq (by rw [State.controlBytes_length, State.size_ctl]; omega)
  by_cases hver : s.ver = 0
  · simp only [State.controlBytes, if_pos hver] at hstore ⊢
    simp only [controlRegion, State.controlLength, if_pos hver, hstore, Nat.add_zero, BitVec.ofNat_toNat,
      BitVec.setWidth_eq]
  · have hver1 : s.ver = 1 := by bv_omega
    have hfit : ¬ s.len.toNat < s.pos.toNat + s.es.toNat / 4 := fun h => hleft ⟨hver1, h⟩
    have hload : s.load .inp s.pos.toNat (s.es.toNat / 4) = .ok s.controlBytes := by
      rw [State.controlBytes, if_neg hver]
      exact State.load_eq (by rw [State.size_inp]; omega)
    simp only [controlRegion, State.controlLength, if_neg hver, if_neg hfit, hload, run_bind_ok, hstore]

/-- In version 1, with too few bytes left, the control region raises TRUNC_CONTROL and changes nothing. -/
theorem controlRegion_short {s : State} (hver : s.ver = 1) (hshort : s.len.toNat < s.pos.toNat + s.es.toNat / 4) :
    controlRegion s = raise .truncControl s := by
  have hver0 : s.ver ≠ 0 := by rw [hver]; decide
  exact (if_neg hver0).trans (if_pos hshort)

/-- The state after BLK: the sizes, the control bytes, group and plane 0 (R167, R168). -/
def afterBlk (s : State) : State :=
  { blockSizes s with
    ctl := Memory.write 0 s.controlBytes s.ctl
    pos := BitVec.ofNat 32 (s.pos.toNat + s.controlLength)
    g := 0, j := 0, st := .plane }

/-- BLK, where its control bytes are left. -/
theorem exec_blk_eq {s : State} (hes : s.es.toNat ≤ 256) (hcap : s.len.toNat ≤ s.params.inCap)
    (hleft : ¬ (s.ver = 1 ∧ s.len.toNat < s.pos.toNat + s.es.toNat / 4)) :
    exec .blk s = .next (afterBlk s) := by
  have hrun : blkStart s = .ok (afterBlk s) := by
    rw [blkStart, controlRegion_eq (s := blockSizes s) hes hcap hleft]
    rfl
  exact congrArg outcome hrun

/-- BLK, where they are not, raises TRUNC_CONTROL with the block's sizes set. -/
theorem exec_blk_short {s : State} (hver : s.ver = 1) (hshort : s.len.toNat < s.pos.toNat + s.es.toNat / 4) :
    exec .blk s = .next ((blockSizes s).endDecode (some .truncControl)) := by
  have hrun : blkStart s = raise .truncControl (blockSizes s) := by
    rw [blkStart, controlRegion_short (s := blockSizes s) hver hshort, run_bind_raise]
  exact congrArg outcome hrun

/-- The cursor after BLK stays within `len`, so it does not wrap. -/
theorem afterBlk_pos_toNat {s : State} (hleft : ¬ (s.ver = 1 ∧ s.len.toNat < s.pos.toNat + s.es.toNat / 4)) :
    (afterBlk s).pos.toNat = if s.ver = 0 then s.pos.toNat else s.pos.toNat + s.es.toNat / 4 := by
  have hpos : (afterBlk s).pos = BitVec.ofNat 32 (s.pos.toNat + s.controlLength) := rfl
  rw [hpos, State.controlLength]
  split
  case isTrue => simp
  case isFalse hver =>
    have hfit : s.pos.toNat + s.es.toNat / 4 ≤ s.len.toNat := Nat.le_of_not_lt fun h => hleft ⟨by bv_omega, h⟩
    have hlt : s.pos.toNat + s.es.toNat / 4 < 2 ^ 32 := by have := s.len.isLt; omega
    exact Nat.mod_eq_of_lt hlt

/-- CTL after BLK: byte `q` of the control region in its place. -/
theorem peek_afterBlk_inside (s : State) {q : Nat} (hq : q < s.es.toNat / 4) :
    (afterBlk s).peek .ctl q = if s.ver = 0 then 0 else s.peek .inp (s.pos.toNat + q) := by
  have h := s.peek_write_inside .ctl 0 (bs := s.controlBytes) (k := q) (by simpa using hq)
  rw [Nat.zero_add, s.controlBytes_getD hq] at h
  exact h

/-- CTL after BLK: beyond the control region it reads as before. -/
theorem peek_afterBlk_outside (s : State) {a : Nat} (ha : s.es.toNat / 4 ≤ a) :
    (afterBlk s).peek .ctl a = s.peek .ctl a :=
  s.peek_write_outside .ctl (a := 0) (bs := s.controlBytes) (by rw [State.controlBytes_length]; omega)

/-! ## The commit (R172) -/

/-- The state after COMMIT: the block's bytes of TR in OUT, its last element in LAST, its elements counted (R172). -/
def afterCommit (s : State) : State :=
  { s with
    out := Memory.write (s.done.toNat * s.es.toNat) (Bytes.take (s.peek .tr) 0 (s.blk.toNat * s.es.toNat)) s.out
    last := Memory.write 0 (Bytes.take (s.peek .tr) ((s.blk.toNat - 1) * s.es.toNat) s.es.toNat) s.last
    done := BitVec.ofNat 32 (s.done.toNat + s.blk.toNat)
    st := nextBlock { s with done := BitVec.ofNat 32 (s.done.toNat + s.blk.toNat) } }

/-- COMMIT of a block that fits TR and what is left of OUT (R172). -/
theorem exec_commit_eq {s : State} (hblk : 1 ≤ s.blk.toNat) (htr : s.blk.toNat * s.es.toNat ≤ 8192)
    (hes : s.es.toNat ≤ 256)
    (hout : s.done.toNat * s.es.toNat + s.blk.toNat * s.es.toNat ≤ s.params.outCap) :
    exec .commit s = .next (afterCommit s) := by
  have hlastRow : (s.blk.toNat - 1) * s.es.toNat + s.es.toNat = s.blk.toNat * s.es.toNat := by
    rw [← Nat.succ_mul, Nat.succ_eq_add_one, Nat.sub_add_cancel hblk]
  have hrun : commit s = .ok (afterCommit s) := by
    rw [commit, State.load_eq (by rw [State.size_tr]; omega), run_bind_ok, State.store_eq (by simpa using hout),
      run_bind_ok, State.load_eq (by rw [State.size_setMem, State.size_tr]; omega), run_bind_ok,
      State.store_eq (by simpa using hes)]
    rfl
  exact congrArg outcome hrun

/-- The count of committed elements stays within `cnt`, so it does not wrap. -/
theorem afterCommit_done_toNat {s : State} (hcnt : s.done.toNat + s.blk.toNat ≤ s.cnt.toNat) :
    (afterCommit s).done.toNat = s.done.toNat + s.blk.toNat := by
  have hlt : s.done.toNat + s.blk.toNat < 2 ^ 32 := by have := s.cnt.isLt; omega
  exact Nat.mod_eq_of_lt hlt

/-- OUT after COMMIT: the block's bytes of TR, from `done·es` on. -/
theorem peek_afterCommit_out_inside (s : State) {k : Nat} (hk : k < s.blk.toNat * s.es.toNat) :
    (afterCommit s).peek .out (s.done.toNat * s.es.toNat + k) = s.peek .tr k := by
  have h := s.peek_write_inside .out (s.done.toNat * s.es.toNat)
    (bs := Bytes.take (s.peek .tr) 0 (s.blk.toNat * s.es.toNat)) (by simpa using hk)
  rw [Bytes.take_getD _ _ hk, Nat.zero_add] at h
  exact h

/-- OUT after COMMIT: outside the block's place it reads as before. -/
theorem peek_afterCommit_out_outside (s : State) {a : Nat}
    (ha : ¬ (s.done.toNat * s.es.toNat ≤ a ∧ a < s.done.toNat * s.es.toNat + s.blk.toNat * s.es.toNat)) :
    (afterCommit s).peek .out a = s.peek .out a :=
  s.peek_write_outside .out (bs := Bytes.take (s.peek .tr) 0 (s.blk.toNat * s.es.toNat)) (by simpa using ha)

/-- LAST after COMMIT: the bytes of the block's last element. -/
theorem peek_afterCommit_last_inside (s : State) {k : Nat} (hk : k < s.es.toNat) :
    (afterCommit s).peek .last k = s.peek .tr ((s.blk.toNat - 1) * s.es.toNat + k) := by
  have h := s.peek_write_inside .last 0
    (bs := Bytes.take (s.peek .tr) ((s.blk.toNat - 1) * s.es.toNat) s.es.toNat) (by simpa using hk)
  rw [Bytes.take_getD _ _ hk, Nat.zero_add] at h
  exact h

/-- LAST after COMMIT: beyond the element size it reads as before. -/
theorem peek_afterCommit_last_outside (s : State) {a : Nat} (ha : s.es.toNat ≤ a) :
    (afterCommit s).peek .last a = s.peek .last a :=
  s.peek_write_outside .last (a := 0)
    (bs := Bytes.take (s.peek .tr) ((s.blk.toNat - 1) * s.es.toNat) s.es.toNat) (by simpa using ha)

/-! ## The trailing bytes (R174, R175) -/

/-- FINAL with exactly the padded tail left ends the decode with success. -/
theorem exec_final_eq {s : State} (hlen : s.len.toNat = s.pos.toNat + s.tp.toNat) :
    exec .final s = .next (s.endDecode none) :=
  congrArg outcome (if_neg (not_not_intro hlen))

/-- FINAL with more or fewer bytes left raises TRAILING_MISMATCH. -/
theorem exec_final_mismatch {s : State} (hlen : s.len.toNat ≠ s.pos.toNat + s.tp.toNat) :
    exec .final s = .next (s.endDecode (some .trailingMismatch)) :=
  congrArg outcome (if_pos hlen)

/-! ## The statements -/

/-- Settles O23: the magic is tested before the version, as the decoder takes the bad magic's row first. -/
theorem headerStepChecksInOrder : Obligations.HeaderStepChecksInOrder := by
  intro s hcap h
  split
  case isTrue hempty => exact exec_hdr_empty hempty
  case isFalse hlen =>
    rw [exec_hdr_eq hlen hcap]
    split
    case isTrue hmagic =>
      rw [decodeHeader_of_magic_ne hmagic]
      rfl
    case isFalse hnotBad =>
      have hmagic : (s.peek .inp 0).toNat / 16 = 0xA := not_not.mp hnotBad
      split
      case isTrue hversion =>
        rw [decodeHeader_of_version_gt hmagic hversion]
        rfl
      case isFalse hversion =>
        rw [runHeader_of_version_le hmagic (Nat.le_of_not_lt hversion)]
        rfl

/-- Settles O29: the sizes do not wrap, so the test is the rule's, and it comes before the seed is read. -/
theorem shortTailRaises : Obligations.ShortTailRaises := by
  intro s hlegal ts tp hshort
  obtain ⟨-, hes, -⟩ := (legalElemSize_iff _).mp hlegal
  refine ⟨_, exec_tail_short hes hshort, by simp, by simp, by simp, rfl, fun hobeyed => ?_⟩
  exact (State.endDecode_error_record (s := tailSizes s) hobeyed .shortTail).symm

/-- Settles O30: 32 elements of any legal size fit, so the capacity, which is the largest that does, is no less. -/
theorem blockCapacityIsTheLargestThatFits : Obligations.BlockCapacityIsTheLargestThatFits := by
  intro es hlegal
  obtain ⟨hmin, hmax, -⟩ := (legalElemSize_iff es).mp hlegal
  have hpos : 0 < es := by omega
  exact ⟨blockCap_mod es, le_blockCap hpos (by decide) (by decide) (by omega), min_le_left _ _, blockCap_mul_le es,
    fun _ hn hcap hfit => le_blockCap hpos hn hcap hfit⟩

/-- Settles O31: version 1 with too few bytes left on one side, the filled control region on the other. -/
theorem blockStartReadsTheControlRegion : Obligations.BlockStartReadsTheControlRegion := by
  intro s hes hblockCap hcap b n
  split
  case isTrue hshort =>
    obtain ⟨hver, hshort⟩ := hshort
    refine ⟨_, exec_blk_short hver hshort, by simp, rfl, fun hobeyed => ?_⟩
    exact (State.endDecode_error_record (s := blockSizes s) hobeyed .truncControl).symm
  case isFalse hleft =>
    exact ⟨_, exec_blk_eq hes hcap hleft, blockSizes_blk_toNat hblockCap, blockSizes_blkAligned_toNat hblockCap, rfl,
      rfl, rfl, fun q hq => peek_afterBlk_inside s hq, fun a ha => peek_afterBlk_outside s ha, afterBlk_pos_toNat hleft,
      rfl⟩

/-- Settles O35: OUT and LAST are copied from a TR that neither write changes. -/
theorem commitWritesTheBlock : Obligations.CommitWritesTheBlock := by
  intro s hblk htr hes hout hcnt es b
  refine ⟨_, exec_commit_eq hblk htr hes hout, fun k hk => peek_afterCommit_out_inside s hk,
    fun a ha => peek_afterCommit_out_outside s ha, fun k hk => peek_afterCommit_last_inside s hk,
    fun a ha => peek_afterCommit_last_outside s ha, afterCommit_done_toNat hcnt, ?_, rfl⟩
  rw [← afterCommit_done_toNat hcnt]
  rfl

/-- Settles O36, on either side of the one test. -/
theorem finalChecksTheTrailingBytes : Obligations.FinalChecksTheTrailingBytes := by
  intro s hobeyed
  split
  case isTrue hlen =>
    rw [exec_final_eq hlen, State.endDecode_of_obeyed hobeyed]
    rfl
  case isFalse hlen =>
    obtain ⟨hpos, hstatus⟩ := State.endDecode_error_record hobeyed .trailingMismatch
    refine ⟨_, exec_final_mismatch hlen, rfl, by simp, hpos, ?_, hstatus⟩
    rw [State.endDecode_of_obeyed hobeyed]
    exact State.endError_elemDone _ _

end Sys2Proof.Machine
end

section
/-!
PROOFS. The encoding (30_encoding.md): the decoder and the encoder undo each other, format by format; the width of a
selector's row; the rotation's amount; the STATUS words.
-/

namespace Sys2Proof.Machine

/-! ## Formats of no bits and of two bits -/

/-- What the decoder of an implicit format answers: its row, for the field value 0 (R94). -/
theorem decodeImplicit_eq_ok {i r : Instr} {b : Byte} (h : decodeImplicit i b = .ok r) : b = 0 ∧ r = i := by
  unfold decodeImplicit at h
  split at h
  case isTrue hb => exact ⟨hb, by cases h; rfl⟩
  case isFalse => cases h

/-- What the decoder of a 2-bit format answers: the row of the value, in the order of the rows (R94). -/
theorem decodeTwoBits_eq_ok {i0 i1 i2 i3 r : Instr} {b : Byte} (h : decodeTwoBits i0 i1 i2 i3 b = .ok r) :
    (b = 0 ∧ r = i0) ∨ (b = 1 ∧ r = i1) ∨ (b = 2 ∧ r = i2) ∨ (b = 3 ∧ r = i3) := by
  unfold decodeTwoBits at h
  split at h
  case isTrue hb => exact .inl ⟨hb, by cases h; rfl⟩
  case isFalse =>
    split at h
    case isTrue hb => exact .inr (.inl ⟨hb, by cases h; rfl⟩)
    case isFalse =>
      split at h
      case isTrue hb => exact .inr (.inr (.inl ⟨hb, by cases h; rfl⟩))
      case isFalse =>
        split at h
        case isTrue hb => exact .inr (.inr (.inr ⟨hb, by cases h; rfl⟩))
        case isFalse => cases h

/-! ## Channel descriptors (R84, R85) -/

/-- A descriptor's mode is its two low bits. -/
theorem channelByte_mode (rest : BitVec 6) (mode : BitVec 2) : (channelByte rest mode).extractLsb' 0 2 = mode := by
  apply BitVec.eq_of_toNat_eq
  rw [BitVec.extractLsb'_toNat, channelByte_toNat, Nat.shiftRight_zero]
  omega

/-- A descriptor's other six bits are its operand. -/
theorem channelByte_rest (rest : BitVec 6) (mode : BitVec 2) : (channelByte rest mode).extractLsb' 2 6 = rest := by
  apply BitVec.eq_of_toNat_eq
  rw [BitVec.extractLsb'_toNat, channelByte_toNat, Nat.shiftRight_eq_div_pow]
  omega

/-- A byte is the descriptor of its two fields. -/
theorem channelByte_fields (b : Byte) : channelByte (b.extractLsb' 2 6) (b.extractLsb' 0 2) = b := by
  apply BitVec.eq_of_toNat_eq
  rw [channelByte_toNat, BitVec.extractLsb'_toNat, BitVec.extractLsb'_toNat, Nat.shiftRight_eq_div_pow,
    Nat.shiftRight_zero]
  have := b.isLt
  omega

/-- The row of a descriptor, by its mode (R85). -/
def channelRow (rest : BitVec 6) (mode : BitVec 2) : Instr :=
  if mode = 0 then .deltaZz8 rest
  else if mode = 1 then .deltaZz16 rest
  else if mode = 2 then .deltaRxor32 rest
  else .chanBad rest

theorem decodeChannel_channelByte (rest : BitVec 6) (mode : BitVec 2) :
    decodeChannel (channelByte rest mode) = channelRow rest mode := by
  rw [decodeChannel, channelByte_mode, channelByte_rest, channelRow]
  rfl

/-- Each of the four modes has its own row, whose encoding is the descriptor. -/
theorem encode_channelRow (rest : BitVec 6) (mode : BitVec 2) :
    (channelRow rest mode).WellFormed = true ∧ encode (channelRow rest mode) = (.chanmode, channelByte rest mode) := by
  obtain rfl | rfl | rfl | rfl : mode = 0 ∨ mode = 1 ∨ mode = 2 ∨ mode = 3 := by bv_omega
  all_goals exact ⟨rfl, rfl⟩

/-! ## Header bytes (R71, R88) -/

/-- A byte is its two nibbles. -/
theorem header_nibbles {b : Byte} (hmagic : b.toNat / 16 = 0xA) : vertexMagic ++ b.extractLsb' 0 4 = b := by
  apply BitVec.eq_of_toNat_eq
  rw [BitVec.toNat_append, ← Nat.shiftLeft_add_eq_or_of_lt (b.extractLsb' 0 4).isLt, lowNibble_toNat, Nat.shiftLeft_eq]
  have : vertexMagic.toNat = 10 := rfl
  omega

/-- The byte of a bad version has the magic and that version. -/
theorem badVersionByte_toNat (version : BitVec 4) : (vertexMagic ++ version).toNat = 160 + version.toNat := by
  rw [BitVec.toNat_append, ← Nat.shiftLeft_add_eq_or_of_lt version.isLt, Nat.shiftLeft_eq]
  rfl

theorem badVersionByte_version (version : BitVec 4) : (vertexMagic ++ version).extractLsb' 0 4 = version := by
  apply BitVec.eq_of_toNat_eq
  rw [lowNibble_toNat, badVersionByte_toNat]
  have := version.isLt
  omega

/-- Every header byte decodes to a row that is well formed and encodes to it. -/
theorem encode_decodeHeader (b : Byte) :
    (decodeHeader b).WellFormed = true ∧ encode (decodeHeader b) = (.hdr, b) := by
  by_cases hmagic : b.toNat / 16 = 0xA
  · obtain h0 | h1 | h2 : b.toNat % 16 = 0 ∨ b.toNat % 16 = 1 ∨ 1 < b.toNat % 16 := by omega
    · have hb : b = 0xA0 := BitVec.eq_of_toNat_eq (by simp; omega)
      subst hb
      exact ⟨rfl, rfl⟩
    · have hb : b = 0xA1 := BitVec.eq_of_toNat_eq (by simp; omega)
      subst hb
      exact ⟨rfl, rfl⟩
    · rw [decodeHeader_of_version_gt hmagic h2]
      refine ⟨decide_eq_true ?_, ?_⟩
      · rw [lowNibble_toNat]
        exact h2
      · rw [encode, header_nibbles hmagic]
  · rw [decodeHeader_of_magic_ne hmagic]
    refine ⟨bne_iff_ne.mpr fun h => hmagic ?_, rfl⟩
    rw [← highNibble_toNat, h]
    rfl

/-! ## The statements -/

/-- Settles O1: the rows with operands give their bits back; the others have one field value each. -/
theorem decodeOfEncodeIsTheInstruction : Obligations.DecodeOfEncodeIsTheInstruction := by
  intro i hi
  cases i
  case hdrBadVersion version =>
    have hversion : 2 ≤ version.toNat := of_decide_eq_true hi
    have hbyte := badVersionByte_toNat version
    have hlt := version.isLt
    have hrow := decodeHeader_of_version_gt (b := vertexMagic ++ version) (by omega) (by omega)
    rw [badVersionByte_version] at hrow
    exact congrArg Except.ok hrow
  case hdrBadMagic byte =>
    have hmagic : byte.extractLsb' 4 4 ≠ vertexMagic := bne_iff_ne.mp hi
    exact congrArg Except.ok (if_neg hmagic)
  case deltaZz8 rest => exact congrArg Except.ok (decodeChannel_channelByte rest 0)
  case deltaZz16 rest => exact congrArg Except.ok (decodeChannel_channelByte rest 1)
  case deltaRxor32 rest => exact congrArg Except.ok (decodeChannel_channelByte rest 2)
  case chanBad rest => exact congrArg Except.ok (decodeChannel_channelByte rest 3)
  all_goals rfl

/-- Settles O2, format by format. -/
theorem encodeOfDecodeIsTheFieldValue : Obligations.EncodeOfDecodeIsTheFieldValue := by
  intro f b i h
  cases f
  case hdr =>
    obtain rfl : decodeHeader b = i := by injection h
    exact encode_decodeHeader b
  case chanmode =>
    obtain rfl : decodeChannel b = i := by injection h
    rw [← channelByte_fields b, decodeChannel_channelByte]
    exact encode_channelRow _ _
  case ctrlV0 | chanmodeV0 =>
    obtain ⟨rfl, rfl⟩ := decodeImplicit_eq_ok h
    exact ⟨rfl, rfl⟩
  case step st =>
    cases st
    case idle => cases h
    all_goals
      obtain ⟨rfl, rfl⟩ := decodeImplicit_eq_ok h
      exact ⟨rfl, rfl⟩
  case wselV0 | wselV1C0 | wselV1C1 | ctrl2 =>
    obtain ⟨rfl, rfl⟩ | ⟨rfl, rfl⟩ | ⟨rfl, rfl⟩ | ⟨rfl, rfl⟩ := decodeTwoBits_eq_ok h
    all_goals exact ⟨rfl, rfl⟩

/-- Settles O3: each word is evaluated. -/
theorem writtenOutWordsDecode : Obligations.WrittenOutWordsDecode := by
  unfold Obligations.WrittenOutWordsDecode
  decide

/-- The meaning of a row that a width selector decodes to is the group it runs (R124). -/
theorem exec_of_decode_width {f : Format} (hf : isWidthFormat f = true) {b : Byte} {i : Instr} (h : decode f b = .ok i)
    (s : State) : exec i s = outcome (runGroup i s) := by
  cases f
  case wselV0 | wselV1C0 | wselV1C1 =>
    obtain ⟨-, rfl⟩ | ⟨-, rfl⟩ | ⟨-, rfl⟩ | ⟨-, rfl⟩ := decodeTwoBits_eq_ok h
    all_goals rfl
  all_goals cases hf

/-- Selector `k` of a width table's format decodes to a row whose meaning is the group of width `T[k]` (R81). -/
theorem selectorRow {f : Format} (hf : isWidthFormat f = true) {b : Byte} (hb : b.toNat < 4) :
    ∃ i, decode f b = .ok i ∧ fetchUnit f b = .ok i ∧ (∀ s, runGroup i s = group ((widthsOf f).getD b.toNat 0) s) ∧
      ∀ s, exec i s = outcome (group ((widthsOf f).getD b.toNat 0) s) := by
  obtain ⟨i, hi, hfetch, hrun⟩ := fetchUnit_group hf hb
  exact ⟨i, hi, hfetch, hrun, fun s => by rw [exec_of_decode_width hf hi, hrun]⟩

/-- Settles O4: the tables are those of the selectors' formats. -/
theorem selectorPicksTheTablesWidth : Obligations.SelectorPicksTheTablesWidth := by
  intro ft hft k hk
  have hbyte : (BitVec.ofNat 8 k).toNat = k := Nat.mod_eq_of_lt (by omega)
  have hformat : isWidthFormat ft.1 = true ∧ widthsOf ft.1 = ft.2 := by
    simp only [List.mem_cons, List.not_mem_nil, or_false] at hft
    obtain rfl | rfl | rfl := hft
    all_goals exact ⟨rfl, rfl⟩
  obtain ⟨hwidth, htable⟩ := hformat
  obtain ⟨i, hi, -, -, hexec⟩ := selectorRow hwidth (b := BitVec.ofNat 8 k) (by omega)
  rw [hbyte, htable] at hexec
  exact ⟨i, hi, hexec⟩

/-- Settles O22: the two shifts are a rotation left, which by `32 - k` is the rotation right by `k`. -/
theorem rotationFieldRotatesRight : Obligations.RotationFieldRotatesRight := by
  refine ⟨fun v k hk => ⟨rotl32_eq_rotateLeft v hk, ?_⟩, fun shift d => ?_⟩
  · rw [rotl32_eq_rotateLeft v (Nat.mod_lt _ (by decide)), BitVec.rotateLeft_def, BitVec.rotateRight_def,
      Nat.mod_eq_of_lt hk, Nat.mod_mod]
    obtain rfl | hpos := Nat.eq_zero_or_pos k
    · simp [BitVec.ushiftRight_eq_zero]
    · have hlt : 32 - k < 32 := by omega
      rw [Nat.mod_eq_of_lt hlt, Nat.sub_sub_self (by omega), BitVec.or_comm]
  · rw [rotAmount_eq]
    omega

/-- Settles O39: sixteen outcomes in two versions, each evaluated. -/
theorem statusWordsOfTheOutcomes : Obligations.StatusWordsOfTheOutcomes := by
  unfold Obligations.StatusWordsOfTheOutcomes
  decide

end Sys2Proof.Machine
end

section
/-!
PROOFS. The ends of a decode (60_exceptions.md), the host's accesses and reset (10_state.md, 70_reset_and_hazards.md),
and which row a step runs.
-/

namespace Sys2Proof.Machine

/-! ## The ends of a decode (R200 to R206, R233) -/

/-- A byte depends on its memory and on the reset's number alone. -/
theorem State.peek_congr {s t : State} (sp : Space) (hmem : t.mem sp = s.mem sp) (hepoch : t.epoch = s.epoch)
    (a : Nat) : t.peek sp a = s.peek sp a := by
  rw [State.peek, State.peek, hmem, hepoch]

/-- No end of a decode changes a byte of OUT at or beyond `cnt·es` (R206). -/
theorem State.endDecode_peek_out_beyond (r : Option Reason) (s : State) {a : Nat}
    (ha : s.cnt.toNat * s.es.toNat ≤ a) : (s.endDecode r).peek .out a = s.peek .out a := by
  obtain hout | hout := State.endDecode_out r s
  · exact State.peek_congr .out hout (State.endDecode_epoch r s) a
  · have hopen : ¬ (Space.out = .out ∧ a < s.openBytes) := by
      rintro ⟨-, hlt⟩
      exact absurd (hlt.trans_le (min_le_left _ _)) (Nat.not_lt.mpr ha)
    rw [State.peek_congr (s := s.drawOut) .out hout (State.endDecode_epoch r s) a, State.peek_drawOut,
      if_neg hopen]

/-- OUT after an error: left alone after OUT_RANGE, drawn after every other (R206). -/
theorem State.endError_out (r : Reason) (s : State) :
    (s.endError r).out = if r = .outRange then s.out else s.drawOut.out := by
  unfold State.endError
  split
  · rfl
  · rfl

/-- An error of a decode the host left alone reports the elements committed (R202). -/
theorem State.endDecode_error_elemDone {s : State} (h : s.spoiled = false) (r : Reason) :
    (s.endDecode (some r)).elemDone = s.done := by
  rw [State.endDecode_of_obeyed h]
  exact State.endError_elemDone r s

/-- Settles O37: the record is that of `endError`, and its frame is that of every end. -/
theorem takingAnErrorRecordsIt : Obligations.TakingAnErrorRecordsIt := by
  intro r s hobeyed t
  have ht : t = s.endError r := State.endDecode_of_obeyed hobeyed (some r)
  have hframe := State.endDecode_frame (some r) s
  refine ⟨?_, ?_, ?_, ?_, ?_, ?_, hframe⟩
  all_goals rw [ht]
  · exact State.endError_status r s
  · exact State.endError_errc r s
  · exact State.endError_errr r s
  · exact State.endError_inPos r s
  · exact State.endError_elemDone r s
  · exact State.endError_st r s

/-- Settles O38: below `cnt·es` and OUT_CAP the byte is the draw of its offset. -/
theorem outputIsOpenAfterAnError : Obligations.OutputIsOpenAfterAnError := by
  intro r s hobeyed t
  have ht : t.out = if r = .outRange then s.out else s.drawOut.out := by
    rw [← State.endError_out]
    exact congrArg State.out (State.endDecode_of_obeyed hobeyed (some r))
  refine ⟨fun a ha => State.endDecode_peek_out_beyond (some r) s ha, fun hr => by rw [ht, if_pos hr],
    fun hr a ha hcap => ?_⟩
  have hout : t.mem .out = s.drawOut.mem .out := by rw [State.mem_out, ht, if_neg hr, State.mem_out]
  rw [State.peek_congr .out hout (State.endDecode_epoch _ _) a, State.peek_drawOut, if_pos ⟨rfl, lt_min ha hcap⟩]

/-- Settles O40. -/
theorem spoiledDecodeStillEnds : Obligations.SpoiledDecodeStillEnds := fun r s _ =>
  ⟨State.endDecode_st r s, State.endDecode_status r s, fun _ ha => State.endDecode_peek_out_beyond r s ha,
    State.endDecode_frame r s⟩

/-! ## Rows that end the decode, and the header's rows -/

/-- Settles O19: the row raises in the state as it is. -/
theorem badChannelModeRaises : Obligations.BadChannelModeRaises := by
  intro rest s
  refine ⟨_, rfl, rfl, State.endDecode_st _ s, State.endDecode_tr _ s, fun hobeyed => ?_⟩
  exact (State.endDecode_error_record hobeyed .badChannel).symm

/-- Settles O25. -/
theorem headerRowsAcceptOrReject : Obligations.HeaderRowsAcceptOrReject := by
  refine ⟨fun s => rfl, fun s => rfl, fun version s => ⟨_, rfl, rfl, fun hobeyed => ?_⟩,
    fun byte s => ⟨_, rfl, rfl, fun hobeyed => ?_⟩⟩
  · exact ⟨State.endDecode_st _ s, (State.endDecode_error_record hobeyed .badVersion).2⟩
  · exact ⟨State.endDecode_st _ s, (State.endDecode_error_record hobeyed .badMagic).2⟩

/-- The meaning of a header byte's row is what the HDR step runs of it (R161). -/
theorem exec_decodeHeader (b : Byte) (s : State) : exec (decodeHeader b) s = outcome (runHeader (decodeHeader b) s) := by
  unfold decodeHeader
  split
  · split
    · rfl
    · split
      · rfl
      · rfl
  · rfl

/-- Settles O24. -/
theorem headerStepRunsTheDecodedRow : Obligations.HeaderStepRunsTheDecodedRow := by
  intro s i hlen hcap hi
  obtain rfl : decodeHeader (s.peek .inp 0) = i := by injection hi
  rw [exec_hdr_eq (by omega) hcap, exec_decodeHeader]

/-! ## Steps and turns (R20, R37) -/

theorem step_engine {s : State} (h : s.turns = []) : step s = engineStep s := by
  rw [step, h]

theorem step_turn {s : State} {t : Turn} {rest : List Turn} (h : s.turns = t :: rest) :
    step s = takeTurn t { s with turns := rest } := by
  rw [step, h]

/-- An engine step is the row its stage decodes to. -/
theorem engineStep_decoded {s : State} {i : Instr} (h : decode (.step s.st) 0 = .ok i) : engineStep s = exec i s := by
  rw [engineStep, h]

/-- In IDLE the engine waits (R230). -/
theorem engineStep_idle {s : State} (h : s.st = .idle) : engineStep s = .next s := by
  rw [engineStep, h]
  rfl

/-- The row of a stage (R37). -/
def stageRow : Stage → Instr
  | .idle | .check => .start
  | .hdr => .hdr
  | .tail => .tail
  | .blk => .blk
  | .plane => .plane
  | .delta => .delta
  | .commit => .commit
  | .final => .final

theorem decode_stageRow {st : Stage} (h : st ≠ .idle) : decode (.step st) 0 = .ok (stageRow st) := by
  cases st
  case idle => exact absurd rfl h
  all_goals rfl

/-- Settles O46. -/
theorem stepRunsTheDecodedInstruction : Obligations.StepRunsTheDecodedInstruction := by
  intro s
  refine ⟨fun i hturns hi => ?_, fun i rest hturns hi => ?_, fun hturns hidle => ?_,
    fun hst => ⟨_, decode_stageRow hst⟩⟩
  · rw [step_engine hturns, engineStep_decoded hi]
  · rw [step_turn hturns, takeTurn]
    exact engineStep_decoded (s := { s with turns := rest }) hi
  · rw [step_engine hturns, engineStep_idle hidle]

/-! ## START (R160) -/

/-- Settles O26: the host's write of CTRL is the row's first part. -/
theorem startLatchesTheConfiguration : Obligations.StartLatchesTheConfiguration := by
  intro s hidle
  have hstart : ∀ u : State, u.status.busy = false → exec .start u = .next (startWrite u) :=
    fun u hu => congrArg outcome (if_pos hu)
  refine ⟨hstart s hidle, fun value rest hvalue hturns => ?_⟩
  rw [step_turn hturns, hstart { s with turns := rest } hidle]
  simp only [takeTurn, hostAccess, outcome_ok, writeReg, hidle, hvalue, if_true]
  rfl

/-- The element sizes the test rejects (R160). -/
theorem not_legalElemSize_iff (es : Nat) : ¬ legalElemSize es = true ↔ es < 4 ∨ 256 < es ∨ es % 4 ≠ 0 := by
  rw [legalElemSize_iff]
  omega

/-- START in stage CHECK runs the usage tests. -/
theorem exec_start_check {s : State} (hbusy : s.status.busy = true) (hst : s.st = .check) :
    exec .start s = outcome (usageCheck s) := by
  have hstart : start s = usageCheck s := by simp [start, hbusy, hst]
  exact congrArg outcome hstart

/-- Settles O27: the tests' order is that of the rule. -/
theorem usageTestsComeInOrder : Obligations.UsageTestsComeInOrder := by
  intro s hbusy hst
  rw [exec_start_check hbusy hst, usageCheck]
  simp only [not_legalElemSize_iff]
  split
  · rfl
  · split
    · rfl
    · split
      · rfl
      · rfl

/-! ## The host's accesses (R21 to R29, R41, R42, R45, R232 to R234) -/

/-- A register read changes what the host read and, where it is a draw, the count of draws. -/
theorem readReg_frame (offset : Word) (s : State) :
    { readReg offset s with hostData := s.hostData, draws := s.draws } = s := by
  unfold readReg readFree
  split_ifs <;> rfl

/-- Settles O41: each listed offset is one branch of the read. -/
theorem registerReads : Obligations.RegisterReads := by
  intro s offset rest hturns
  have hframe := readReg_frame offset { s with turns := rest }
  refine ⟨readReg offset { s with turns := rest }, step_turn hturns, congrArg State.turns hframe, ?_, ?_, ?_, ?_, ?_, ?_,
    ?_, congrArg (fun u : State => { u with turns := s.turns }) hframe⟩
  all_goals clear hframe
  · rintro rfl
    rfl
  · rintro rfl
    rfl
  · rintro rfl
    rfl
  · rintro rfl
    rfl
  · rintro rfl
    exact apply_ite State.hostData (s.status.busy = true) _ _
  · rintro rfl
    exact apply_ite State.hostData (s.status.busy = true) _ _
  · intro hother
    simp only [List.mem_cons, List.not_mem_nil, or_false, not_or] at hother
    obtain ⟨h04, h08, h0C, h10, h14, h18⟩ : offset ≠ 0x04#32 ∧ offset ≠ 0x08#32 ∧ offset ≠ 0x0C#32 ∧
      offset ≠ 0x10#32 ∧ offset ≠ 0x14#32 ∧ offset ≠ 0x18#32 := hother
    rw [readReg, if_neg h04, if_neg h08, if_neg h0C, if_neg h10, if_neg h14, if_neg h18]

/-- A busy machine ignores a register write (R234). -/
theorem writeReg_busy {s : State} (h : s.status.busy = true) (offset value : Word) : writeReg offset value s = s :=
  if_pos h

/-- An idle machine's register write, offset by offset (R21 to R29). -/
theorem writeReg_idle {s : State} (h : s.status.busy = false) (offset value : Word) :
    writeReg offset value s =
      if offset = 0x00#32 then if value.getLsbD 0 then startWrite s else s
      else if offset = 0x08#32 then { s with elemCount := value }
      else if offset = 0x0C#32 then { s with elemSize := value }
      else if offset = 0x10#32 then { s with inLen := value }
      else s := by
  rw [writeReg, h]
  rfl

/-- A turn that writes a register. -/
theorem step_writeReg {s : State} {offset value : Word} {rest : List Turn}
    (h : s.turns = .host (.writeReg offset value) :: rest) :
    step s = .next (writeReg offset value { s with turns := rest }) := step_turn h

/-- Settles O42: a busy machine ignores the write, an idle one stores the three listed offsets. -/
theorem registerWrites : Obligations.RegisterWrites := by
  intro s offset value rest hturns
  rw [step_writeReg hturns]
  refine ⟨fun hbusy => by rw [writeReg_busy (s := { s with turns := rest }) hbusy], fun hidle => ?_⟩
  rw [writeReg_idle (s := { s with turns := rest }) hidle]
  refine ⟨?_, ?_, ?_, fun hother hctrl => ?_⟩
  · rintro rfl
    rfl
  · rintro rfl
    rfl
  · rintro rfl
    rfl
  · simp only [List.mem_cons, List.not_mem_nil, or_false, not_or] at hother
    obtain ⟨h08, h0C, h10⟩ : offset ≠ 0x08#32 ∧ offset ≠ 0x0C#32 ∧ offset ≠ 0x10#32 := hother
    rw [if_neg h08, if_neg h0C, if_neg h10]
    split
    case isTrue h0 => rw [hctrl h0, if_neg Bool.false_ne_true]
    case isFalse => rfl

/-- One byte read inside a memory. -/
theorem State.load_one {s : State} {sp : Space} {a : Nat} (h : a < s.size sp) : s.load sp a 1 = .ok [s.peek sp a] :=
  State.load_eq h

/-- A host write of IN inside IN_CAP. -/
theorem writeIn_eq {s : State} {a : Nat} (h : a < s.params.inCap) (b : Byte) :
    writeIn a b s = .ok { s.setMem .inp (Memory.write a [b] s.inp) with spoiled := s.spoiled || spoils a s } := by
  have hfits : a + [b].length ≤ s.size .inp := h
  rw [writeIn, State.store_eq hfits]
  rfl

/-- A host read of IN inside IN_CAP. -/
theorem readIn_eq {s : State} {a : Nat} (h : a < s.params.inCap) :
    readIn a s = .ok { s with hostData := (s.peek .inp a).setWidth 32 } := by
  rw [readIn, State.load_one (sp := .inp) h]
  rfl

/-- A host read of OUT inside OUT_CAP: a draw below `cnt·es` while BUSY, else the byte (R232). -/
theorem readOut_eq {s : State} {a : Nat} (h : a < s.params.outCap) :
    readOut a s = .ok (if s.status.busy = true ∧ a < s.cnt.toNat * s.es.toNat
      then { s with hostData := (Config.freeByte s.draws).setWidth 32, draws := s.draws + 1 }
      else { s with hostData := (s.peek .out a).setWidth 32 }) := by
  rw [readOut, State.load_one (sp := .out) h, run_bind_ok]
  simp only [Bool.and_eq_true, decide_eq_true_eq]
  split
  · rfl
  · rfl

/-- Settles O43. -/
theorem hostAccessesOfIn : Obligations.HostAccessesOfIn := by
  intro s a rest ha
  refine ⟨fun b hturns => ?_, fun hturns => ?_⟩
  · refine ⟨_, (step_turn hturns).trans (congrArg outcome (writeIn_eq (s := { s with turns := rest }) ha b)),
      ?_, fun x hx => ?_, ?_, rfl⟩
    · exact s.peek_write_inside .inp a (bs := [b]) (k := 0) Nat.zero_lt_one
    · refine s.peek_write_outside .inp (a := a) (bs := [b]) ?_
      rintro ⟨hle, hlt⟩
      exact hx (Nat.le_antisymm (Nat.le_of_lt_succ hlt) hle)
    · simp [spoils]
  · exact (step_turn hturns).trans (congrArg outcome (readIn_eq (s := { s with turns := rest }) ha))

/-- A byte that a host reads is zero-extended. -/
theorem byte_setWidth_toNat (b : Byte) : (b.setWidth 32).toNat = b.toNat := by
  rw [BitVec.toNat_setWidth]
  exact Nat.mod_eq_of_lt (b.isLt.trans (by decide))

/-- Settles O44. -/
theorem hostAccessesOfOut : Obligations.HostAccessesOfOut := by
  intro s a rest
  refine ⟨fun hturns ha => ?_, fun b hturns => step_turn hturns⟩
  refine ⟨_, (step_turn hturns).trans (congrArg outcome (readOut_eq (s := { s with turns := rest }) ha)), ?_, ?_⟩
  · dsimp only
    split
    · exact byte_setWidth_toNat _
    · exact byte_setWidth_toNat _
  · split
    · rfl
    · rfl

/-! ## Reset (R43, R230) -/

/-- Settles O45. -/
theorem resetLeavesTheStatedValues : Obligations.ResetLeavesTheStatedValues := by
  rintro s (rfl | ⟨s₀, rest, hturns, hstep⟩)
  · exact ⟨rfl, rfl, rfl, rfl, rfl, rfl, rfl⟩
  · rw [step_turn hturns] at hstep
    obtain rfl : platformReset { s₀ with turns := rest } = s := by injection hstep
    exact ⟨rfl, show Status.zero.word = 0 from rfl, rfl, rfl, rfl, rfl, rfl⟩

/-- Empty memories are in canonical form and inside their sizes. -/
theorem MemoriesOk.of_empty {s : State} (hcap : 33 ≤ s.params.inCap) (hmem : ∀ sp, s.mem sp = []) : MemoriesOk s :=
  ⟨hcap, fun sp => by rw [hmem]; exact List.Pairwise.nil, fun sp c hc => by rw [hmem] at hc; cases hc⟩

/-- Settles O47: nothing is written, and the machine waits in IDLE. -/
theorem invariantHoldsAtReset : Obligations.InvariantHoldsAtReset :=
  (MemoriesOk.of_empty (Nat.le_add_left 33 _) fun sp => by cases sp <;> rfl).inv (.inl rfl)

end Sys2Proof.Machine
end

section
/-!
PROOFS. Groups and packed columns byte by byte (40_group_decoder.md, 41_stream_parser.md): the fields and escapes of a
group, the bytes its result depends on, and a column's groups at their own cursors.
-/

namespace Sys2Proof.Machine

/-! ## Fields and escapes (R83, R101) -/

/-- Field `t` of a packed region at `p`, as the reference function reads it (R83). -/
def refField (inp : Bytes) (w p t : Nat) : Nat :=
  ((inp (p + t * w / 8)).toNat >>> (8 - w - t * w % 8)) &&& sentinel w

/-- Whether field `t` is the sentinel (R101). -/
def isEscape (inp : Bytes) (w p t : Nat) : Bool := refField inp w p t == sentinel w

theorem refField_eq (inp : Bytes) (w p t : Nat) :
    refField inp w p t = (inp (p + t * w / 8)).toNat / 2 ^ (8 - w - t * w % 8) % 2 ^ w := by
  rw [refField, sentinel, Nat.and_two_pow_sub_one_eq_mod, Nat.shiftRight_eq_div_pow]

theorem refFields_cons_of_escape {inp : Bytes} {w p t : Nat} (h : isEscape inp w p t = true) (ts : List Nat) (e : Nat) :
    refFields inp w p (t :: ts) e = (inp e :: (refFields inp w p ts (e + 1)).1, (refFields inp w p ts (e + 1)).2) :=
  if_pos (eq_of_beq h)

theorem refFields_cons_of_field {inp : Bytes} {w p t : Nat} (h : isEscape inp w p t = false) (ts : List Nat) (e : Nat) :
    refFields inp w p (t :: ts) e =
      (BitVec.ofNat 8 (refField inp w p t) :: (refFields inp w p ts e).1, (refFields inp w p ts e).2) :=
  if_neg fun hsentinel => Bool.false_ne_true (h.symm.trans (beq_iff_eq.mpr hsentinel))

/-- The cursor after the fields passes one byte for each sentinel. -/
theorem refFields_cursor (inp : Bytes) (w p : Nat) (ts : List Nat) (e : Nat) :
    (refFields inp w p ts e).2 = e + ts.countP (isEscape inp w p) := by
  induction ts generalizing e with
  | nil => rfl
  | cons t ts ih =>
    cases h : isEscape inp w p t
    · rw [refFields_cons_of_field h, ih, List.countP_cons_of_neg (by simp [h])]
    · rw [refFields_cons_of_escape h, ih, List.countP_cons_of_pos h]
      omega

/-- Output `k` is field `k`, or, where that is the sentinel, the escape byte that as many sentinels precede. -/
theorem refFields_getD (inp : Bytes) (w p : Nat) (ts : List Nat) (e k : Nat) (hk : k < ts.length) :
    (refFields inp w p ts e).1.getD k 0 =
      if isEscape inp w p (ts.getD k 0) then inp (e + (ts.take k).countP (isEscape inp w p))
      else BitVec.ofNat 8 (refField inp w p (ts.getD k 0)) := by
  induction ts generalizing e k with
  | nil => simp at hk
  | cons t ts ih =>
    cases h : isEscape inp w p t
    · rw [refFields_cons_of_field h]
      cases k with
      | zero => simp [h]
      | succ k => simpa [h] using ih e k (by simpa using hk)
    · rw [refFields_cons_of_escape h]
      cases k with
      | zero => simp [h]
      | succ k =>
        have hstep := ih (e + 1) k (by simpa using hk)
        rw [Nat.add_right_comm] at hstep
        simpa [h, ← Nat.add_assoc] using hstep

/-! ## The bytes a group depends on (R108) -/

/-- The fields depend on their own bytes and on the escapes they take. -/
theorem refFields_congr {inp inp' : Bytes} {w p : Nat} {ts : List Nat} {e : Nat}
    (hfields : ∀ t ∈ ts, inp' (p + t * w / 8) = inp (p + t * w / 8))
    (hescapes : ∀ a, e ≤ a → a < (refFields inp w p ts e).2 → inp' a = inp a) :
    refFields inp' w p ts e = refFields inp w p ts e := by
  induction ts generalizing e with
  | nil => rfl
  | cons t ts ih =>
    have hts : ∀ t ∈ ts, inp' (p + t * w / 8) = inp (p + t * w / 8) := fun t ht => hfields t (List.mem_cons_of_mem _ ht)
    have hfield : refField inp' w p t = refField inp w p t := by rw [refField, refField, hfields t List.mem_cons_self]
    have hsame : isEscape inp' w p t = isEscape inp w p t := by rw [isEscape, isEscape, hfield]
    cases h : isEscape inp w p t
    · rw [refFields_cons_of_field h] at hescapes
      rw [refFields_cons_of_field (hsame.trans h), refFields_cons_of_field h, hfield, ih hts hescapes]
    · rw [refFields_cons_of_escape h] at hescapes
      obtain ⟨-, hnext, -⟩ := refFields_spec inp w p ts (e + 1)
      rw [refFields_cons_of_escape (hsame.trans h), refFields_cons_of_escape h, hescapes e le_rfl hnext,
        ih hts fun a ha hlt => hescapes a (by omega) hlt]

/-- The packed widths. -/
def isPackedWidth (w : Nat) : Prop := w = 1 ∨ w = 2 ∨ w = 4

theorem refGroup_packed {w : Nat} (hw : isPackedWidth w) (inp : Bytes) (p : Nat) :
    refGroup inp w p = refFields inp w p (List.range 16) (p + 2 * w) := by
  obtain rfl | rfl | rfl := hw
  all_goals rfl

/-- A field lies in the packed region of `2·w` bytes. -/
theorem field_offset_lt {w t : Nat} (hw : isPackedWidth w) (ht : t < 16) : t * w / 8 < 2 * w := by
  obtain rfl | rfl | rfl := hw
  all_goals omega

/-- The widths of R81's tables (R91). -/
theorem width_cases {w : Nat} (hw : w = 0 ∨ w = 1 ∨ w = 2 ∨ w = 4 ∨ w = 8) : w = 0 ∨ w = 8 ∨ isPackedWidth w := by
  simp only [isPackedWidth]
  omega

/-- A group depends on the bytes it consumes and on no other. -/
theorem refGroup_congr {inp inp' : Bytes} {w p : Nat} (hw : w = 0 ∨ w = 1 ∨ w = 2 ∨ w = 4 ∨ w = 8)
    (h : ∀ a, p ≤ a → a < (refGroup inp w p).2 → inp' a = inp a) : refGroup inp' w p = refGroup inp w p := by
  obtain rfl | rfl | hw := width_cases hw
  · rfl
  · have hbytes : Bytes.take inp' p 16 = Bytes.take inp p 16 :=
      List.map_congr_left fun k hk => h _ (Nat.le_add_right p k) (Nat.add_lt_add_left (List.mem_range.mp hk) p)
    exact congrArg (fun bs => (bs, p + 16)) hbytes
  · rw [refGroup_packed hw] at h
    obtain ⟨-, hregion, -⟩ := refFields_spec inp w p (List.range 16) (p + 2 * w)
    rw [refGroup_packed hw, refGroup_packed hw]
    refine refFields_congr (fun t ht => ?_) fun a ha hlt => h a (by omega) hlt
    have := field_offset_lt hw (List.mem_range.mp ht)
    exact h _ (by omega) (by omega)

/-! ## The packed rows and the limit of 24 bytes -/

/-- Each of the eight packed rows runs its width's group (R81). -/
theorem exec_packedGroupRow {iw : Instr × Nat}
    (h : iw ∈ [(Instr.grpW2V0, 2), (.grpW4V0, 4), (.grpW1C0, 1), (.grpW2C0, 2), (.grpW4C0, 4), (.grpW1C1, 1),
      (.grpW2C1, 2), (.grpW4C1, 4)]) :
    isPackedWidth iw.2 ∧ ∀ s, exec iw.1 s = outcome (group iw.2 s) := by
  simp only [List.mem_cons, List.not_mem_nil, or_false] at h
  obtain rfl | rfl | rfl | rfl | rfl | rfl | rfl | rfl := h
  all_goals exact ⟨by simp [isPackedWidth], fun _ => rfl⟩

theorem isPackedWidth.legal {w : Nat} (h : isPackedWidth w) : w = 0 ∨ w = 1 ∨ w = 2 ∨ w = 4 ∨ w = 8 := by
  simp only [isPackedWidth] at h
  omega

/-- A group's cursor does not wrap where 24 bytes are left. -/
theorem refGroup_cursor_toNat {s : State} {w : Nat} (hw : w = 0 ∨ w = 1 ∨ w = 2 ∨ w = 4 ∨ w = 8) (inp : Bytes)
    {p : Nat} (hleft : p + 24 ≤ s.len.toNat) :
    (BitVec.ofNat 32 (refGroup inp w p).2).toNat = (refGroup inp w p).2 := by
  obtain ⟨-, -, hlimit⟩ := refGroup_spec inp hw p
  have := s.len.isLt
  exact Nat.mod_eq_of_lt (by omega)

/-- Settles O6: field by field, the group is the reference group, whose outputs and cursor count the sentinels. -/
theorem packedGroupUnpacksWithEscapes : Obligations.PackedGroupUnpacksWithEscapes := by
  intro iw hiw s hleft hcap w p field escapes
  obtain ⟨hpacked, hexec⟩ := exec_packedGroupRow hiw
  have hfield : ∀ t, refField (s.peek .inp) w p t = field t := fun t => refField_eq _ w p t
  have hescape : isEscape (s.peek .inp) w p = fun t => field t == 2 ^ w - 1 := by
    funext t
    rw [isEscape, hfield]
    rfl
  have hgroup := group_eq s hpacked.legal (by omega)
  have hcursor := refGroup_cursor_toNat hpacked.legal (s.peek .inp) hleft
  rw [refGroup_packed hpacked] at hgroup hcursor
  have hlength : (refFields (s.peek .inp) w p (List.range 16) (p + 2 * w)).1.length = 16 := by
    simpa using (refFields_spec (s.peek .inp) w p (List.range 16) (p + 2 * w)).1
  refine ⟨_, (hexec s).trans (congrArg outcome hgroup), fun k hk => ?_, ?_, fun a ha => ?_, rfl⟩
  · have hkth : (List.range 16).getD k 0 = k := by simp [hk]
    have htake : (List.range 16).take k = List.range k := by rw [List.take_range, Nat.min_eq_left (by omega)]
    have hout := refFields_getD (s.peek .inp) w p (List.range 16) (p + 2 * w) k (by simpa using hk)
    rw [hkth, htake, hfield, hescape] at hout
    simp only [beq_iff_eq] at hout
    rw [peek_grp_latched, if_pos (hk.trans_eq hlength.symm)]
    exact hout
  · refine hcursor.trans ?_
    rw [refFields_cursor, hescape]
  · rw [peek_grp_latched, if_neg (Nat.not_lt.mpr (hlength.trans_le ha))]

/-- What a reference group consumes at each width (R102, R101, R106). -/
theorem refGroup_consumes {w : Nat} (hw : w = 0 ∨ w = 1 ∨ w = 2 ∨ w = 4 ∨ w = 8) (inp : Bytes) (p : Nat) :
    ∃ e ≤ 16, (refGroup inp w p).2 = p + if w = 0 then 0 else if w = 8 then 16 else 2 * w + e := by
  obtain rfl | rfl | hpacked := width_cases hw
  · exact ⟨0, Nat.zero_le _, rfl⟩
  · exact ⟨0, Nat.zero_le _, rfl⟩
  · have hle : (List.range 16).countP (isEscape inp w p) ≤ 16 := List.countP_le_length.trans_eq List.length_range
    refine ⟨_, hle, ?_⟩
    have h0 : w ≠ 0 := by simp only [isPackedWidth] at hpacked; omega
    have h8 : w ≠ 8 := by simp only [isPackedWidth] at hpacked; omega
    rw [refGroup_packed hpacked, refFields_cursor, if_neg h0, if_neg h8, Nat.add_assoc]

/-- Settles O8: the group with another input is the reference group of that input, which is the same. -/
theorem groupConsumesWithinTheLimit : Obligations.GroupConsumesWithinTheLimit := by
  intro w hw s hleft hcap
  have hw : w = 0 ∨ w = 1 ∨ w = 2 ∨ w = 4 ∨ w = 8 := by simpa using hw
  obtain ⟨-, -, hlimit⟩ := refGroup_spec (s.peek .inp) hw s.pos.toNat
  obtain ⟨e, he, hconsumed⟩ := refGroup_consumes hw (s.peek .inp) s.pos.toNat
  have hcursor := refGroup_cursor_toNat hw (s.peek .inp) hleft
  refine ⟨_, group_eq s hw (by omega), e, he, hcursor.trans hconsumed, hcursor.trans_le hlimit, fun m hm => ?_⟩
  have hsame : refGroup ((s.setMem .inp m).peek .inp) w s.pos.toNat = refGroup (s.peek .inp) w s.pos.toNat :=
    refGroup_congr hw fun a ha hlt => hm a ha (hlt.trans_eq hcursor.symm)
  rw [group_eq (s.setMem .inp m) hw (show s.pos.toNat + 24 ≤ s.params.inCap by omega), State.setMem_pos, hsame]
  rfl

/-! ## A column's groups at their own cursors (R120, R123, R124) -/

/-- Group `q` of the column whose width header is at the cursor of `s`, run at cursor `c`: its selector's width of the
table of format `f`, against the reference function. -/
def groupAt (s : State) (f : Format) (q c : Nat) : List Byte × Nat :=
  refGroup (s.peek .inp)
    ((widthsOf f).getD (((s.peek .inp (s.pos.toNat + q / 4)).toNat >>> (2 * (q % 4))) % 4) 0) c

/-- The width a selector picks is a legal one. -/
theorem selected_width_legal {f : Format} (hf : isWidthFormat f = true) (b : Byte) (k : Nat) :
    let w := (widthsOf f).getD ((b.toNat >>> (2 * k)) % 4) 0
    w = 0 ∨ w = 1 ∨ w = 2 ∨ w = 4 ∨ w = 8 :=
  widthsOf_legal hf (Nat.mod_lt _ (by decide))

/-- What a selector's row does from cursor `c` on: the group of the column, in the latch and the cursor. -/
theorem exec_groupAt {f : Format} (hf : isWidthFormat f = true) (s : State) (q : Nat) {c : Nat}
    (hleft : c + 24 ≤ s.len.toNat) (hcap : s.len.toNat ≤ s.params.inCap) :
    ∃ r, decode f (field2 (s.peek .inp (s.pos.toNat + q / 4)) (q % 4)) = .ok r ∧
      exec r { s with pos := BitVec.ofNat 32 c } = .next
        { s with
          grp := Memory.write 0 (groupAt s f q c).1 s.grp
          pos := BitVec.ofNat 32 (groupAt s f q c).2 } := by
  have hc : (BitVec.ofNat 32 c).toNat = c := by have := s.len.isLt; exact Nat.mod_eq_of_lt (by omega)
  have hsel := field2_toNat (s.peek .inp (s.pos.toNat + q / 4)) (q % 4)
  obtain ⟨r, hr, -, -, hexec⟩ := selectorRow hf (b := field2 (s.peek .inp (s.pos.toNat + q / 4)) (q % 4))
    (by rw [hsel]; exact Nat.mod_lt _ (by decide))
  refine ⟨r, hr, ?_⟩
  rw [hexec, hsel, group_eq _ (selected_width_legal hf _ _) (show (BitVec.ofNat 32 c).toNat + 24 ≤ s.params.inCap by omega),
    outcome_ok]
  dsimp only
  rw [hc]
  rfl

/-- A decoded selector's row answers what the group at that cursor gives. -/
theorem exec_groupAt_of_decode {f : Format} (hf : isWidthFormat f = true) {s u : State} {q c : Nat} {r : Instr}
    (hleft : c + 24 ≤ s.len.toNat) (hcap : s.len.toNat ≤ s.params.inCap)
    (hr : decode f (field2 (s.peek .inp (s.pos.toNat + q / 4)) (q % 4)) = .ok r)
    (hu : exec r { s with pos := BitVec.ofNat 32 c } = .next u) :
    u = { s with
      grp := Memory.write 0 (groupAt s f q c).1 s.grp
      pos := BitVec.ofNat 32 (groupAt s f q c).2 } := by
  obtain ⟨r', hr', hexec⟩ := exec_groupAt hf s q hleft hcap
  rw [hr] at hr'
  obtain rfl : r = r' := by injection hr'
  rw [hu] at hexec
  injection hexec

theorem groupAt_cursor_toNat {f : Format} (hf : isWidthFormat f = true) {s : State} {q c : Nat}
    (hleft : c + 24 ≤ s.len.toNat) : (BitVec.ofNat 32 (groupAt s f q c).2).toNat = (groupAt s f q c).2 :=
  refGroup_cursor_toNat (selected_width_legal hf _ _) _ hleft

theorem groupAt_length {f : Format} (hf : isWidthFormat f = true) (s : State) (q c : Nat) :
    (groupAt s f q c).1.length = 16 := (refGroup_spec _ (selected_width_legal hf _ _) c).1

/-- The latch after a group's row holds the group's values. -/
theorem peek_grp_groupAt {f : Format} (hf : isWidthFormat f = true) (s : State) (q c : Nat) {k : Nat} (hk : k < 16) :
    ({ s with
      grp := Memory.write 0 (groupAt s f q c).1 s.grp
      pos := BitVec.ofNat 32 (groupAt s f q c).2 } : State).peek .grp k = (groupAt s f q c).1.getD k 0 := by
  rw [peek_grp_latched, if_pos (hk.trans_eq (groupAt_length hf s q c).symm)]

/-- The three packed sources select widths. -/
theorem isWidthFormat_of_packedRow {row : Instr × Format} (hrow : row ∈ packedRows) : isWidthFormat row.2 = true := by
  simp only [packedRows, List.mem_cons, List.not_mem_nil, or_false] at hrow
  obtain rfl | rfl | rfl := hrow
  all_goals rfl

/-- From given rows' steps, the cursors of a column are those of its reference groups. -/
theorem groupAt_cursor_of_exec {f : Format} (hf : isWidthFormat f = true) {s : State} {cur : Nat → Nat} {n : Nat}
    (hcap : s.len.toNat ≤ s.params.inCap)
    (h : ∀ q < n, cur q + 24 ≤ s.len.toNat ∧ ∃ r u,
      decode f (field2 (s.peek .inp (s.pos.toNat + q / 4)) (q % 4)) = .ok r ∧
      exec r { s with pos := BitVec.ofNat 32 (cur q) } = .next u ∧ u.pos.toNat = cur (q + 1)) :
    ∀ q < n, cur q + 24 ≤ s.len.toNat ∧ (groupAt s f q (cur q)).2 = cur (q + 1) := by
  intro q hq
  obtain ⟨hleft, r, u, hr, hu, hpos⟩ := h q hq
  refine ⟨hleft, ?_⟩
  rw [← hpos, exec_groupAt_of_decode hf hleft hcap hr hu]
  exact (groupAt_cursor_toNat hf hleft).symm

/-- The reference column passes its two checks and runs its groups after the width header. -/
theorem refColumn_eq_refGroups {inp : Bytes} {len n p : Nat} (table : List Nat) (hwhole : n % 16 = 0)
    (hheader : p + (n + 63) / 64 ≤ len) :
    refColumn inp len table p n = refGroups inp len table p 0 (n / 16) (p + (n + 63) / 64) := by
  rw [refColumn, if_neg (not_not_intro hwhole), if_neg (Nat.not_lt.mpr hheader)]

/-- A packed row whose groups each have their look-ahead: the column's values in the plane's place, at the groups' own
cursors. -/
theorem exec_packedRow_at_cursors {row : Instr × Format} (hrow : row ∈ packedRows) (s : State) {cur : Nat → Nat}
    (hwhole : s.blkAligned.toNat % 16 = 0) (hfit : s.planeBase + s.blkAligned.toNat ≤ 1024)
    (hcap : s.len.toNat ≤ s.params.inCap) (hfirst : cur 0 = s.pos.toNat + (s.blkAligned.toNat + 63) / 64)
    (hheader : cur 0 ≤ s.len.toNat)
    (hcur : ∀ q < s.blkAligned.toNat / 16,
      cur q + 24 ≤ s.len.toNat ∧ (groupAt s row.2 q (cur q)).2 = cur (q + 1)) :
    ∃ c m, exec row.1 s = .next (afterSource s c m (cur (s.blkAligned.toNat / 16))) ∧
      c.length = s.blkAligned.toNat ∧ LatchKept s.grp m ∧ cur (s.blkAligned.toNat / 16) ≤ s.len.toNat ∧
      ∀ q < s.blkAligned.toNat / 16, ∀ k < 16, c.getD (16 * q + k) 0 = (groupAt s row.2 q (cur q)).1.getD k 0 := by
  have hf := isWidthFormat_of_packedRow hrow
  obtain ⟨c, hgroups, -, hvalues⟩ := refGroups_cursors (s.peek .inp) s.len.toNat (widthsOf row.2) s.pos.toNat
    (fun k hk => widthsOf_legal hf hk) cur (s.blkAligned.toNat / 16) 0 (fun q _ hq => hcur q (by omega))
  rw [hfirst, Nat.zero_add] at hgroups
  have hsource := packedSource_eq hf s hcap hfit
  rw [refColumn_eq_refGroups _ hwhole (hfirst ▸ hheader), hgroups] at hsource
  obtain ⟨hlength, -, -, hlast, m, hm, hrun⟩ := hsource
  refine ⟨c, m, by rw [exec_packedRow hrow, hrun, outcome_ok], hlength, hm, hlast (by omega), fun q hq k hk => ?_⟩
  rw [hvalues q hq k hk, Nat.zero_add]
  rfl

/-- The latch after a source, beyond its 16 bytes, reads as before. -/
theorem peek_afterSource_latch {s : State} {m : Memory} (h : LatchKept s.grp m) (bs : List Byte) (p : Nat) {a : Nat}
    (ha : 16 ≤ a) : (afterSource s bs m p).peek .grp a = s.peek .grp a := by
  obtain ⟨-, -, hbeyond⟩ := h
  have hlatch : (afterSource s bs m p).grp = m := rfl
  have hepoch : (afterSource s bs m p).epoch = s.epoch := rfl
  rw [State.peek, State.peek, State.mem_grp, State.mem_grp, hlatch, hepoch, hbeyond a ha]

/-- Settles O57. -/
theorem packedSourceRunsWhereEveryLookAheadHolds : Obligations.PackedSourceRunsWhereEveryLookAheadHolds := by
  intro row hrow s cur hwhole hfit hcap hfirst hheader hsteps base
  have hf := isWidthFormat_of_packedRow hrow
  have hcur := groupAt_cursor_of_exec hf hcap hsteps
  obtain ⟨c, m, hexec, hlength, hm, hlast, hvalues⟩ :=
    exec_packedRow_at_cursors hrow s hwhole hfit hcap hfirst hheader hcur
  refine ⟨_, hexec, ?_, fun q hq r u hr hu k hk => ?_, fun a ha => ?_, fun a ha => peek_afterSource_latch hm c _ ha, rfl⟩
  · have := s.len.isLt
    exact Nat.mod_eq_of_lt (by omega)
  · rw [exec_groupAt_of_decode hf (hcur q hq).1 hcap hr hu, peek_grp_groupAt hf s q (cur q) hk, ← hvalues q hq k hk,
      Nat.add_assoc]
    exact peek_afterSource_inside s m _ (by omega)
  · exact peek_afterSource_outside s m _ (by rw [hlength]; exact ha)

/-- The cursors of a column's groups, each where the group before leaves it. -/
def columnCursor (s : State) (f : Format) : Nat → Nat
  | 0 => s.pos.toNat + (s.blkAligned.toNat + 63) / 64
  | q + 1 => (groupAt s f q (columnCursor s f q)).2

/-- Each group takes at most 24 bytes (R108). -/
theorem columnCursor_le {f : Format} (hf : isWidthFormat f = true) (s : State) (q : Nat) :
    columnCursor s f q ≤ s.pos.toNat + (s.blkAligned.toNat + 63) / 64 + 24 * q := by
  induction q with
  | zero => exact le_rfl
  | succ q ih =>
    obtain ⟨-, -, hlimit⟩ := refGroup_spec (s.peek .inp)
      (selected_width_legal hf (s.peek .inp (s.pos.toNat + q / 4)) (q % 4)) (columnCursor s f q)
    rw [columnCursor, groupAt]
    omega

/-- Settles O12: with 24 bytes for each group in advance, every group's look-ahead holds at its own cursor. -/
theorem packedSourceRunsItsGroupsInOrder : Obligations.PackedSourceRunsItsGroupsInOrder := by
  intro row hrow s hwhole hfit hleft hcap base
  have hf := isWidthFormat_of_packedRow hrow
  have hroom : ∀ q < s.blkAligned.toNat / 16, columnCursor s row.2 q + 24 ≤ s.len.toNat := by
    intro q hq
    have := columnCursor_le hf s q
    omega
  have hsteps : ∀ q < s.blkAligned.toNat / 16, ∃ r u,
      decode row.2 (field2 (s.peek .inp (s.pos.toNat + q / 4)) (q % 4)) = .ok r ∧
      exec r { s with pos := BitVec.ofNat 32 (columnCursor s row.2 q) } = .next u ∧
      u.pos.toNat = columnCursor s row.2 (q + 1) := by
    intro q hq
    obtain ⟨r, hr, hexec⟩ := exec_groupAt hf s q (hroom q hq) hcap
    exact ⟨r, _, hr, hexec, groupAt_cursor_toNat hf (hroom q hq)⟩
  obtain ⟨t, hexec, hpos, hvalues, hres, hgrp, hframe⟩ := packedSourceRunsWhereEveryLookAheadHolds row hrow s
    (columnCursor s row.2) hwhole hfit hcap rfl (show _ + _ ≤ _ by omega) fun q hq => ⟨hroom q hq, hsteps q hq⟩
  refine ⟨t, columnCursor s row.2, hexec, rfl, hpos, fun q hq => ?_, hres, hgrp, hframe⟩
  obtain ⟨r, u, hr, hu, hnext⟩ := hsteps q hq
  exact ⟨r, u, hr, hu, hnext, hvalues q hq r u hr hu⟩

/-- A reference column that reaches group `q` and finds fewer than 24 bytes left at its cursor (R123). -/
theorem refGroups_truncated (inp : Bytes) {len : Nat} (table : List Nat) (hp : Nat) (cur : Nat → Nat) (q : Nat) :
    ∀ start n, q < n → (∀ i, start ≤ i → i < start + q → cur i + 24 ≤ len ∧
      (refGroup inp (table.getD (((inp (hp + i / 4)).toNat >>> (2 * (i % 4))) % 4) 0) (cur i)).2 = cur (i + 1)) →
      len < cur (start + q) + 24 →
      refGroups inp len table hp start n (cur start) = .error (.truncGroup, cur (start + q)) := by
  induction q with
  | zero =>
    rintro start (_ | n) hn - hshort
    · exact absurd hn (Nat.not_lt_zero 0)
    · exact if_pos hshort
  | succ q ih =>
    rintro start (_ | n) hn hcur hshort
    · exact absurd hn (Nat.not_lt_zero _)
    · obtain ⟨hleft, hnext⟩ := hcur start le_rfl (by omega)
      have hrest := ih (start + 1) n (by omega) (fun i h1 h2 => hcur i (by omega) (by omega))
        (by rwa [show start + 1 + q = start + (q + 1) by omega])
      rw [refGroups, if_neg (Nat.not_lt.mpr hleft)]
      simp only [hnext, hrest]
      rw [show start + 1 + q = start + (q + 1) by omega]
      rfl

/-- Settles O14: the column's error, in the state of the failing check, is the source's. -/
theorem groupLookAheadIsCheckedBeforeEveryGroup : Obligations.GroupLookAheadIsCheckedBeforeEveryGroup := by
  intro row hrow s q cur hwhole hq hcap hfirst hheader hsteps hshort
  have hf := isWidthFormat_of_packedRow hrow
  have hcur := groupAt_cursor_of_exec hf hcap hsteps
  have hgroups := refGroups_truncated (s.peek .inp) (widthsOf row.2) s.pos.toNat cur q 0 (s.blkAligned.toNat / 16) hq
    (fun i _ hi => hcur i (by omega)) (by rwa [Nat.zero_add])
  rw [hfirst, Nat.zero_add] at hgroups
  have hcolumn := column_eq hf s.blkAligned.toNat s hcap
  rw [refColumn_eq_refGroups _ hwhole (hfirst ▸ hheader), hgroups] at hcolumn
  obtain ⟨-, hwithin, m, hm, hrun⟩ := hcolumn
  have hpos : (BitVec.ofNat 32 (cur q)).toNat = cur q := by
    have hle := hwithin (by omega)
    have := s.len.isLt
    exact Nat.mod_eq_of_lt (by omega)
  have hsource : packedSource row.2 s =
      raise .truncGroup ({ s with grp := m, pos := BitVec.ofNat 32 (cur q) } : State) := by
    rw [packedSource, hrun]
    rfl
  obtain ⟨-, -, hbeyond⟩ := hm
  refine ⟨_, m, by rw [exec_packedRow hrow, hsource, outcome_raise], State.endDecode_st _ _, rfl, hbeyond,
    fun hobeyed => ?_⟩
  obtain ⟨hinPos, hstatus⟩ := State.endDecode_error_record (s := { s with grp := m, pos := BitVec.ofNat 32 (cur q) })
    hobeyed .truncGroup
  exact ⟨by rw [hinPos]; exact hpos, hstatus, State.endDecode_error_elemDone (s := { s with grp := m, pos := _ }) hobeyed _⟩

end Sys2Proof.Machine
end

section
/-!
PROOFS. The steps of a block against the reference function (43_sequencer.md, R176): a plane's source, a component
group's delta and the tail, each from the machine's own bytes.
-/

namespace Sys2Proof.Machine

/-! ## What the reference function works on, read from a state -/

/-- The cursor, the committed elements and the arrays of R31 to R35, as a state holds them. -/
def State.scratch (s : State) : Scratch where
  pos := s.pos.toNat
  done := s.done.toNat
  last := s.peek .last
  chan := s.peek .chan
  ctl := s.peek .ctl
  res := s.peek .res
  tr := s.peek .tr
  out := s.peek .out

/-- A memory reads, after a write, as the reference function's array after its own write. -/
theorem State.peek_write (s : State) (sp : Space) (a : Nat) (bs : List Byte) :
    (s.setMem sp (Memory.write a bs (s.mem sp))).peek sp = Bytes.put (s.peek sp) a bs := by
  funext x
  rw [State.peek_setMem_write]
  simp [Bytes.put]

/-- A number up to `len` does not wrap in the cursor. -/
theorem cursor_toNat {s : State} {p : Nat} (h : p ≤ s.len.toNat) : (BitVec.ofNat 32 p).toNat = p :=
  Nat.mod_eq_of_lt (h.trans_lt s.len.isLt)

/-! ## The row of a plane's source (R77, R78, R169) -/

/-- The source row of a control code (R78). -/
def sourceRow (code : Nat) : Instr := [Instr.srcPacked0, .srcPacked1, .srcZero, .srcLiteral].getD code .srcZero

/-- The source row of plane `j` by the version and the group's control byte (R77). -/
def planeRow (ver : BitVec 1) (b : Byte) (j : Nat) : Instr :=
  if ver = 0 then .srcPackedV0 else sourceRow ((b.toNat >>> (2 * j)) % 4)

/-- The rows of residual sources. -/
def isSource (i : Instr) : Prop :=
  i = .srcPackedV0 ∨ i = .srcPacked0 ∨ i = .srcPacked1 ∨ i = .srcZero ∨ i = .srcLiteral

theorem isSource_planeRow (ver : BitVec 1) (b : Byte) (j : Nat) : isSource (planeRow ver b j) := by
  unfold planeRow
  split
  case isTrue => exact .inl rfl
  case isFalse =>
    have hlt : (b.toNat >>> (2 * j)) % 4 < 4 := Nat.mod_lt _ (by decide)
    generalize (b.toNat >>> (2 * j)) % 4 = code at hlt
    match code with
    | 0 => exact .inr (.inl rfl)
    | 1 => exact .inr (.inr (.inl rfl))
    | 2 => exact .inr (.inr (.inr (.inl rfl)))
    | 3 => exact .inr (.inr (.inr (.inr rfl)))

/-- The meaning of a source row is the source it runs. -/
theorem exec_source {i : Instr} (h : isSource i) (s : State) : exec i s = outcome (runSource i s) := by
  obtain rfl | rfl | rfl | rfl | rfl := h
  all_goals rfl

/-- A 2-bit control code selects its row. -/
theorem fetchUnit_ctrl2 {b : Byte} (hb : b.toNat < 4) : fetchUnit .ctrl2 b = .ok (sourceRow b.toNat) := by
  obtain rfl | rfl | rfl | rfl := twoBit_cases hb
  all_goals rfl

/-- The row of the current plane, in every state. -/
theorem planeUnit_eq (s : State) :
    planeUnit s = .ok (planeRow s.ver (s.peek .ctl (s.g.toNat / 4)) s.j.toNat) := by
  unfold planeUnit planeRow
  split
  case isTrue => rfl
  case isFalse =>
    have hg : s.g.toNat / 4 < s.size .ctl := by have := s.g.isLt; rw [State.size_ctl]; omega
    have hcode := field2_toNat (s.peek .ctl (s.g.toNat / 4)) s.j.toNat
    rw [State.load_one hg, run_bind_ok, ← hcode]
    change fetchUnit .ctrl2 (field2 (s.peek .ctl (s.g.toNat / 4)) s.j.toNat) = _
    exact fetchUnit_ctrl2 (by rw [hcode]; exact Nat.mod_lt _ (by decide))

/-- PLANE is its row's source and then the next plane. -/
theorem plane_eq (s : State) :
    plane s = runSource (planeRow s.ver (s.peek .ctl (s.g.toNat / 4)) s.j.toNat) s >>= fun u => .ok (nextPlane u) := by
  rw [plane, planeUnit_eq, run_bind_ok]

/-- Settles O32: the row is the one PLANE fetches, and its run is PLANE's first part. -/
theorem planeRunsTheCodesSource : Obligations.PlaneRunsTheCodesSource := by
  intro s
  have hplane : exec .plane s = outcome (plane s) := rfl
  refine ⟨planeRow s.ver (s.peek .ctl (s.g.toNat / 4)) s.j.toNat, fun hver => if_pos hver, fun hver => ?_,
    fun u hu => ⟨?_, ?_⟩, fun e he => ?_⟩
  · have hver0 : s.ver ≠ 0 := by rw [hver]; decide
    rw [planeRow, if_neg hver0, sourceRow, Nat.shiftRight_eq_div_pow, Nat.pow_mul]
  · rw [exec_source (isSource_planeRow _ _ _), hu, outcome_ok]
  · rw [hplane, plane_eq, hu, run_bind_ok, outcome_ok]
    rfl
  · rw [hplane, plane_eq, he, run_bind_error, exec_source (isSource_planeRow _ _ _), he]

/-! ## A source against the reference function's plane -/

/-- The reference function's packed column in plane `j`'s place. -/
def refPacked (inp : Bytes) (len : Nat) (table : List Nat) (b j : Nat) (m : Scratch) : RefRun Scratch := do
  let (col, p) ← refColumn inp len table m.pos (align16 b)
  .ok { m with res := m.res.put (j * b) col, pos := p }

/-- The reference function's plane, by the row of its source. -/
def refSource (inp : Bytes) (len b j : Nat) (m : Scratch) : Instr → RefRun Scratch
  | .srcPackedV0 => refPacked inp len (widthsOf .wselV0) b j m
  | .srcPacked0 => refPacked inp len (widthsOf .wselV1C0) b j m
  | .srcPacked1 => refPacked inp len (widthsOf .wselV1C1) b j m
  | .srcLiteral =>
    if len < m.pos + b then .error (.truncLiteral, m.pos)
    else .ok { m with res := m.res.put (j * b) (inp.take m.pos b), pos := m.pos + b }
  | _ => .ok { m with res := m.res.put (j * b) (List.replicate b 0) }

/-- The reference function's case split on the control code is the choice of a row (R77, R78, R127 to R131). -/
theorem refPlane_eq (inp : Bytes) (len : Nat) (ver : BitVec 1) (b g j : Nat) (m : Scratch) :
    refPlane inp len ver b g j m = refSource inp len b j m (planeRow ver (m.ctl (g / 4)) j) := by
  unfold refPlane planeRow
  split
  case isTrue => rfl
  case isFalse =>
    have hlt : ((m.ctl (g / 4)).toNat >>> (2 * j)) % 4 < 4 := Nat.mod_lt _ (by decide)
    generalize ((m.ctl (g / 4)).toNat >>> (2 * j)) % 4 = code at hlt
    match code with
    | 0 | 1 | 2 | 3 => rfl

/-- The plane fits RES and what is left of the input lies in the input memory. -/
structure PlaneFits (s : State) : Prop where
  blk : s.blk.toNat ≤ 256
  aligned : s.blkAligned.toNat = align16 s.blk.toNat
  len : s.len.toNat ≤ s.params.inCap
  pos : s.pos.toNat ≤ s.len.toNat

/-- What a source that answers keeps to: the latch's limits, a cursor that moves forward within the input by at most a
largest column, and a column of the block's length, aligned or not. -/
structure SourceOk (s : State) (bs : List Byte) (grp : Memory) (p : Nat) : Prop where
  latch : LatchKept s.grp grp
  forward : s.pos.toNat ≤ p
  within : p ≤ s.len.toNat
  limit : p ≤ s.pos.toNat + 388
  covers : s.blk.toNat ≤ bs.length
  length : bs.length ≤ s.blkAligned.toNat

/-- The state of a failing check inside a column (R203). -/
structure ColumnFails (s : State) (grp : Memory) (p : Nat) : Prop where
  latch : LatchKept s.grp grp
  forward : s.pos.toNat ≤ p
  within : p ≤ s.len.toNat

/-- A source's run is the reference function's plane: the same column in the plane's place and the same cursor, or the
same error at the same cursor. -/
def SourceMatches (s : State) (run : Run State) : RefRun Scratch → Prop
  | .ok m => ∃ bs grp p, run = .ok (afterSource s bs grp p) ∧ SourceOk s bs grp p ∧
      m = { s.scratch with res := s.scratch.res.put s.planeBase bs, pos := p }
  | .error (r, p) => ∃ grp, run = .error (.raised r { s with grp := grp, pos := BitVec.ofNat 32 p }) ∧ ColumnFails s grp p

theorem align16_eq (n : Nat) : align16 n = (n + 15) / 16 * 16 := rfl

/-- The aligned plane lies in RES (R33, R126). -/
theorem PlaneFits.aligned_le {s : State} (h : PlaneFits s) :
    s.blk.toNat ≤ s.blkAligned.toNat ∧ s.blkAligned.toNat ≤ 256 ∧ s.planeBase + s.blkAligned.toNat ≤ 1024 := by
  obtain ⟨hblk, haligned, -, -⟩ := h
  rw [haligned, align16_eq]
  have hj : s.j.toNat ≤ 3 := Nat.le_of_lt_succ s.j.isLt
  have hbase : s.planeBase ≤ 3 * s.blk.toNat := Nat.mul_le_mul_right _ hj
  omega

theorem packedSource_matches {f : Format} (hf : isWidthFormat f = true) {s : State} (h : PlaneFits s) :
    SourceMatches s (packedSource f s)
      (refPacked (s.peek .inp) s.len.toNat (widthsOf f) s.blk.toNat s.j.toNat s.scratch) := by
  obtain ⟨hle, hmax, hfit⟩ := h.aligned_le
  have hsource := packedSource_eq hf s h.len hfit
  have hpos : s.scratch.pos = s.pos.toNat := rfl
  rw [refPacked, hpos, ← h.aligned]
  rcases hcolumn : refColumn (s.peek .inp) s.len.toNat (widthsOf f) s.pos.toNat s.blkAligned.toNat with ⟨r, p⟩ | ⟨c, p⟩
  · rw [hcolumn] at hsource
    obtain ⟨hforward, hwithin, grp, hlatch, hrun⟩ := hsource
    exact ⟨grp, hrun, hlatch, hforward, hwithin h.pos⟩
  · rw [hcolumn] at hsource
    obtain ⟨hlength, hforward, hlimit, hwithin, grp, hlatch, hrun⟩ := hsource
    exact ⟨c, grp, p, hrun, ⟨hlatch, hforward, hwithin h.pos, by omega, by omega, by omega⟩, rfl⟩

theorem srcZero_matches {s : State} (h : PlaneFits s) :
    SourceMatches s (srcZero s) (refSource (s.peek .inp) s.len.toNat s.blk.toNat s.j.toNat s.scratch .srcZero) := by
  obtain ⟨hle, -, -⟩ := h.aligned_le
  have hlength : (List.replicate s.blk.toNat (0 : Byte)).length = s.blk.toNat := List.length_replicate
  refine ⟨List.replicate s.blk.toNat 0, s.grp, s.pos.toNat, ?_,
    ⟨LatchKept.refl _, le_rfl, h.pos, Nat.le_add_right _ _, hlength.ge, hlength.trans_le hle⟩, rfl⟩
  rw [srcZero_eq s (planeBase_add_blk_le h.blk), afterSource, BitVec.ofNat_toNat, BitVec.setWidth_eq]

theorem srcLiteral_matches {s : State} (h : PlaneFits s) :
    SourceMatches s (srcLiteral s) (refSource (s.peek .inp) s.len.toNat s.blk.toNat s.j.toNat s.scratch .srcLiteral) := by
  obtain ⟨hle, -, -⟩ := h.aligned_le
  have hpos : s.scratch.pos = s.pos.toNat := rfl
  rw [refSource, hpos]
  by_cases hshort : s.len.toNat < s.pos.toNat + s.blk.toNat
  · rw [if_pos hshort]
    refine ⟨s.grp, ?_, LatchKept.refl _, le_rfl, h.pos⟩
    rw [srcLiteral_short s hshort, BitVec.ofNat_toNat, BitVec.setWidth_eq]
    rfl
  · have hblk := h.blk
    have hlength := Bytes.take_length (s.peek .inp) s.pos.toNat s.blk.toNat
    rw [if_neg hshort]
    exact ⟨_, s.grp, _, srcLiteral_eq s (planeBase_add_blk_le h.blk) h.len (by omega),
      ⟨LatchKept.refl _, by omega, by omega, by omega, hlength.ge, hlength.trans_le hle⟩, rfl⟩

theorem runSource_matches {i : Instr} (hi : isSource i) {s : State} (h : PlaneFits s) :
    SourceMatches s (runSource i s) (refSource (s.peek .inp) s.len.toNat s.blk.toNat s.j.toNat s.scratch i) := by
  obtain rfl | rfl | rfl | rfl | rfl := hi
  · exact packedSource_matches (f := .wselV0) rfl h
  · exact packedSource_matches (f := .wselV1C0) rfl h
  · exact packedSource_matches (f := .wselV1C1) rfl h
  · exact srcZero_matches h
  · exact srcLiteral_matches h

/-- PLANE against the reference function's plane. -/
theorem plane_matches {s : State} (h : PlaneFits s) :
    SourceMatches s (runSource (planeRow s.ver (s.peek .ctl (s.g.toNat / 4)) s.j.toNat) s)
      (refPlane (s.peek .inp) s.len.toNat s.ver s.blk.toNat s.g.toNat s.j.toNat s.scratch) := by
  rw [refPlane_eq]
  exact runSource_matches (isSource_planeRow _ _ _) h

/-- PLANE of a source that answers. -/
theorem exec_plane_of_ok {s u : State}
    (h : runSource (planeRow s.ver (s.peek .ctl (s.g.toNat / 4)) s.j.toNat) s = .ok u) :
    exec .plane s = .next (nextPlane u) := by
  have hplane : plane s = .ok (nextPlane u) := by rw [plane_eq, h, run_bind_ok]
  exact congrArg outcome hplane

/-- PLANE of a source that raises. -/
theorem exec_plane_of_raised {s u : State} {r : Reason}
    (h : runSource (planeRow s.ver (s.peek .ctl (s.g.toNat / 4)) s.j.toNat) s = .error (.raised r u)) :
    exec .plane s = .next (u.endDecode (some r)) := by
  have hplane : plane s = .error (.raised r u) := by rw [plane_eq, h, run_bind_error]
  exact congrArg outcome hplane

/-- A source's column reads in RES as the reference function's, and nothing else of the scratch changes but the
cursor. -/
theorem scratch_afterSource {s : State} {bs : List Byte} {grp : Memory} {p : Nat} (h : SourceOk s bs grp p) :
    (afterSource s bs grp p).scratch = { s.scratch with res := s.scratch.res.put s.planeBase bs, pos := p } := by
  have hpos : (afterSource s bs grp p).pos.toNat = p := cursor_toNat h.within
  have hres : (afterSource s bs grp p).peek .res = Bytes.put (s.peek .res) s.planeBase bs := s.peek_write .res s.planeBase bs
  rw [State.scratch, hpos, hres]
  rfl

/-- The move to the next plane changes the plane and the stage alone (R169). -/
theorem nextPlane_frame (s : State) : { nextPlane s with j := s.j, st := s.st } = s := by
  unfold nextPlane
  split
  · rfl
  · rfl

theorem nextPlane_of_lt {s : State} (h : s.j.toNat < 3) : nextPlane s = { s with j := s.j + 1, st := .plane } := if_pos h

theorem nextPlane_of_last {s : State} (h : ¬ s.j.toNat < 3) : nextPlane s = { s with st := .delta } := if_neg h

/-- Before the fourth plane the count of planes does not wrap. -/
theorem plane_succ_toNat {s : State} (h : s.j.toNat < 3) : (s.j + 1).toNat = s.j.toNat + 1 := by bv_omega

@[simp] theorem nextPlane_pos (s : State) : (nextPlane s).pos = s.pos := (congrArg State.pos (nextPlane_frame s) :)

@[simp] theorem nextPlane_mem (s : State) (sp : Space) : (nextPlane s).mem sp = s.mem sp := by
  have h := congrArg (State.mem · sp) (nextPlane_frame s)
  cases sp
  all_goals exact h

@[simp] theorem nextPlane_peek (s : State) (sp : Space) (a : Nat) : (nextPlane s).peek sp a = s.peek sp a :=
  State.peek_congr sp (nextPlane_mem s sp) (congrArg State.epoch (nextPlane_frame s) :) a

/-! ## A column completes with a largest column's bytes left (R108, R123) -/

/-- With 24 bytes for each group in advance, the reference column answers. -/
theorem refGroups_completes (inp : Bytes) {len : Nat} {f : Format} (hf : isWidthFormat f = true) (hp n : Nat) :
    ∀ q p, p + 24 * n ≤ len → ∃ r, refGroups inp len (widthsOf f) hp q n p = .ok r := by
  induction n with
  | zero => exact fun q p _ => ⟨_, rfl⟩
  | succ n ih =>
    intro q p hleft
    obtain ⟨-, -, hlimit⟩ := refGroup_spec inp (selected_width_legal hf (inp (hp + q / 4)) (q % 4)) p
    obtain ⟨r, hr⟩ := ih (q + 1)
      (refGroup inp ((widthsOf f).getD (((inp (hp + q / 4)).toNat >>> (2 * (q % 4))) % 4) 0) p).2 (by omega)
    exact ⟨_, (if_neg (by omega)).trans (congrArg (· >>= _) hr)⟩

theorem refPacked_completes {inp : Bytes} {len : Nat} {f : Format} (hf : isWidthFormat f = true) {b : Nat} (j : Nat)
    {m : Scratch} (hb : b ≤ 256) (hleft : m.pos + 388 ≤ len) : ∃ m', refPacked inp len (widthsOf f) b j m = .ok m' := by
  have hwhole : align16 b % 16 = 0 := Nat.mul_mod_left _ _
  have hmax : align16 b ≤ 256 := by rw [align16_eq]; omega
  obtain ⟨r, hr⟩ := refGroups_completes inp (len := len) hf m.pos (align16 b / 16) 0
    (m.pos + (align16 b + 63) / 64) (by omega)
  refine ⟨{ m with res := m.res.put (j * b) r.1, pos := r.2 }, ?_⟩
  rw [refPacked, refColumn_eq_refGroups _ hwhole (by omega), hr]
  rfl

theorem refPlane_completes {inp : Bytes} {len : Nat} (ver : BitVec 1) {b : Nat} (g j : Nat) {m : Scratch} (hb : b ≤ 256)
    (hleft : m.pos + 388 ≤ len) : ∃ m', refPlane inp len ver b g j m = .ok m' := by
  rw [refPlane_eq]
  obtain h | h | h | h | h := isSource_planeRow ver (m.ctl (g / 4)) j
  all_goals rw [h]
  · exact refPacked_completes (f := .wselV0) rfl j hb hleft
  · exact refPacked_completes (f := .wselV1C0) rfl j hb hleft
  · exact refPacked_completes (f := .wselV1C1) rfl j hb hleft
  · exact ⟨_, rfl⟩
  · exact ⟨_, if_neg (by omega)⟩

/-! ## The block under way (R166, R167, R179) -/

/-- What the invariant says of the block's numbers (R167, R180). -/
structure BlockBounds (s : State) : Prop where
  elemMin : 4 ≤ s.es.toNat
  elemMax : s.es.toNat ≤ 256
  elemAligned : s.es.toNat % 4 = 0
  some : 1 ≤ s.blk.toNat
  few : s.blk.toNat ≤ 256
  inBlock : s.blk.toNat * s.es.toNat ≤ 8192
  counted : s.done.toNat + s.blk.toNat ≤ s.cnt.toNat
  inOut : s.done.toNat * s.es.toNat + s.blk.toNat * s.es.toNat ≤ s.cnt.toNat * s.es.toNat

/-- The capacity of a legal element size (R166, R180). -/
theorem blockCap_bounds {es : Nat} (h : legalElemSize es = true) : 32 ≤ blockCap es ∧ blockCap es ≤ 256 := by
  obtain ⟨hmin, hmax, -⟩ := (legalElemSize_iff es).mp h
  exact ⟨le_blockCap (by omega) (by decide) (by decide) (by omega), min_le_left _ _⟩

theorem State.BlockOk.bounds {s : State} (h : s.BlockOk) : BlockBounds s := by
  obtain ⟨hmin, hmax, haligned⟩ := (legalElemSize_iff _).mp h.elemSize
  obtain ⟨hcapMin, hcapMax⟩ := blockCap_bounds h.elemSize
  have hcap := h.capIs
  have hblk := h.blkIs
  have hleft := h.notDone
  have hcounted : s.done.toNat + s.blk.toNat ≤ s.cnt.toNat := by omega
  refine ⟨hmin, hmax, haligned, by omega, by omega, ?_, hcounted, ?_⟩
  · exact (Nat.mul_le_mul_right _ (by omega)).trans (blockCap_mul_le s.es.toNat)
  · rw [← Nat.add_mul]
    exact Nat.mul_le_mul_right _ hcounted

theorem State.BlockOk.planeFits {s : State} (h : s.BlockOk) : PlaneFits s :=
  ⟨h.bounds.few, h.alignedIs, h.inLen, h.posWithin⟩

theorem State.GroupOk.deltaFits {s : State} (h : s.GroupOk) : DeltaFits s :=
  ⟨h.bounds.few, h.groupWithin, h.bounds.elemMax, h.bounds.inBlock⟩

theorem State.Inv.groupOk_of_plane {s : State} (h : s.Inv) (hst : s.st = .plane) : s.GroupOk := by
  have hstage := h.stage
  rw [State.StageOk, hst] at hstage
  exact hstage

/-- Settles O33: with 388 bytes left the reference function's plane answers, and PLANE with it. -/
theorem planeCompletesWithBytesLeft : Obligations.PlaneCompletesWithBytesLeft := by
  intro s hinv hst hleft
  have hfits := (hinv.groupOk_of_plane hst).planeFits
  have hmatches := plane_matches hfits
  obtain ⟨m, hm⟩ := refPlane_completes (inp := s.peek .inp) s.ver s.g.toNat s.j.toNat (m := s.scratch) hfits.blk hleft
  rw [hm] at hmatches
  obtain ⟨bs, grp, p, hrun, hok, -⟩ := hmatches
  have hpos : (afterSource s bs grp p).pos.toNat = p := cursor_toNat hok.within
  refine ⟨_, exec_plane_of_ok hrun, fun hlt => ?_, fun heq => ?_, ?_, ?_, fun a ha => ?_, fun a ha => ?_, ?_⟩
  · rw [nextPlane_of_lt (s := afterSource s bs grp p) hlt]
    exact ⟨rfl, plane_succ_toNat hlt⟩
  · rw [nextPlane_of_last (s := afterSource s bs grp p) (show ¬ s.j.toNat < 3 by omega)]
    exact ⟨rfl, rfl⟩
  · rw [nextPlane_pos, hpos]
    exact hok.forward
  · rw [nextPlane_pos, hpos]
    exact hok.limit
  · rw [nextPlane_peek]
    have hlength := hok.length
    refine peek_afterSource_outside s grp p fun hin => ha ?_
    simp only [State.planeBase] at hin
    omega
  · rw [nextPlane_peek]
    exact peek_afterSource_latch hok.latch bs p ha
  · exact congrArg (fun u : State => { u with res := s.res, grp := s.grp, pos := s.pos, j := s.j, st := s.st })
      (nextPlane_frame (afterSource s bs grp p))

end Sys2Proof.Machine
end

section
/-!
PROOFS. The delta of a component group and the tail against the reference function (42_delta.md, 43_sequencer.md).
-/

namespace Sys2Proof.Machine

/-! ## The row of a component group's delta (R85, R147) -/

/-- The delta row of a component group by the version and the group's descriptor. -/
def deltaRow (ver : BitVec 1) (b : Byte) : Instr := if ver = 0 then .deltaZz8V0 else decodeChannel b

theorem decodeChannel_eq (b : Byte) : decodeChannel b = channelRow (b.extractLsb' 2 6) (b.extractLsb' 0 2) := by
  rw [← decodeChannel_channelByte, channelByte_fields]

/-- The rows of a delta: the implicit one, or a descriptor's. -/
def isDelta (i : Instr) : Prop := i = .deltaZz8V0 ∨ ∃ rest mode, i = channelRow rest mode

theorem isDelta_deltaRow (ver : BitVec 1) (b : Byte) : isDelta (deltaRow ver b) := by
  unfold deltaRow
  split
  case isTrue => exact .inl rfl
  case isFalse => exact .inr ⟨_, _, decodeChannel_eq b⟩

theorem bitVec2_cases (mode : BitVec 2) : mode = 0 ∨ mode = 1 ∨ mode = 2 ∨ mode = 3 := by bv_omega

/-- The meaning of a delta row is the delta it runs. -/
theorem exec_deltaRow {i : Instr} (h : isDelta i) (s : State) : exec i s = outcome (runDelta i s) := by
  obtain rfl | ⟨rest, mode, rfl⟩ := h
  · rfl
  · obtain rfl | rfl | rfl | rfl := bitVec2_cases mode
    all_goals rfl

/-- The row of the current component group, in every state. -/
theorem deltaUnit_eq (s : State) : deltaUnit s = .ok (deltaRow s.ver (s.peek .chan (s.g.toNat / 4))) := by
  unfold deltaUnit deltaRow
  split
  case isTrue => rfl
  case isFalse =>
    have hg : s.g.toNat / 4 < s.size .chan := by have := s.g.isLt; rw [State.size_chan]; omega
    rw [State.load_one hg, run_bind_ok]
    rfl

/-- DELTA is its row's delta and then the next component group. -/
theorem delta_eq (s : State) :
    delta s = runDelta (deltaRow s.ver (s.peek .chan (s.g.toNat / 4))) s >>= fun u => .ok (nextGroup u) := by
  rw [delta, deltaUnit_eq, run_bind_ok]

/-- DELTA of a row that answers. -/
theorem exec_delta_of_ok {s u : State} (h : runDelta (deltaRow s.ver (s.peek .chan (s.g.toNat / 4))) s = .ok u) :
    exec .delta s = .next (nextGroup u) := by
  have hdelta : delta s = .ok (nextGroup u) := by rw [delta_eq, h, run_bind_ok]
  exact congrArg outcome hdelta

/-- DELTA of a row that raises. -/
theorem exec_delta_of_raise {s : State} {r : Reason}
    (h : runDelta (deltaRow s.ver (s.peek .chan (s.g.toNat / 4))) s = raise r s) :
    exec .delta s = .next (s.endDecode (some r)) := by
  have hdelta : delta s = raise r s := by rw [delta_eq, h, run_bind_raise]
  exact congrArg outcome hdelta

/-! ## A delta against the reference function -/

/-- The first `c` lanes of `n` bytes, one after the other, of the reference function (R149). -/
def refLanes {w : Nat} (es b g n : Nat) (f : BitVec w → BitVec w → BitVec w) : Nat → Scratch → Scratch
  | 0, m => m
  | c + 1, m => refLane es b g n (n * c) f (refLanes es b g n f c m)

/-- The reference function's delta, by its row. -/
def refDeltaRow (shift : RotShift) (es b g : Nat) (m : Scratch) : Instr → RefRun Scratch
  | .deltaZz8V0 | .deltaZz8 _ => .ok (refLanes es b g 1 (fun v p => unzz8 v + p) 4 m)
  | .deltaZz16 _ => .ok (refLanes es b g 2 (fun v p => unzz16 v + p) 2 m)
  | .deltaRxor32 rest =>
    .ok (refLanes es b g 4 (fun v p => rotl32 v (rotAmount shift (channelByte rest 2#2)) ^^^ p) 1 m)
  | _ => .error (.badChannel, m.pos)

/-- The reference function's case split on the mode is the choice of a row (R85, R147). -/
theorem refDelta_eq (shift : RotShift) (ver : BitVec 1) (es b g : Nat) (m : Scratch) :
    refDelta shift ver es b g m = refDeltaRow shift es b g m (deltaRow ver (m.chan (g / 4))) := by
  unfold refDelta deltaRow
  split
  case isTrue => rfl
  case isFalse =>
    generalize m.chan (g / 4) = d
    rw [← channelByte_fields d, decodeChannel_channelByte]
    generalize d.extractLsb' 2 6 = rest
    generalize d.extractLsb' 0 2 = mode
    have hmode : (channelByte rest mode).toNat % 4 = mode.toNat := by rw [channelByte_toNat]; omega
    simp only [hmode]
    obtain rfl | rfl | rfl | rfl := bitVec2_cases mode
    all_goals rfl

/-- TR written by a delta keeps its canonical form and its bound. -/
structure TrKept (s : State) (tr : Memory) : Prop where
  canonical : s.tr.wf → tr.wf
  within : (∀ c ∈ s.tr, c.1 < 8192) → ∀ c ∈ tr, c.1 < 8192

/-- The lanes of a row, where the block fits, against the reference function's: TR alone changes, and reads as the
reference function's. -/
theorem deltaLanes_scratch {w : Nat} (n : Nat) (f : BitVec w → BitVec w → BitVec w) {s : State} (hfit : DeltaFits s)
    (c : Nat) (hc : n * c ≤ 4) :
    ∃ tr, deltaLanes n f c s = .ok (s.setMem .tr tr) ∧ TrKept s tr ∧
      (s.setMem .tr tr).scratch = refLanes s.es.toNat s.blk.toNat s.g.toNat n f c s.scratch := by
  induction c with
  | zero => exact ⟨s.tr, rfl, ⟨id, id⟩, rfl⟩
  | succ c ih =>
    rw [Nat.mul_succ] at hc
    obtain ⟨tr, hrun, hkept, hscratch⟩ := ih (by omega)
    obtain ⟨tr', hlane, hpeek, hwf, hbelow⟩ := deltaLane_eq n (n * c) f (s.setMem .tr tr) hc (hfit.setMem_tr tr)
    refine ⟨tr', ?_, ⟨fun h => hwf (hkept.canonical h), fun h => hbelow (hkept.within h)⟩, ?_⟩
    · rw [deltaLanes, hrun, run_bind_ok, hlane]
      rfl
    · have htr : (s.setMem .tr tr').peek .tr = _ := funext hpeek
      rw [refLanes, ← hscratch, State.scratch, htr]
      rfl

/-- What a delta row does, against the reference function's delta: TR alone changes, in the group's bytes, and reads as
the reference function's; or BAD_CHANNEL is raised with nothing changed. -/
def DeltaMatches (s : State) (run : Run State) : RefRun Scratch → Prop
  | .ok m => ∃ tr, run = .ok (s.setMem .tr tr) ∧ TrKept s tr ∧ OnlyTheGroupsBytesOfTr s (s.setMem .tr tr) ∧
      m = (s.setMem .tr tr).scratch
  | .error (r, p) => run = raise r s ∧ r = .badChannel ∧ p = s.pos.toNat

theorem deltaLanes_matches {w n c : Nat} (hw : w = 8 * n) (hc : n * c = 4) (f : BitVec w → BitVec w → BitVec w)
    {s : State} (hfit : DeltaFits s) :
    DeltaMatches s (deltaLanes n f c s) (.ok (refLanes s.es.toNat s.blk.toNat s.g.toNat n f c s.scratch)) := by
  obtain ⟨tr, hrun, hkept, hscratch⟩ := deltaLanes_scratch n f hfit c hc.le
  obtain ⟨tr', hrun', hwritten⟩ := deltaLanes_written hw f hfit c hc.le
  rw [hrun] at hrun'
  obtain rfl : tr = tr' := congrArg State.tr (Except.ok.inj hrun')
  exact ⟨tr, hrun, hkept, hwritten.onlyTheGroupsBytesOfTr hc, hscratch.symm⟩

theorem zigzag8_eq_lanes (s : State) : zigzag8 s = deltaLanes 1 (fun v p => unzz8 v + p) 4 s := by
  simp only [zigzag8, deltaLanes, run_bind_ok, bind_assoc]

theorem runDelta_matches {i : Instr} (hi : isDelta i) {s : State} (hfit : DeltaFits s) :
    DeltaMatches s (runDelta i s)
      (refDeltaRow s.params.rotShift s.es.toNat s.blk.toNat s.g.toNat s.scratch i) := by
  have hzz8 := deltaLanes_matches (w := 8) (n := 1) (c := 4) rfl rfl (fun v p => unzz8 v + p) hfit
  rw [← zigzag8_eq_lanes] at hzz8
  obtain rfl | ⟨rest, mode, rfl⟩ := hi
  · exact hzz8
  · obtain rfl | rfl | rfl | rfl := bitVec2_cases mode
    · exact hzz8
    · exact deltaLanes_matches (w := 16) (n := 2) (c := 2) rfl rfl (fun v p => unzz16 v + p) hfit
    · exact deltaLanes_matches (w := 32) (n := 4) (c := 1) rfl rfl
        (fun v p => rotl32 v (rotAmount s.params.rotShift (channelByte rest 2#2)) ^^^ p) hfit
    · exact ⟨rfl, rfl, rfl⟩

/-- DELTA against the reference function's delta. -/
theorem delta_matches {s : State} (hfit : DeltaFits s) :
    DeltaMatches s (runDelta (deltaRow s.ver (s.peek .chan (s.g.toNat / 4))) s)
      (refDelta s.params.rotShift s.ver s.es.toNat s.blk.toNat s.g.toNat s.scratch) := by
  rw [refDelta_eq]
  exact runDelta_matches (isDelta_deltaRow _ _) hfit

/-! ## The statement of DELTA -/

/-- The row of a descriptor, with its fields as numbers (R84). -/
theorem deltaRow_getD (ver : BitVec 1) (d : Byte) :
    let rest := BitVec.ofNat 6 (d.toNat / 4)
    deltaRow ver d = if ver = 0 then Instr.deltaZz8V0
      else [Instr.deltaZz8 rest, .deltaZz16 rest, .deltaRxor32 rest, .chanBad rest].getD (d.toNat % 4) (.chanBad rest) := by
  intro rest
  have hrest : d.extractLsb' 2 6 = rest := by
    apply BitVec.eq_of_toNat_eq
    rw [BitVec.extractLsb'_toNat, Nat.shiftRight_eq_div_pow]
    rfl
  have hmode : (d.extractLsb' 0 2).toNat = d.toNat % 4 := by rw [BitVec.extractLsb'_toNat, Nat.shiftRight_zero]
  rw [deltaRow, decodeChannel_eq, hrest, ← hmode]
  congr 1
  generalize d.extractLsb' 0 2 = mode
  obtain rfl | rfl | rfl | rfl := bitVec2_cases mode
  all_goals rfl

/-- Only mode 3 of version 1 makes the reference function's delta fail. -/
theorem refDeltaRow_deltaRow_ok (shift : RotShift) (es b g : Nat) (m : Scratch) {ver : BitVec 1} {d : Byte}
    (h : ¬ (ver = 1 ∧ d.toNat % 4 = 3)) : ∃ m', refDeltaRow shift es b g m (deltaRow ver d) = .ok m' := by
  by_cases hver : ver = 0
  · rw [deltaRow, if_pos hver]
    exact ⟨_, rfl⟩
  · have hmode : (d.extractLsb' 0 2).toNat = d.toNat % 4 := by rw [BitVec.extractLsb'_toNat, Nat.shiftRight_zero]
    rw [deltaRow, if_neg hver, decodeChannel_eq]
    generalize d.extractLsb' 0 2 = mode at hmode
    obtain rfl | rfl | rfl | rfl := bitVec2_cases mode
    case inr.inr.inr => exact absurd ⟨by bv_omega, hmode.symm⟩ h
    all_goals exact ⟨_, rfl⟩

/-- Settles O34: the row of the group's mode is the one DELTA fetches. -/
theorem deltaRunsTheModesReconstruction : Obligations.DeltaRunsTheModesReconstruction := by
  intro s hfit hg d rest i
  have hrow : deltaRow s.ver d = i := deltaRow_getD s.ver d
  have hdelta : isDelta i := hrow ▸ isDelta_deltaRow s.ver d
  split
  case isTrue hbad =>
    obtain ⟨hver, hmode⟩ := hbad
    have hver0 : s.ver ≠ 0 := by rw [hver]; decide
    have hi : i = .chanBad rest := by simp only [i, if_neg hver0, hmode]; rfl
    exact exec_delta_of_raise (congrArg (runDelta · s) (hrow.trans hi))
  case isFalse hlegal =>
    have hmatches := runDelta_matches hdelta hfit
    obtain ⟨m, hm⟩ := refDeltaRow_deltaRow_ok s.params.rotShift s.es.toNat s.blk.toNat s.g.toNat s.scratch hlegal
    rw [← hrow, hm] at hmatches
    obtain ⟨tr, hrun, -, honly, -⟩ := hmatches
    refine ⟨s.setMem .tr tr, ?_, honly, exec_delta_of_ok hrun⟩
    rw [exec_deltaRow hdelta, ← hrow, hrun, outcome_ok]

/-! ## The tail (R162 to R166) -/

/-- The state after TAIL: the sizes, the seed and, in version 1, the channel table, and the first stage of the loop. -/
def afterTail (s : State) : State :=
  { tailSizes s with
    last := Memory.write 0 (Bytes.take (s.peek .inp) (s.len.toNat - tailSize s.ver s.es.toNat) s.es.toNat) s.last
    chan := if s.ver = 0 then s.chan
      else Memory.write 0
        (Bytes.take (s.peek .inp) (s.len.toNat - tailSize s.ver s.es.toNat + s.es.toNat) (s.es.toNat / 4)) s.chan
    cap := BitVec.ofNat 9 (blockCap s.es.toNat)
    done := 0
    st := if 0 < s.cnt.toNat then .blk else .final }

theorem tailSize_le_padded (ver : BitVec 1) (es : Nat) : tailSize ver es ≤ tailPadded ver es := le_max_left _ _

theorem tailSizes_ts_toNat {s : State} (hes : s.es.toNat ≤ 256) : (tailSizes s).ts.toNat = tailSize s.ver s.es.toNat :=
  Nat.mod_eq_of_lt ((tailSize_le_padded _ _).trans_lt (tailPadded_lt hes s.ver))

theorem tailSizes_tp_toNat {s : State} (hes : s.es.toNat ≤ 256) :
    (tailSizes s).tp.toNat = tailPadded s.ver s.es.toNat :=
  Nat.mod_eq_of_lt (tailPadded_lt hes s.ver)

/-- The tail lies in the buffer: the element, and in version 1 the channel table after it. -/
theorem tailSize_cases (ver : BitVec 1) (es : Nat) :
    (ver = 0 ∧ tailSize ver es = es) ∨ (ver ≠ 0 ∧ tailSize ver es = es + es / 4) := by
  unfold tailSize
  split
  case isTrue h => exact .inl ⟨h, rfl⟩
  case isFalse h => exact .inr ⟨h, rfl⟩

/-- TAIL, where the padded tail fits (R162 to R165). -/
theorem exec_tail_eq {s : State} (hes : s.es.toNat ≤ 256) (hcap : s.len.toNat ≤ s.params.inCap)
    (hfit : s.pos.toNat + tailPadded s.ver s.es.toNat ≤ s.len.toNat) : exec .tail s = .next (afterTail s) := by
  have hts := tailSizes_ts_toNat hes
  have hle := tailSize_le_padded s.ver s.es.toNat
  have hread : readTail (tailSizes s) = .ok { tailSizes s with last := (afterTail s).last, chan := (afterTail s).chan } := by
    have hstore : ∀ bs : List Byte, bs.length = s.es.toNat →
        (tailSizes s).store .last 0 bs = .ok { tailSizes s with last := Memory.write 0 bs s.last } :=
      fun bs hbs => State.store_eq (by rw [State.size_last]; omega)
    have hseed : (tailSizes s).load .inp (s.len.toNat - tailSize s.ver s.es.toNat) s.es.toNat =
        .ok (Bytes.take (s.peek .inp) (s.len.toNat - tailSize s.ver s.es.toNat) s.es.toNat) := by
      refine State.load_eq ?_
      rw [State.size_inp, tailSizes_params]
      obtain ⟨-, h⟩ | ⟨-, h⟩ := tailSize_cases s.ver s.es.toNat
      all_goals omega
    simp only [readTail, hts, tailSizes_len, tailSizes_es, hseed, run_bind_ok, hstore _ (Bytes.take_length _ _ _)]
    obtain ⟨hver, -⟩ | ⟨hver, hsize⟩ := tailSize_cases s.ver s.es.toNat
    · have hchan : (afterTail s).chan = s.chan := if_pos hver
      rw [hchan]
      exact if_pos hver
    · have hchan : (afterTail s).chan = _ := if_neg hver
      rw [hchan]
      refine (if_neg hver).trans ?_
      rw [State.load_eq (by rw [State.size_inp]; change _ ≤ s.params.inCap; omega), run_bind_ok,
        State.store_eq (by rw [State.size_chan, List.length_map, List.length_range]; omega)]
      rfl
  have htail : tail s = .ok (afterTail s) := by
    have hfits : ¬ (tailSizes s).len.toNat < (tailSizes s).pos.toNat + (tailSizes s).tp.toNat := by
      rw [tailSizes_tp_toNat hes]
      exact Nat.not_lt.mpr hfit
    simp only [tail, if_neg hfits, hread, run_bind_ok]
    rfl
  exact congrArg outcome htail

/-- The capacity of a legal element size fits its register. -/
theorem afterTail_cap_toNat (s : State) : (afterTail s).cap.toNat = blockCap s.es.toNat :=
  Nat.mod_eq_of_lt ((min_le_left _ _).trans_lt (by decide : blockMax < 2 ^ 9))

/-- LAST after TAIL, as the reference function's array. -/
theorem afterTail_peek_last (s : State) : (afterTail s).peek .last =
    Bytes.put (s.peek .last) 0
      (Bytes.take (s.peek .inp) (s.len.toNat - tailSize s.ver s.es.toNat) s.es.toNat) :=
  s.peek_write .last 0 _

/-- CHAN after TAIL in version 1, as the reference function's array. -/
theorem afterTail_peek_chan {s : State} (hver : s.ver ≠ 0) : (afterTail s).peek .chan =
    Bytes.put (s.peek .chan) 0
      (Bytes.take (s.peek .inp) (s.len.toNat - tailSize s.ver s.es.toNat + s.es.toNat) (s.es.toNat / 4)) := by
  have hchan : (afterTail s).mem .chan = _ := if_neg hver
  rw [← s.peek_write .chan]
  funext a
  exact State.peek_congr (t := afterTail s) (s := s.setMem .chan _) .chan hchan rfl a

theorem Bytes.put_inside (m : Bytes) (a : Nat) {bs : List Byte} {k : Nat} (hk : k < bs.length) :
    Bytes.put m a bs (a + k) = bs.getD k 0 := by
  rw [Bytes.put, if_pos (by omega), Nat.add_sub_cancel_left]

theorem Bytes.put_outside (m : Bytes) {a x : Nat} {bs : List Byte} (hx : ¬ (a ≤ x ∧ x < a + bs.length)) :
    Bytes.put m a bs x = m x := if_neg hx

/-- A run of bytes put at 0. -/
theorem Bytes.put_take_zero (m inp : Bytes) (a n k : Nat) :
    Bytes.put m 0 (Bytes.take inp a n) k = if k < n then inp (a + k) else m k := by
  split
  case isTrue hk =>
    have h := Bytes.put_inside m 0 (bs := Bytes.take inp a n) (k := k) (by simpa using hk)
    rw [Nat.zero_add, Bytes.take_getD _ _ hk] at h
    exact h
  case isFalse hk => exact Bytes.put_outside m (by rw [Bytes.take_length]; omega)

/-- Settles O28. -/
theorem tailLoadsSeedAndChannels : Obligations.TailLoadsSeedAndChannels := by
  intro s hlegal hcap es ts tp hfit
  obtain ⟨-, hes, -⟩ := (legalElemSize_iff _).mp hlegal
  have hlast := afterTail_peek_last s
  refine ⟨afterTail s, exec_tail_eq hes hcap hfit, tailSizes_ts_toNat hes, tailSizes_tp_toNat hes, afterTail_cap_toNat s,
    rfl, ?_, fun k hk => ?_, fun a ha => ?_, fun hver => if_pos hver, fun hver => ?_, rfl⟩
  · change (if 0 < s.cnt.toNat then Stage.blk else .final) = _
    by_cases hcnt : s.cnt = 0
    · rw [if_pos hcnt, hcnt]
      rfl
    · rw [if_neg hcnt, if_pos (by bv_omega)]
  · rw [hlast, Bytes.put_take_zero, if_pos hk]
    rfl
  · rw [hlast, Bytes.put_take_zero, if_neg (Nat.not_lt.mpr ha)]
  · have hver0 : s.ver ≠ 0 := by rw [hver]; decide
    have hchan := afterTail_peek_chan hver0
    refine ⟨fun q hq => ?_, fun a ha => ?_⟩
    · rw [hchan, Bytes.put_take_zero, if_pos hq]
      rfl
    · rw [hchan, Bytes.put_take_zero, if_neg (Nat.not_lt.mpr ha)]

end Sys2Proof.Machine
end

section
/-!
PROOFS. What an engine step can do from a state of the invariant, said once, and what follows of it: the invariant is
kept, a step never stops, the bound on the steps falls, the cursor moves forward, OUT is written inside its bounds.
-/

namespace Sys2Proof.Machine

/-! ## The moves of the engine -/

/-- `u` is the state of a check that failed in a step from `s`: only sizes, latch and cursor may have been set before it
(R203), and the cursor has moved forward within the input. -/
structure FailingCheck (s u : State) : Prop where
  frame : { u with
    ts := s.ts, tp := s.tp, blk := s.blk, blkAligned := s.blkAligned, grp := s.grp, pos := s.pos } = s
  latch : LatchKept s.grp u.grp
  forward : s.pos.toNat ≤ u.pos.toNat
  within : s.pos.toNat ≤ s.len.toNat → u.pos.toNat ≤ s.len.toNat

theorem FailingCheck.refl (s : State) : FailingCheck s s := ⟨rfl, LatchKept.refl _, le_rfl, id⟩

theorem FailingCheck.tailSizes (s : State) : FailingCheck s (tailSizes s) := ⟨rfl, LatchKept.refl _, le_rfl, id⟩

theorem FailingCheck.blockSizes (s : State) : FailingCheck s (blockSizes s) := ⟨rfl, LatchKept.refl _, le_rfl, id⟩

theorem ColumnFails.failingCheck {s : State} {grp : Memory} {p : Nat} (h : ColumnFails s grp p) :
    FailingCheck s { s with grp := grp, pos := BitVec.ofNat 32 p } := by
  have hpos : (BitVec.ofNat 32 p).toNat = p := cursor_toNat h.within
  exact ⟨rfl, h.latch, h.forward.trans_eq hpos.symm, fun _ => hpos.trans_le h.within⟩

/-- What one engine step from a state of the invariant, in a stage other than IDLE, can do: the stage's rule, or the end
of the decode (R37, R160 to R175). -/
inductive EngineMove (s : State) : State → Prop
  | check (hst : s.st = .check) (hconfig : s.ConfigOk) : EngineMove s { s with st := .hdr }
  | hdr (hst : s.st = .hdr) (hlen : 1 ≤ s.len.toNat) (v : BitVec 1) :
    EngineMove s { s with ver := v, status := { s.status with version := v }, pos := 1, st := .tail }
  | tail (hst : s.st = .tail) (hfit : s.pos.toNat + tailPadded s.ver s.es.toNat ≤ s.len.toNat) :
    EngineMove s (afterTail s)
  | blk (hst : s.st = .blk) (hleft : ¬ (s.ver = 1 ∧ s.len.toNat < s.pos.toNat + s.es.toNat / 4)) :
    EngineMove s (afterBlk s)
  | plane (hst : s.st = .plane) {bs : List Byte} {grp : Memory} {p : Nat} (hok : SourceOk s bs grp p) :
    EngineMove s (nextPlane (afterSource s bs grp p))
  | delta (hst : s.st = .delta) {tr : Memory} (hkept : TrKept s tr) : EngineMove s (nextGroup (s.setMem .tr tr))
  | commit (hst : s.st = .commit) : EngineMove s (afterCommit s)
  | ends (hst : s.st ≠ .idle) (r : Option Reason) {u : State} (hu : FailingCheck s u) : EngineMove s (u.endDecode r)

/-! ## What each stage promises (R37) -/

theorem State.Inv.check_ok {s : State} (h : s.Inv) (hst : s.st = .check) :
    s.status = Status.started ∧ s.pos = 0 ∧ s.done = 0 := by
  have hstage := h.stage
  rwa [State.StageOk, hst] at hstage

theorem State.Inv.hdr_ok {s : State} (h : s.Inv) (hst : s.st = .hdr) :
    s.ConfigOk ∧ s.status = Status.started ∧ s.pos = 0 ∧ s.done = 0 := by
  have hstage := h.stage
  rwa [State.StageOk, hst] at hstage

theorem State.Inv.tail_ok {s : State} (h : s.Inv) (hst : s.st = .tail) :
    s.ConfigOk ∧ s.status = { Status.started with version := s.ver } ∧ s.pos = 1 ∧ s.done = 0 ∧ 1 ≤ s.len.toNat := by
  have hstage := h.stage
  rwa [State.StageOk, hst] at hstage

theorem State.Inv.blk_ok {s : State} (h : s.Inv) (hst : s.st = .blk) :
    s.LoopOk ∧ s.done.toNat < s.cnt.toNat ∧ s.done.toNat % s.cap.toNat = 0 := by
  have hstage := h.stage
  rwa [State.StageOk, hst] at hstage

theorem State.Inv.delta_ok {s : State} (h : s.Inv) (hst : s.st = .delta) : s.GroupOk ∧ s.j = 3 := by
  have hstage := h.stage
  rwa [State.StageOk, hst] at hstage

theorem State.Inv.commit_ok {s : State} (h : s.Inv) (hst : s.st = .commit) : s.BlockOk := by
  have hstage := h.stage
  rwa [State.StageOk, hst] at hstage

theorem State.Inv.final_ok {s : State} (h : s.Inv) (hst : s.st = .final) : s.LoopOk ∧ s.done = s.cnt := by
  have hstage := h.stage
  rwa [State.StageOk, hst] at hstage

/-! ## Each stage's step is a move -/

theorem engineStep_stage {s : State} {st : Stage} (h : s.st = st) (hne : st ≠ .idle) :
    engineStep s = exec (stageRow st) s := by
  subst h
  exact engineStep_decoded (decode_stageRow hne)

theorem exec_check_move {s : State} (h : s.Inv) (hst : s.st = .check) :
    ∃ t, exec .start s = .next t ∧ EngineMove s t := by
  obtain ⟨hstatus, -, -⟩ := h.check_ok hst
  have hends : ∀ r, EngineMove s (s.endDecode r) := fun r => .ends (by simp [hst]) r (.refl s)
  rw [exec_start_check (by rw [hstatus]; rfl) hst, usageCheck]
  split
  case isTrue => exact ⟨_, rfl, hends _⟩
  case isFalse hes =>
    split
    case isTrue => exact ⟨_, rfl, hends _⟩
    case isFalse hlen =>
      split
      case isTrue => exact ⟨_, rfl, hends _⟩
      case isFalse hout =>
        exact ⟨_, rfl, .check hst ⟨not_not.mp hes, Nat.le_of_not_lt hlen, Nat.le_of_not_lt hout⟩⟩

theorem exec_hdr_move {s : State} (h : s.Inv) (hst : s.st = .hdr) : ∃ t, exec .hdr s = .next t ∧ EngineMove s t := by
  obtain ⟨hconfig, -, -, -⟩ := h.hdr_ok hst
  have hends : ∀ r, EngineMove s (s.endDecode r) := fun r => .ends (by simp [hst]) r (.refl s)
  have hstep := headerStepChecksInOrder s hconfig.inLen
  dsimp only at hstep
  split at hstep
  case isTrue => exact ⟨_, hstep, hends _⟩
  case isFalse hlen =>
    split at hstep
    case isTrue => exact ⟨_, hstep, hends _⟩
    case isFalse =>
      split at hstep
      case isTrue => exact ⟨_, hstep, hends _⟩
      case isFalse => exact ⟨_, hstep, .hdr hst (Nat.le_of_not_lt hlen) _⟩

theorem exec_tail_move {s : State} (h : s.Inv) (hst : s.st = .tail) : ∃ t, exec .tail s = .next t ∧ EngineMove s t := by
  obtain ⟨hconfig, -, -, -, -⟩ := h.tail_ok hst
  obtain ⟨-, hes, -⟩ := (legalElemSize_iff _).mp hconfig.elemSize
  by_cases hshort : s.len.toNat < s.pos.toNat + tailPadded s.ver s.es.toNat
  · exact ⟨_, exec_tail_short hes hshort, .ends (by simp [hst]) _ (.tailSizes s)⟩
  · exact ⟨_, exec_tail_eq hes hconfig.inLen (Nat.le_of_not_lt hshort), .tail hst (Nat.le_of_not_lt hshort)⟩

theorem exec_blk_move {s : State} (h : s.Inv) (hst : s.st = .blk) : ∃ t, exec .blk s = .next t ∧ EngineMove s t := by
  obtain ⟨hloop, -, -⟩ := h.blk_ok hst
  obtain ⟨-, hes, -⟩ := (legalElemSize_iff _).mp hloop.elemSize
  by_cases hshort : s.ver = 1 ∧ s.len.toNat < s.pos.toNat + s.es.toNat / 4
  · obtain ⟨hver, hlen⟩ := hshort
    exact ⟨_, exec_blk_short hver hlen, .ends (by simp [hst]) _ (.blockSizes s)⟩
  · exact ⟨_, exec_blk_eq hes hloop.inLen hshort, .blk hst hshort⟩

theorem exec_plane_move {s : State} (h : s.Inv) (hst : s.st = .plane) :
    ∃ t, exec .plane s = .next t ∧ EngineMove s t := by
  have hmatches := plane_matches (h.groupOk_of_plane hst).planeFits
  rcases href : refPlane (s.peek .inp) s.len.toNat s.ver s.blk.toNat s.g.toNat s.j.toNat s.scratch with ⟨r, p⟩ | m
  all_goals rw [href] at hmatches
  · obtain ⟨grp, hrun, hfails⟩ := hmatches
    exact ⟨_, exec_plane_of_raised hrun, .ends (by simp [hst]) _ hfails.failingCheck⟩
  · obtain ⟨bs, grp, p, hrun, hok, -⟩ := hmatches
    exact ⟨_, exec_plane_of_ok hrun, .plane hst hok⟩

theorem exec_delta_move {s : State} (h : s.Inv) (hst : s.st = .delta) :
    ∃ t, exec .delta s = .next t ∧ EngineMove s t := by
  have hmatches := delta_matches (h.delta_ok hst).1.deltaFits
  rcases href : refDelta s.params.rotShift s.ver s.es.toNat s.blk.toNat s.g.toNat s.scratch with ⟨r, p⟩ | m
  all_goals rw [href] at hmatches
  · obtain ⟨hrun, rfl, -⟩ := hmatches
    exact ⟨_, exec_delta_of_raise hrun, .ends (by simp [hst]) _ (.refl s)⟩
  · obtain ⟨tr, hrun, hkept, -, -⟩ := hmatches
    exact ⟨_, exec_delta_of_ok hrun, .delta hst hkept⟩

theorem State.BlockOk.exec_commit {s : State} (h : s.BlockOk) : exec .commit s = .next (afterCommit s) :=
  exec_commit_eq h.bounds.some h.bounds.inBlock h.bounds.elemMax (h.bounds.inOut.trans h.outLen)

theorem exec_final_move {s : State} (hst : s.st = .final) : ∃ t, exec .final s = .next t ∧ EngineMove s t := by
  have hends : ∀ r, EngineMove s (s.endDecode r) := fun r => .ends (by simp [hst]) r (.refl s)
  by_cases hlen : s.len.toNat = s.pos.toNat + s.tp.toNat
  · exact ⟨_, exec_final_eq hlen, hends _⟩
  · exact ⟨_, exec_final_mismatch hlen, hends _⟩

/-- From a state of the invariant, an engine step in a stage other than IDLE answers, by one of the moves. -/
theorem State.Inv.engineStep_moves {s : State} (h : s.Inv) (hst : s.st ≠ .idle) :
    ∃ t, engineStep s = .next t ∧ EngineMove s t := by
  rw [engineStep_stage rfl hst]
  cases hs : s.st
  case idle => exact absurd hs hst
  case check => exact exec_check_move h hs
  case hdr => exact exec_hdr_move h hs
  case tail => exact exec_tail_move h hs
  case blk => exact exec_blk_move h hs
  case plane => exact exec_plane_move h hs
  case delta => exact exec_delta_move h hs
  case commit => exact ⟨_, (h.commit_ok hs).exec_commit, .commit hs⟩
  case final => exact exec_final_move hs

/-- The next state of an engine step out of IDLE is a move. -/
theorem State.Inv.move_of_engineStep {s t : State} (h : s.Inv) (hst : s.st ≠ .idle) (hstep : engineStep s = .next t) :
    EngineMove s t := by
  obtain ⟨t', hstep', hmove⟩ := h.engineStep_moves hst
  rw [hstep] at hstep'
  obtain rfl : t = t' := by injection hstep'
  exact hmove

/-! ## The memories after a move -/

theorem MemoriesOk.setLatch {s : State} (h : MemoriesOk s) {grp : Memory} (hlatch : LatchKept s.grp grp) :
    MemoriesOk (s.setMem .grp grp) := by
  obtain ⟨hwf, hbelow, -⟩ := hlatch
  exact h.setMem (hwf (h.canonical .grp)) (hbelow (h.within .grp))

theorem FailingCheck.memoriesOk {s u : State} (hu : FailingCheck s u) (h : MemoriesOk s) : MemoriesOk u := by
  refine (h.setLatch hu.latch).congr (congrArg State.params hu.frame :) fun sp => ?_
  cases sp
  case grp => rfl
  case inp => exact (congrArg State.inp hu.frame :)
  case out => exact (congrArg State.out hu.frame :)
  case last => exact (congrArg State.last hu.frame :)
  case chan => exact (congrArg State.chan hu.frame :)
  case ctl => exact (congrArg State.ctl hu.frame :)
  case res => exact (congrArg State.res hu.frame :)
  case tr => exact (congrArg State.tr hu.frame :)

theorem MemoriesOk.afterTail {s : State} (h : MemoriesOk s) (hes : s.es.toNat ≤ 256) : MemoriesOk (afterTail s) := by
  have hlast := h.write (sp := .last) (a := 0)
    (bs := Bytes.take (s.peek .inp) (s.len.toNat - tailSize s.ver s.es.toNat) s.es.toNat) (by simpa using hes)
  by_cases hver : s.ver = 0
  · have hchan : (Machine.afterTail s).chan = s.chan := if_pos hver
    refine hlast.congr rfl fun sp => ?_
    cases sp
    case chan => exact hchan
    all_goals rfl
  · have hchan : (Machine.afterTail s).chan = _ := if_neg hver
    have hboth := hlast.write (sp := .chan) (a := 0)
      (bs := Bytes.take (s.peek .inp) (s.len.toNat - tailSize s.ver s.es.toNat + s.es.toNat) (s.es.toNat / 4))
      (by rw [Bytes.take_length, State.size_chan]; omega)
    refine hboth.congr rfl fun sp => ?_
    cases sp
    case chan => exact hchan
    all_goals rfl

theorem MemoriesOk.afterBlk {s : State} (h : MemoriesOk s) (hes : s.es.toNat ≤ 256) : MemoriesOk (afterBlk s) := by
  refine (h.write (sp := .ctl) (a := 0) (bs := s.controlBytes)
    (by rw [State.controlBytes_length, State.size_ctl]; omega)).congr rfl fun sp => ?_
  cases sp
  all_goals rfl

theorem MemoriesOk.afterSource {s : State} (h : MemoriesOk s) {bs : List Byte} {grp : Memory} {p : Nat}
    (hfits : PlaneFits s) (hok : SourceOk s bs grp p) : MemoriesOk (afterSource s bs grp p) := by
  obtain ⟨-, -, hres⟩ := hfits.aligned_le
  have hlength := hok.length
  refine ((h.write (sp := .res) (a := s.planeBase) (bs := bs) (by rw [State.size_res]; omega)).setLatch
    (grp := grp) hok.latch).congr rfl fun sp => ?_
  cases sp
  all_goals rfl

theorem MemoriesOk.nextPlane {s : State} (h : MemoriesOk s) : MemoriesOk (nextPlane s) :=
  h.congr (congrArg State.params (nextPlane_frame s) :) (nextPlane_mem s)

/-- The move to the next component group changes the group, the plane and the stage alone (R170). -/
theorem nextGroup_frame (s : State) : { nextGroup s with g := s.g, j := s.j, st := s.st } = s := by
  unfold nextGroup
  split
  · rfl
  · rfl

theorem nextGroup_of_lt {s : State} (h : s.g.toNat + 4 < s.es.toNat) :
    nextGroup s = { s with g := s.g + 4, j := 0, st := .plane } := if_pos h

theorem nextGroup_of_last {s : State} (h : ¬ s.g.toNat + 4 < s.es.toNat) : nextGroup s = { s with st := .commit } :=
  if_neg h

@[simp] theorem nextGroup_mem (s : State) (sp : Space) : (nextGroup s).mem sp = s.mem sp := by
  have h := congrArg (State.mem · sp) (nextGroup_frame s)
  cases sp
  all_goals exact h

theorem MemoriesOk.nextGroup {s : State} (h : MemoriesOk s) : MemoriesOk (nextGroup s) :=
  h.congr (congrArg State.params (nextGroup_frame s) :) (nextGroup_mem s)

theorem MemoriesOk.setTr {s : State} (h : MemoriesOk s) {tr : Memory} (hkept : TrKept s tr) :
    MemoriesOk (s.setMem .tr tr) :=
  h.setMem (hkept.canonical (h.canonical .tr)) (hkept.within (h.within .tr))

theorem MemoriesOk.afterCommit {s : State} (h : MemoriesOk s) (hblock : s.BlockOk) : MemoriesOk (afterCommit s) := by
  have hout := h.write (sp := .out) (a := s.done.toNat * s.es.toNat)
    (bs := Bytes.take (s.peek .tr) 0 (s.blk.toNat * s.es.toNat))
    (by rw [Bytes.take_length]; exact hblock.bounds.inOut.trans hblock.outLen)
  refine (hout.write (sp := .last) (a := 0)
    (bs := Bytes.take (s.peek .tr) ((s.blk.toNat - 1) * s.es.toNat) s.es.toNat)
    (by rw [Bytes.take_length, State.size_last, Nat.zero_add]; exact hblock.bounds.elemMax)).congr rfl fun sp => ?_
  cases sp
  all_goals rfl

/-! ## What the promises depend on -/

/-- What the configuration's test depends on. -/
def State.configPart (s : State) : Params × Word × Word × Word := (s.params, s.cnt, s.es, s.len)

/-- What the loop's promise depends on beside the cursor. -/
def State.loopPart (s : State) : (Params × Word × Word × Word) × Status × BitVec 1 × BitVec 9 × BitVec 9 × BitVec 9 × Word :=
  (s.configPart, s.status, s.ver, s.ts, s.tp, s.cap, s.done)

theorem State.ConfigOk.congr {s t : State} (h : s.ConfigOk) (he : t.configPart = s.configPart) : t.ConfigOk := by
  simp only [State.configPart, Prod.mk.injEq] at he
  obtain ⟨hparams, hcnt, hes, hlen⟩ := he
  exact ⟨by rw [hes]; exact h.elemSize, by rw [hlen, hparams]; exact h.inLen,
    by rw [hcnt, hes, hparams]; exact h.outLen⟩

/-- The loop's promise is kept where only the cursor moves, forward within the input. -/
theorem State.LoopOk.congr {s t : State} (h : s.LoopOk) (he : t.loopPart = s.loopPart)
    (hforward : s.pos.toNat ≤ t.pos.toNat) (hwithin : t.pos.toNat ≤ s.len.toNat) : t.LoopOk := by
  simp only [State.loopPart, Prod.mk.injEq] at he
  obtain ⟨hconfig, hstatus, hver, hts, htp, hcap, hdone⟩ := he
  have hconfigOk := h.toConfigOk.congr hconfig
  simp only [State.configPart, Prod.mk.injEq] at hconfig
  obtain ⟨-, hcnt, hes, hlen⟩ := hconfig
  exact
    { hconfigOk with
      status := by rw [hstatus, hver]; exact h.status
      tailSizeIs := by rw [hts, hver, hes]; exact h.tailSizeIs
      tailPaddedIs := by rw [htp, hver, hes]; exact h.tailPaddedIs
      tailFits := by rw [htp, hlen]; exact h.tailFits
      capIs := by rw [hcap, hes]; exact h.capIs
      posPositive := h.posPositive.trans hforward
      posWithin := by rw [hlen]; exact hwithin
      doneWithin := by rw [hdone, hcnt]; exact h.doneWithin }

/-- So is the block's. -/
theorem State.BlockOk.congr {s t : State} (h : s.BlockOk) (he : t.loopPart = s.loopPart) (hblk : t.blk = s.blk)
    (haligned : t.blkAligned = s.blkAligned) (hforward : s.pos.toNat ≤ t.pos.toNat)
    (hwithin : t.pos.toNat ≤ s.len.toNat) : t.BlockOk := by
  have hloop := h.toLoopOk.congr he hforward hwithin
  simp only [State.loopPart, State.configPart, Prod.mk.injEq] at he
  obtain ⟨⟨-, hcnt, -, -⟩, -, -, -, -, hcap, hdone⟩ := he
  exact
    { hloop with
      blkIs := by rw [hblk, hcap, hcnt, hdone]; exact h.blkIs
      alignedIs := by rw [haligned, hblk]; exact h.alignedIs
      notDone := by rw [hdone, hcnt]; exact h.notDone
      wholeBlocks := by rw [hdone, hcap]; exact h.wholeBlocks }

/-- And the group's, where the group is the same. -/
theorem State.GroupOk.congr {s t : State} (h : s.GroupOk) (he : t.loopPart = s.loopPart) (hblk : t.blk = s.blk)
    (haligned : t.blkAligned = s.blkAligned) (hg : t.g = s.g) (hforward : s.pos.toNat ≤ t.pos.toNat)
    (hwithin : t.pos.toNat ≤ s.len.toNat) : t.GroupOk := by
  have hblock := h.toBlockOk.congr he hblk haligned hforward hwithin
  simp only [State.loopPart, State.configPart, Prod.mk.injEq] at he
  obtain ⟨⟨-, -, hes, -⟩, -⟩ := he
  exact
    { hblock with
      groupAligned := by rw [hg]; exact h.groupAligned
      groupWithin := by rw [hg, hes]; exact h.groupWithin }

/-! ## The stage's promise after a move -/

theorem loopOk_afterTail {s : State} (hconfig : s.ConfigOk)
    (hstatus : s.status = { Status.started with version := s.ver }) (hpos : s.pos = 1)
    (hfit : s.pos.toNat + tailPadded s.ver s.es.toNat ≤ s.len.toNat) : (afterTail s).LoopOk := by
  obtain ⟨-, hes, -⟩ := (legalElemSize_iff _).mp hconfig.elemSize
  have hpos1 : s.pos.toNat = 1 := by rw [hpos]; rfl
  refine ⟨hconfig.congr rfl, hstatus, tailSizes_ts_toNat hes, tailSizes_tp_toNat hes, ?_,
    afterTail_cap_toNat s, hpos1.ge, (Nat.le_add_right _ _).trans hfit, Nat.zero_le _⟩
  exact (congrArg₂ (· + ·) hpos1.symm (tailSizes_tp_toNat hes)).trans_le hfit

theorem blockOk_afterBlk {s : State} (hloop : s.LoopOk) (hleft : s.done.toNat < s.cnt.toNat)
    (hwhole : s.done.toNat % s.cap.toNat = 0)
    (hcontrol : ¬ (s.ver = 1 ∧ s.len.toNat < s.pos.toNat + s.es.toNat / 4)) : (afterBlk s).BlockOk := by
  obtain ⟨-, hcapMax⟩ := blockCap_bounds hloop.elemSize
  have hcap : s.cap.toNat ≤ 256 := hloop.capIs.trans_le hcapMax
  have hblk := blockSizes_blk_toNat hcap
  have hpos := afterBlk_pos_toNat hcontrol
  have hforward : s.pos.toNat ≤ (afterBlk s).pos.toNat ∧ (afterBlk s).pos.toNat ≤ s.len.toNat := by
    have hwithin := hloop.posWithin
    rw [hpos]
    split
    case isTrue => exact ⟨le_rfl, hwithin⟩
    case isFalse hver => exact ⟨Nat.le_add_right _ _, Nat.le_of_not_lt fun hlt => hcontrol ⟨by bv_omega, hlt⟩⟩
  exact ⟨hloop.congr rfl hforward.1 hforward.2, hblk, (blockSizes_blkAligned_toNat hcap).trans (congrArg align16 hblk.symm),
    hleft, hwhole⟩

theorem groupOk_afterBlk {s : State} (h : (afterBlk s).BlockOk) : (afterBlk s).GroupOk :=
  ⟨h, rfl, h.bounds.elemMin⟩

theorem groupOk_afterSource {s : State} (h : s.GroupOk) {bs : List Byte} {grp : Memory} {p : Nat}
    (hok : SourceOk s bs grp p) : (afterSource s bs grp p).GroupOk := by
  have hpos : (afterSource s bs grp p).pos.toNat = p := cursor_toNat hok.within
  exact h.congr rfl rfl rfl rfl (hok.forward.trans_eq hpos.symm) (hpos.trans_le hok.within)

/-- After a plane: the next plane in the same group, or the delta with the plane at 3. -/
theorem stageOk_nextPlane {s : State} (h : s.GroupOk) : (nextPlane s).StageOk := by
  by_cases hj : s.j.toNat < 3
  · rw [nextPlane_of_lt hj]
    exact h.congr (t := { s with j := s.j + 1, st := .plane }) rfl rfl rfl rfl le_rfl h.posWithin
  · rw [nextPlane_of_last hj]
    have hj3 : s.j = 3 := by bv_omega
    exact ⟨h.congr (t := { s with st := .delta }) rfl rfl rfl rfl le_rfl h.posWithin, hj3⟩

/-- The next component group's offset does not wrap. -/
theorem group_succ_toNat {s : State} (h : s.GroupOk) (hlt : s.g.toNat + 4 < s.es.toNat) :
    (s.g + 4).toNat = s.g.toNat + 4 ∧ s.g.toNat + 8 ≤ s.es.toNat := by
  have hmax := h.bounds.elemMax
  have haligned := h.bounds.elemAligned
  have hg := h.groupAligned
  have hnext : s.g.toNat + 8 ≤ s.es.toNat := by omega
  exact ⟨by rw [BitVec.toNat_add]; exact Nat.mod_eq_of_lt (show s.g.toNat + 4 < 256 by omega), hnext⟩

/-- After a delta: the next component group at its plane 0, or the commit. -/
theorem stageOk_nextGroup {s : State} (h : s.GroupOk) : (nextGroup s).StageOk := by
  by_cases hlt : s.g.toNat + 4 < s.es.toNat
  · obtain ⟨hg, hwithin⟩ := group_succ_toNat h hlt
    have haligned := h.groupAligned
    have hblock : ({ s with g := s.g + 4, j := 0, st := .plane } : State).BlockOk :=
      h.toBlockOk.congr rfl rfl rfl le_rfl h.posWithin
    rw [nextGroup_of_lt hlt]
    exact (⟨hblock, (congrArg (· % 4) hg).trans (by omega), (congrArg (· + 4) hg).trans_le hwithin⟩ :
      ({ s with g := s.g + 4, j := 0, st := .plane } : State).GroupOk)
  · rw [nextGroup_of_last hlt]
    exact h.toBlockOk.congr (t := { s with st := .commit }) rfl rfl rfl le_rfl h.posWithin

theorem groupOk_setTr {s : State} (h : s.GroupOk) (tr : Memory) : (s.setMem .tr tr).GroupOk :=
  h.congr rfl rfl rfl rfl le_rfl h.posWithin

theorem State.BlockOk.afterCommit_done {s : State} (h : s.BlockOk) :
    (afterCommit s).done.toNat = s.done.toNat + s.blk.toNat := afterCommit_done_toNat h.bounds.counted

theorem afterCommit_st (s : State) :
    (afterCommit s).st = if (afterCommit s).done.toNat < s.cnt.toNat then .blk else .final := rfl

theorem loopOk_afterCommit {s : State} (h : s.BlockOk) : (afterCommit s).LoopOk :=
  ⟨h.toConfigOk.congr rfl, h.status, h.tailSizeIs, h.tailPaddedIs, h.tailFits, h.capIs, h.posPositive, h.posWithin,
    h.afterCommit_done.trans_le h.bounds.counted⟩

/-- After a commit: whole blocks are done and elements are left, or every element is done. -/
theorem stageOk_afterCommit {s : State} (h : s.BlockOk) : (afterCommit s).StageOk := by
  have hdone := h.afterCommit_done
  have hblk := h.blkIs
  have hloop := loopOk_afterCommit h
  by_cases hlt : (afterCommit s).done.toNat < s.cnt.toNat
  · have hst : (afterCommit s).st = .blk := if_pos hlt
    have hfull : s.blk.toNat = s.cap.toNat := by omega
    rw [State.StageOk, hst]
    refine ⟨hloop, hlt, ?_⟩
    change (afterCommit s).done.toNat % s.cap.toNat = 0
    rw [hdone, hfull, Nat.add_mod_right]
    exact h.wholeBlocks
  · have hst : (afterCommit s).st = .final := if_neg hlt
    have hcounted := h.bounds.counted
    rw [State.StageOk, hst]
    exact ⟨hloop, BitVec.eq_of_toNat_eq (show (afterCommit s).done.toNat = s.cnt.toNat by omega)⟩

/-- After a tail: the first block, or, with no element, the final check. -/
theorem stageOk_afterTail {s : State} (h : (afterTail s).LoopOk) : (afterTail s).StageOk := by
  by_cases hcnt : 0 < s.cnt.toNat
  · have hst : (afterTail s).st = .blk := if_pos hcnt
    rw [State.StageOk, hst]
    exact ⟨h, hcnt, Nat.zero_mod _⟩
  · have hst : (afterTail s).st = .final := if_neg hcnt
    rw [State.StageOk, hst]
    exact ⟨h, BitVec.eq_of_toNat_eq (show 0 = s.cnt.toNat by omega)⟩

/-- Every move of the engine keeps the invariant. -/
theorem EngineMove.inv {s t : State} (hmove : EngineMove s t) (h : s.Inv) : t.Inv := by
  have hmem := h.memoriesOk
  cases hmove
  case check hst hconfig =>
    obtain ⟨hstatus, hpos, hdone⟩ := h.check_ok hst
    refine (hmem.congr (t := { s with st := .hdr }) rfl fun sp => by cases sp <;> rfl).inv ?_
    exact ⟨hconfig.congr (t := { s with st := .hdr }) rfl, hstatus, hpos, hdone⟩
  case hdr hst hlen v =>
    obtain ⟨hconfig, hstatus, -, hdone⟩ := h.hdr_ok hst
    refine (hmem.congr (t := { s with ver := v, status := _, pos := 1, st := .tail }) rfl
      fun sp => by cases sp <;> rfl).inv ?_
    exact ⟨hconfig.congr (t := { s with ver := v, status := _, pos := 1, st := .tail }) rfl, by rw [hstatus], rfl, hdone,
      hlen⟩
  case tail hst hfit =>
    obtain ⟨hconfig, hstatus, hpos, -, -⟩ := h.tail_ok hst
    obtain ⟨-, hes, -⟩ := (legalElemSize_iff _).mp hconfig.elemSize
    exact (hmem.afterTail hes).inv (stageOk_afterTail (loopOk_afterTail hconfig hstatus hpos hfit))
  case blk hst hleft =>
    obtain ⟨hloop, hdone, hwhole⟩ := h.blk_ok hst
    obtain ⟨-, hes, -⟩ := (legalElemSize_iff _).mp hloop.elemSize
    exact (hmem.afterBlk hes).inv (groupOk_afterBlk (blockOk_afterBlk hloop hdone hwhole hleft))
  case plane hst bs grp p hok =>
    have hgroup := h.groupOk_of_plane hst
    exact (hmem.afterSource hgroup.planeFits hok).nextPlane.inv (stageOk_nextPlane (groupOk_afterSource hgroup hok))
  case delta hst tr hkept =>
    exact (hmem.setTr hkept).nextGroup.inv (stageOk_nextGroup (groupOk_setTr (h.delta_ok hst).1 tr))
  case commit hst =>
    have hblock := h.commit_ok hst
    exact (hmem.afterCommit hblock).inv (stageOk_afterCommit hblock)
  case ends hst r u hu => exact (hu.memoriesOk hmem).endDecode_inv r

end Sys2Proof.Machine
end

section
/-!
PROOFS. What follows of the engine's moves, the host's accesses and reset for every step: the invariant is kept, no step
stops, the bound falls to the end of the decode, the cursor moves forward, OUT is written inside its bounds.
-/

namespace Sys2Proof.Machine

/-! ## The host's accesses and reset keep the invariant -/

/-- What the stage's promise depends on beside the loop's part. -/
def State.stagePart (s : State) : Stage × Word × BitVec 9 × BitVec 9 × BitVec 8 × BitVec 2 :=
  (s.st, s.pos, s.blk, s.blkAligned, s.g, s.j)

/-- A change outside the two parts keeps the stage's promise. -/
theorem State.StageOk.congr {s t : State} (h : s.StageOk) (hloop : t.loopPart = s.loopPart)
    (hstage : t.stagePart = s.stagePart) : t.StageOk := by
  simp only [State.stagePart, Prod.mk.injEq] at hstage
  obtain ⟨hst, hpos, hblk, haligned, hg, hj⟩ := hstage
  have hloop' := hloop
  simp only [State.loopPart, Prod.mk.injEq] at hloop'
  obtain ⟨hconfig, hstatus, hver, -, -, hcap, hdone⟩ := hloop'
  have hconfig' := hconfig
  simp only [State.configPart, Prod.mk.injEq] at hconfig'
  obtain ⟨-, hcnt, -, hlen⟩ := hconfig'
  have hforward : s.pos.toNat ≤ t.pos.toNat := by rw [hpos]
  unfold State.StageOk at h ⊢
  rw [hst]
  cases hs : s.st
  all_goals rw [hs] at h
  case idle => rwa [hstatus]
  case check => rwa [hstatus, hpos, hdone]
  case hdr =>
    obtain ⟨hok, hrest⟩ := h
    exact ⟨hok.congr hconfig, by rwa [hstatus, hpos, hdone]⟩
  case tail =>
    obtain ⟨hok, hrest⟩ := h
    exact ⟨hok.congr hconfig, by rwa [hstatus, hver, hpos, hdone, hlen]⟩
  case blk =>
    obtain ⟨hok, hrest⟩ := h
    exact ⟨hok.congr hloop hforward (hpos ▸ hok.posWithin), by rwa [hdone, hcnt, hcap]⟩
  case plane =>
    have hok : s.GroupOk := h
    exact hok.congr hloop hblk haligned hg hforward (hpos ▸ hok.posWithin)
  case delta =>
    obtain ⟨hok, hj3⟩ := h
    exact ⟨hok.congr hloop hblk haligned hg hforward (hpos ▸ hok.posWithin), hj.trans hj3⟩
  case commit =>
    have hok : s.BlockOk := h
    exact hok.congr hloop hblk haligned hforward (hpos ▸ hok.posWithin)
  case final =>
    obtain ⟨hok, hall⟩ := h
    exact ⟨hok.congr hloop hforward (hpos ▸ hok.posWithin), by rwa [hdone, hcnt]⟩

/-- A change outside the memories and the two parts keeps the invariant. -/
theorem State.Inv.congr {s t : State} (h : s.Inv) (hmem : ∀ sp, t.mem sp = s.mem sp) (hloop : t.loopPart = s.loopPart)
    (hstage : t.stagePart = s.stagePart) : t.Inv :=
  (h.memoriesOk.congr (congrArg (fun p => p.1.1) hloop) hmem).inv (h.stage.congr hloop hstage)

theorem State.Inv.setTurns {s : State} (h : s.Inv) (rest : List Turn) : ({ s with turns := rest } : State).Inv :=
  h.congr (fun sp => by cases sp <;> rfl) rfl rfl

theorem startWrite_inv {s : State} (h : s.Inv) : (startWrite s).Inv := by
  have hmem : MemoriesOk (startWrite s) := h.memoriesOk.congr rfl fun sp => by cases sp <;> rfl
  have hstage : (startWrite s).status = Status.started ∧ (startWrite s).pos = 0 ∧ (startWrite s).done = 0 :=
    ⟨rfl, rfl, rfl⟩
  exact hmem.inv hstage

theorem writeReg_inv {s : State} (h : s.Inv) (offset value : Word) : (writeReg offset value s).Inv := by
  have hlatch : ∀ count size length : Word,
      ({ s with elemCount := count, elemSize := size, inLen := length } : State).Inv :=
    fun _ _ _ => h.congr (fun sp => by cases sp <;> rfl) rfl rfl
  unfold writeReg
  split_ifs
  · exact h
  · exact startWrite_inv h
  · exact h
  · exact hlatch _ _ _
  · exact hlatch _ _ _
  · exact hlatch _ _ _
  · exact h

theorem readReg_inv {s : State} (h : s.Inv) (offset : Word) : (readReg offset s).Inv := by
  have hframe := readReg_frame offset s
  refine h.congr (fun sp => ?_) (congrArg State.loopPart hframe :) (congrArg State.stagePart hframe :)
  have hmem := congrArg (State.mem · sp) hframe
  cases sp
  all_goals exact hmem

theorem writeIn_inv {s : State} (h : s.Inv) {a : Nat} (ha : a < s.params.inCap) (b : Byte) :
    ∃ t, writeIn a b s = .ok t ∧ t.Inv := by
  have hfits : a + [b].length ≤ s.size .inp := ha
  have hmem : MemoriesOk { s.setMem .inp (Memory.write a [b] s.inp) with spoiled := s.spoiled || spoils a s } :=
    (h.memoriesOk.write hfits).congr rfl fun sp => by cases sp <;> rfl
  exact ⟨_, writeIn_eq ha b, hmem.inv (h.stage.congr rfl rfl)⟩

theorem readIn_inv {s : State} (h : s.Inv) {a : Nat} (ha : a < s.params.inCap) :
    ∃ t, readIn a s = .ok t ∧ t.Inv :=
  ⟨_, readIn_eq ha, h.congr (fun sp => by cases sp <;> rfl) rfl rfl⟩

theorem readOut_inv {s : State} (h : s.Inv) {a : Nat} (ha : a < s.params.outCap) :
    ∃ t, readOut a s = .ok t ∧ t.Inv := by
  refine ⟨_, readOut_eq ha, ?_⟩
  split
  · exact h.congr (fun sp => by cases sp <;> rfl) rfl rfl
  · exact h.congr (fun sp => by cases sp <;> rfl) rfl rfl

/-- A host access inside the memories answers, with a state of the invariant. -/
theorem hostAccess_within {s : State} (h : s.Inv) {c : HostCommand} (hc : c.within s = true) :
    ∃ t, hostAccess c s = .ok t ∧ t.Inv := by
  cases c
  case writeReg offset value => exact ⟨_, rfl, writeReg_inv h offset value⟩
  case readReg offset => exact ⟨_, rfl, readReg_inv h offset⟩
  case writeIn a b => exact writeIn_inv h (of_decide_eq_true hc) b
  case readIn a => exact readIn_inv h (of_decide_eq_true hc)
  case writeOut a b => exact ⟨_, rfl, h⟩
  case readOut a => exact readOut_inv h (of_decide_eq_true hc)

/-- A byte at or beyond a memory's size is none (log entry 11). -/
theorem State.load_one_outside {s : State} {sp : Space} {a : Nat} (h : ¬ a < s.size sp) :
    ∃ f, s.load sp a 1 = .error (.stopped f) := ⟨_, if_neg h⟩

/-- A host access outside the memories faults. -/
theorem hostAccess_outside {s : State} {c : HostCommand} (hc : ¬ c.within s = true) :
    ∃ f, hostAccess c s = .error (.stopped f) := by
  cases c
  case writeReg | readReg | writeOut => exact absurd rfl hc
  case writeIn a b =>
    have hstore : s.store .inp a [b] = .error (.stopped _) := if_neg fun hlt => hc (decide_eq_true hlt)
    exact ⟨_, by rw [hostAccess, writeIn, hstore, run_bind_error]⟩
  case readIn a =>
    obtain ⟨f, hf⟩ := State.load_one_outside (s := s) (sp := .inp) fun hlt => hc (decide_eq_true hlt)
    exact ⟨f, by rw [hostAccess, readIn, hf, run_bind_error]⟩
  case readOut a =>
    obtain ⟨f, hf⟩ := State.load_one_outside (s := s) (sp := .out) fun hlt => hc (decide_eq_true hlt)
    exact ⟨f, by rw [hostAccess, readOut, hf, run_bind_error]⟩

theorem platformReset_inv {s : State} (h : s.Inv) : (platformReset s).Inv := by
  have hmem : MemoriesOk (platformReset s) := MemoriesOk.of_empty h.inCap fun sp => by cases sp <;> rfl
  have hstage : (platformReset s).status = Status.zero := rfl
  exact hmem.inv (Or.inl hstage)

/-! ## Every step -/

/-- An engine step from a state of the invariant answers, with a state of the invariant. -/
theorem State.Inv.engineStep_inv {s : State} (h : s.Inv) : ∃ t, engineStep s = .next t ∧ t.Inv := by
  by_cases hst : s.st = .idle
  · exact ⟨s, engineStep_idle hst, h⟩
  · obtain ⟨t, hstep, hmove⟩ := h.engineStep_moves hst
    exact ⟨t, hstep, hmove.inv h⟩

/-- From a state of the invariant a step answers with one, or it is a host access outside the memories, which faults. -/
theorem State.Inv.step_cases {s : State} (h : s.Inv) :
    (∃ t, step s = .next t ∧ t.Inv) ∨ (s.turnWithin = false ∧ ∃ f, step s = .fault f) := by
  cases hturns : s.turns with
  | nil =>
    rw [step_engine hturns]
    exact .inl h.engineStep_inv
  | cons turn rest =>
    rw [step_turn hturns]
    have hrest := h.setTurns rest
    cases turn with
    | engine => exact .inl hrest.engineStep_inv
    | reset => exact .inl ⟨_, rfl, platformReset_inv hrest⟩
    | host c =>
      by_cases hc : c.within { s with turns := rest } = true
      · obtain ⟨t, ht, hinv⟩ := hostAccess_within hrest hc
        exact .inl ⟨t, congrArg outcome ht, hinv⟩
      · obtain ⟨f, hf⟩ := hostAccess_outside hc
        refine .inr ⟨?_, f, congrArg outcome hf⟩
        rw [State.turnWithin, hturns]
        cases c
        all_goals exact Bool.eq_false_iff.mpr hc

/-- Settles O48. -/
theorem stepKeepsTheInvariant : Obligations.StepKeepsTheInvariant := by
  intro s t h hstep
  obtain ⟨t', hstep', hinv⟩ | ⟨-, f, hfault⟩ := h.step_cases
  · rw [hstep] at hstep'
    obtain rfl : t = t' := by injection hstep'
    exact hinv
  · rw [hstep] at hfault
    cases hfault

/-- Settles O49. -/
theorem stepNeverStops : Obligations.StepNeverStops := by
  intro s h hwithin
  obtain ⟨t, hstep, -⟩ | ⟨houtside, -⟩ := h.step_cases
  · exact ⟨t, hstep⟩
  · rw [hwithin] at houtside
    cases houtside

/-! ## The cursor and OUT (R36, R67) -/

/-- Each move leaves the cursor where it is or moves it forward within the input. -/
theorem EngineMove.cursor {s t : State} (hmove : EngineMove s t) (h : s.Inv) :
    s.pos.toNat ≤ t.pos.toNat ∧ (s.pos.toNat ≤ s.len.toNat → t.pos.toNat ≤ s.len.toNat) := by
  cases hmove
  case check | commit | tail => exact ⟨le_rfl, id⟩
  case hdr hst hlen v =>
    obtain ⟨-, -, hpos, -⟩ := h.hdr_ok hst
    rw [hpos]
    exact ⟨Nat.zero_le _, fun _ => hlen⟩
  case blk hst hleft =>
    obtain ⟨hloop, hnotDone, hwhole⟩ := h.blk_ok hst
    refine ⟨?_, fun _ => (blockOk_afterBlk hloop hnotDone hwhole hleft).posWithin⟩
    rw [afterBlk_pos_toNat hleft]
    split
    · exact le_rfl
    · exact Nat.le_add_right _ _
  case plane hst bs grp p hok =>
    have hpos : (afterSource s bs grp p).pos.toNat = p := cursor_toNat hok.within
    rw [nextPlane_pos, hpos]
    exact ⟨hok.forward, fun _ => hok.within⟩
  case delta hst tr hkept =>
    have hpos : (nextGroup (s.setMem .tr tr)).pos = s.pos := (congrArg State.pos (nextGroup_frame (s.setMem .tr tr)) :)
    rw [hpos]
    exact ⟨le_rfl, id⟩
  case ends hst r u hu =>
    rw [State.endDecode_pos]
    exact ⟨hu.forward, hu.within⟩

/-- Settles O52. -/
theorem cursorOnlyMovesForward : Obligations.CursorOnlyMovesForward := by
  intro s t h hst hturns hstep
  rw [step_engine hturns] at hstep
  exact (h.move_of_engineStep hst hstep).cursor h

/-- A move that is no commit leaves OUT, unless it ends the decode; and then only below `cnt·es` it may change. -/
theorem EngineMove.out_kept {s t : State} (hmove : EngineMove s t) (hst : s.st ≠ .commit) :
    (t.st ≠ .idle → t.out = s.out) ∧ ∀ a, s.cnt.toNat * s.es.toNat ≤ a → t.peek .out a = s.peek .out a := by
  cases hmove
  case check | hdr | tail | blk => exact ⟨fun _ => rfl, fun _ _ => rfl⟩
  case plane bs grp p hok =>
    exact ⟨fun _ => nextPlane_mem (afterSource s bs grp p) .out, fun a _ => nextPlane_peek _ .out a⟩
  case delta tr hkept =>
    have hmem := nextGroup_mem (s.setMem .tr tr) .out
    have hepoch : (nextGroup (s.setMem .tr tr)).epoch = s.epoch :=
      (congrArg State.epoch (nextGroup_frame (s.setMem .tr tr)) :)
    exact ⟨fun _ => hmem, fun a _ => State.peek_congr .out hmem hepoch a⟩
  case commit hcommit => exact absurd hcommit hst
  case ends r u hu =>
    have hcnt : u.cnt = s.cnt := (congrArg State.cnt hu.frame :)
    have hes : u.es = s.es := (congrArg State.es hu.frame :)
    have hout : u.peek .out = s.peek .out := (congrArg (State.peek · .out) hu.frame :)
    refine ⟨fun hne => absurd (State.endDecode_st r u) hne, fun a ha => ?_⟩
    rw [State.endDecode_peek_out_beyond r u (by rw [hcnt, hes]; exact ha), hout]

/-- Settles O53. -/
theorem engineWritesOutOnlyInside : Obligations.EngineWritesOutOnlyInside := by
  intro s t h hturns hstep
  rw [step_engine hturns] at hstep
  by_cases hidle : s.st = .idle
  · rw [engineStep_idle hidle] at hstep
    obtain rfl : s = t := by injection hstep
    exact ⟨fun _ _ => rfl, fun _ _ => rfl, fun hcommit => absurd (hidle.symm.trans hcommit) (by decide)⟩
  by_cases hcommit : s.st = .commit
  · have hblock := h.commit_ok hcommit
    rw [engineStep_stage hcommit (by decide), stageRow, hblock.exec_commit] at hstep
    obtain rfl : afterCommit s = t := by injection hstep
    have hkept : ∀ a, ¬ (s.done.toNat * s.es.toNat ≤ a ∧ a < (s.done.toNat + s.blk.toNat) * s.es.toNat) →
        (afterCommit s).peek .out a = s.peek .out a :=
      fun a ha => peek_afterCommit_out_outside s (by rwa [← Nat.add_mul])
    refine ⟨fun a ha => hkept a fun hin => ?_, fun hne => absurd hcommit hne, fun _ => ⟨hblock.bounds.counted, hkept⟩⟩
    exact absurd (hin.2.trans_le (Nat.mul_le_mul_right _ hblock.bounds.counted)) (Nat.not_lt.mpr ha)
  · obtain ⟨hout, hbeyond⟩ := (h.move_of_engineStep hidle hstep).out_kept hcommit
    exact ⟨hbeyond, fun _ => hout, fun hc => absurd hc hcommit⟩

/-! ## The bound on the steps (R178) -/

/-- Blocks left: at least one, while elements are left. -/
theorem ceilDiv_pos {n c : Nat} (hn : 0 < n) (hc : 0 < c) : 1 ≤ ceilDiv n c :=
  (Nat.one_le_div_iff hc).mpr (by omega)

/-- A block of the capacity, or of the rest, leaves one block less. -/
theorem ceilDiv_sub_min {n c : Nat} (hn : 0 < n) (hc : 0 < c) : ceilDiv (n - min c n) c + 1 = ceilDiv n c := by
  unfold ceilDiv
  obtain hlt | hle := Nat.lt_or_ge n c
  · rw [Nat.min_eq_right hlt.le, Nat.sub_self, Nat.zero_add, Nat.div_eq_of_lt (by omega)]
    exact (Nat.div_eq_of_lt_le (by omega) (by omega)).symm
  · rw [Nat.min_eq_left hle, show n + c - 1 = (n - c + c - 1) + c by omega, Nat.add_div_right _ hc]

/-- The blocks left of a decode. -/
def State.blocksLeft (s : State) : Nat := ceilDiv (s.cnt.toNat - s.done.toNat) (blockCap s.es.toNat)

/-- The component groups left after the current one. -/
def State.groupsAfter (s : State) : Nat := s.es.toNat / 4 - s.g.toNat / 4 - 1

theorem State.stepsLeft_plane {s : State} (h : s.st = .plane) : s.stepsLeft =
    1 + (s.blocksLeft - 1) * blockSteps s.es.toNat + (4 - s.j.toNat + 1) + 5 * s.groupsAfter + 1 := by
  simp only [State.stepsLeft, h]
  rfl

theorem State.stepsLeft_delta {s : State} (h : s.st = .delta) : s.stepsLeft =
    1 + (s.blocksLeft - 1) * blockSteps s.es.toNat + 1 + 5 * s.groupsAfter + 1 := by
  simp only [State.stepsLeft, h]
  rfl

theorem State.stepsLeft_commit {s : State} (h : s.st = .commit) :
    s.stepsLeft = 1 + (s.blocksLeft - 1) * blockSteps s.es.toNat + 1 := by
  simp only [State.stepsLeft, h]
  rfl

theorem State.stepsLeft_blk {s : State} (h : s.st = .blk) :
    s.stepsLeft = 1 + s.blocksLeft * blockSteps s.es.toNat := by
  simp only [State.stepsLeft, h]
  rfl

theorem State.stepsLeft_tail {s : State} (h : s.st = .tail) :
    s.stepsLeft = 2 + s.blocksLeft * blockSteps s.es.toNat := by
  simp only [State.stepsLeft, h]
  rfl

theorem State.stepsLeft_final {s : State} (h : s.st = .final) : s.stepsLeft = 1 := by
  simp only [State.stepsLeft, h]

theorem State.stepsLeft_pos {s : State} (h : s.st ≠ .idle) : 0 < s.stepsLeft := by
  cases hst : s.st
  case idle => exact absurd hst h
  all_goals
    simp only [State.stepsLeft, hst, decodeSteps]
    omega

/-- BLK opens the block: what it leaves are the block's other steps (R178). -/
theorem stepsLeft_afterBlk {s : State} (hst : s.st = .blk) (h : s.LoopOk) (hleft : s.done.toNat < s.cnt.toNat) :
    (afterBlk s).stepsLeft < s.stepsLeft := by
  obtain ⟨hmin, -, -⟩ := (legalElemSize_iff _).mp h.elemSize
  have hcap := (blockCap_bounds h.elemSize).1
  have hblocks : 1 ≤ s.blocksLeft := ceilDiv_pos (by omega) (by omega)
  have hgroups : (afterBlk s).groupsAfter = s.es.toNat / 4 - 0 / 4 - 1 := rfl
  have hsame : (afterBlk s).blocksLeft = s.blocksLeft := rfl
  have hes : (afterBlk s).es = s.es := rfl
  have hj : (afterBlk s).j.toNat = 0 := rfl
  have hsplit : s.blocksLeft * blockSteps s.es.toNat =
      (s.blocksLeft - 1) * blockSteps s.es.toNat + blockSteps s.es.toNat := by
    rw [← Nat.succ_mul, Nat.succ_eq_add_one, Nat.sub_add_cancel hblocks]
  have hsteps : blockSteps s.es.toNat = 2 + 5 * (s.es.toNat / 4) := rfl
  rw [State.stepsLeft_plane (s := afterBlk s) rfl, State.stepsLeft_blk hst, hgroups, hsame, hes, hj, hsplit]
  omega

/-- A plane passes, or the four are done and the delta is next. -/
theorem stepsLeft_nextPlane {s : State} (hst : s.st = .plane) : (nextPlane s).stepsLeft < s.stepsLeft := by
  have hjmax := s.j.isLt
  rw [State.stepsLeft_plane hst]
  by_cases hj : s.j.toNat < 3
  · have hnext := plane_succ_toNat hj
    rw [nextPlane_of_lt hj, State.stepsLeft_plane (s := { s with j := s.j + 1, st := .plane }) rfl]
    change 1 + (s.blocksLeft - 1) * blockSteps s.es.toNat + (4 - (s.j + 1).toNat + 1) + 5 * s.groupsAfter + 1 < _
    omega
  · rw [nextPlane_of_last hj, State.stepsLeft_delta (s := { s with st := .delta }) rfl]
    change 1 + (s.blocksLeft - 1) * blockSteps s.es.toNat + 1 + 5 * s.groupsAfter + 1 < _
    omega

/-- A component group passes, or the last is done and the commit is next. -/
theorem stepsLeft_nextGroup {s : State} (hst : s.st = .delta) (h : s.GroupOk) :
    (nextGroup s).stepsLeft < s.stepsLeft := by
  rw [State.stepsLeft_delta hst]
  by_cases hlt : s.g.toNat + 4 < s.es.toNat
  · obtain ⟨hg, hwithin⟩ := group_succ_toNat h hlt
    have hfewer : s.es.toNat / 4 - (s.g + 4).toNat / 4 - 1 + 1 = s.groupsAfter := by
      rw [hg, State.groupsAfter]
      omega
    rw [nextGroup_of_lt hlt, State.stepsLeft_plane (s := { s with g := s.g + 4, j := 0, st := .plane }) rfl]
    change 1 + (s.blocksLeft - 1) * blockSteps s.es.toNat + (4 - 0 + 1) +
      5 * (s.es.toNat / 4 - (s.g + 4).toNat / 4 - 1) + 1 < _
    omega
  · rw [nextGroup_of_last hlt, State.stepsLeft_commit (s := { s with st := .commit }) rfl]
    change 1 + (s.blocksLeft - 1) * blockSteps s.es.toNat + 1 < _
    omega

/-- A commit takes one block off the blocks left. -/
theorem stepsLeft_afterCommit {s : State} (hst : s.st = .commit) (h : s.BlockOk) :
    (afterCommit s).stepsLeft < s.stepsLeft := by
  have hdone := h.afterCommit_done
  rw [State.stepsLeft_commit hst]
  by_cases hlt : (afterCommit s).done.toNat < s.cnt.toNat
  · have hcap := (blockCap_bounds h.elemSize).1
    have hblk := h.blkIs
    have hnotDone := h.notDone
    rw [h.capIs] at hblk
    have hfewer : (afterCommit s).blocksLeft + 1 = s.blocksLeft := by
      have hleft : (afterCommit s).blocksLeft =
          ceilDiv (s.cnt.toNat - (afterCommit s).done.toNat) (blockCap s.es.toNat) := rfl
      rw [hleft, hdone, hblk, ← Nat.sub_sub]
      exact ceilDiv_sub_min (by omega) (by omega)
    rw [State.stepsLeft_blk (s := afterCommit s) (if_pos hlt), ← hfewer, Nat.add_sub_cancel]
    exact Nat.lt_succ_self _
  · rw [State.stepsLeft_final (s := afterCommit s) (if_neg hlt)]
    omega

theorem stepsLeft_afterTail {s : State} (hst : s.st = .tail) (hdone : s.done = 0) :
    (afterTail s).stepsLeft < s.stepsLeft := by
  rw [State.stepsLeft_tail hst]
  by_cases hcnt : 0 < s.cnt.toNat
  · have hsame : (afterTail s).blocksLeft = s.blocksLeft := by
      rw [State.blocksLeft, State.blocksLeft, hdone]
      rfl
    rw [State.stepsLeft_blk (s := afterTail s) (if_pos hcnt), hsame]
    change 1 + s.blocksLeft * blockSteps s.es.toNat < _
    omega
  · rw [State.stepsLeft_final (s := afterTail s) (if_neg hcnt)]
    omega

/-- Every move lowers the bound. -/
theorem EngineMove.stepsLeft_lt {s t : State} (hmove : EngineMove s t) (h : s.Inv) : t.stepsLeft < s.stepsLeft := by
  cases hmove
  case check hst hconfig =>
    obtain ⟨-, -, hdone⟩ := h.check_ok hst
    simp only [State.stepsLeft, hst, hdone, decodeSteps]
    exact Nat.add_lt_add_right (by decide) _
  case hdr hst hlen v =>
    simp only [State.stepsLeft, hst]
    omega
  case tail hst hfit =>
    obtain ⟨-, -, -, hdone, -⟩ := h.tail_ok hst
    exact stepsLeft_afterTail hst hdone
  case blk hst hleft =>
    obtain ⟨hloop, hnotDone, -⟩ := h.blk_ok hst
    exact stepsLeft_afterBlk hst hloop hnotDone
  case plane hst bs grp p hok => exact stepsLeft_nextPlane (s := afterSource s bs grp p) hst
  case delta hst tr hkept =>
    exact stepsLeft_nextGroup (s := s.setMem .tr tr) hst (groupOk_setTr (h.delta_ok hst).1 tr)
  case commit hst => exact stepsLeft_afterCommit hst (h.commit_ok hst)
  case ends hst r u hu =>
    have hzero : (u.endDecode r).stepsLeft = 0 := by simp only [State.stepsLeft, State.endDecode_st]
    rw [hzero]
    exact State.stepsLeft_pos hst

/-- Settles O50. -/
theorem engineStepLowersTheBound : Obligations.EngineStepLowersTheBound := by
  intro s h hst hturns
  obtain ⟨t, hstep, hmove⟩ := h.engineStep_moves hst
  exact ⟨t, (step_engine hturns).trans hstep, hmove.stepsLeft_lt h⟩

/-! ## Runs of the engine -/

/-- No move of the engine takes a turn from the list. -/
theorem EngineMove.turns {s t : State} (hmove : EngineMove s t) : t.turns = s.turns := by
  cases hmove
  case plane bs grp p hok => exact (congrArg State.turns (nextPlane_frame (afterSource s bs grp p)) :)
  case delta tr hkept => exact (congrArg State.turns (nextGroup_frame (s.setMem .tr tr)) :)
  case ends r u hu =>
    rw [State.endDecode_turns]
    exact (congrArg State.turns hu.frame :)
  all_goals rfl

/-- A move into IDLE is the end of a decode. -/
theorem EngineMove.ended {s t : State} (hmove : EngineMove s t) (hidle : t.st = .idle) :
    ∃ r v, t.status = Status.ended r v := by
  cases hmove
  case ends r u hu => exact State.endDecode_status r u
  case plane =>
    unfold nextPlane at hidle
    split at hidle
    all_goals cases hidle
  case delta =>
    unfold nextGroup at hidle
    split at hidle
    all_goals cases hidle
  case tail =>
    have hst : (if 0 < s.cnt.toNat then Stage.blk else .final) = .idle := hidle
    split at hst
    all_goals cases hst
  case commit =>
    rw [afterCommit_st] at hidle
    split at hidle
    all_goals cases hidle
  all_goals cases hidle

theorem run_zero (s : State) : Host.Core.run core 0 s = .next s := rfl

/-- One more step at the front of a run. -/
theorem core_run_succ {M : Host.Core} {s t : M.State} (h : M.step s = .next t) (k : Nat) :
    M.run (k + 1) s = M.run k t := by
  rw [Host.Core.run, h]

theorem run_succ {s t : State} (h : step s = .next t) (k : Nat) :
    Host.Core.run core (k + 1) s = Host.Core.run core k t := core_run_succ (M := core) h k

/-- With no turn listed, every decode under way ends within the bound on its steps left. -/
theorem State.Inv.run_ends {n : Nat} : ∀ {s : State}, s.Inv → s.st ≠ .idle → s.turns = [] → s.stepsLeft ≤ n →
    ∃ k ≤ n, ∃ t : State, Host.Core.run core k s = .next t ∧ t.st = .idle ∧ t.turns = [] ∧
      ∃ r v, t.status = Status.ended r v := by
  induction n with
  | zero => exact fun _ hst _ hle => absurd (State.stepsLeft_pos hst) (Nat.not_lt.mpr hle)
  | succ n ih =>
    intro s h hst hturns hle
    obtain ⟨t, hstep, hmove⟩ := h.engineStep_moves hst
    have hrun := run_succ ((step_engine hturns).trans hstep)
    have htturns : t.turns = [] := hmove.turns.trans hturns
    have hlt := hmove.stepsLeft_lt h
    by_cases hidle : t.st = .idle
    · exact ⟨1, by omega, t, hrun 0, hidle, htturns, hmove.ended hidle⟩
    · obtain ⟨k, hk, u, hu, hend⟩ := ih (hmove.inv h) hidle htturns (by omega)
      exact ⟨k + 1, by omega, u, (hrun k).trans hu, hend⟩

/-- BUSY and DONE after any end. -/
theorem Status.ended_busy_done (r : Option Reason) (v : BitVec 1) :
    (Status.ended r v).busy = false ∧ (Status.ended r v).done = true := by
  cases r
  · exact ⟨rfl, rfl⟩
  · exact ⟨rfl, rfl⟩

/-- Settles O51: the bound in CHECK is the rule's. -/
theorem everyDecodeEndsWithinTheBound : Obligations.EveryDecodeEndsWithinTheBound := by
  intro s h hst hturns
  have hbound : s.stepsLeft ≤ decodeSteps s.cnt.toNat s.es.toNat := by simp only [State.stepsLeft, hst, le_refl]
  obtain ⟨k, hk, t, hrun, hidle, -, r, v, hstatus⟩ := h.run_ends (by simp [hst]) hturns hbound
  obtain ⟨hbusy, hdone⟩ := Status.ended_busy_done r v
  exact ⟨k, hk, t, hrun, hidle, by rw [hstatus, hbusy], by rw [hstatus, hdone]⟩

end Sys2Proof.Machine
end

section
/-!
PROOFS. No engine step reads IN at or beyond `len` (R59): every rule run with another input memory that agrees below
`len` does the same, and leaves that memory.
-/

namespace Sys2Proof.Machine

/-! ## Runs with another input memory -/

/-- An input memory that reads as the state's below `len`. -/
def InputAgrees (s : State) (m : Memory) : Prop := ∀ a < s.len.toNat, (s.setMem .inp m).peek .inp a = s.peek .inp a

/-- A run with its result mapped by `f`, and with `m` as the input memory of the state of an error. -/
def mapInput (m : Memory) {α β : Type} (f : α → β) : Run α → Run β
  | .ok a => .ok (f a)
  | .error (.raised r s) => .error (.raised r (s.setMem .inp m))
  | .error (.stopped e) => .error (.stopped e)

/-- The state with the input memory `m`. -/
abbrev withInput (m : Memory) (s : State) : State := s.setMem .inp m

theorem mapInput_bind {m : Memory} {α α' β β' : Type} {f : α → α'} {g : β → β'} {x : Run α} {x' : Run α'}
    {k : α → Run β} {k' : α' → Run β'} (hx : x' = mapInput m f x) (hk : ∀ a, x = .ok a → k' (f a) = mapInput m g (k a)) :
    (x' >>= k') = mapInput m g (x >>= k) := by
  subst hx
  rcases x with (⟨r, s⟩ | e) | a
  · rfl
  · rfl
  · exact hk a rfl

/-- The end of a decode leaves the input memory. -/
theorem endDecode_withInput (m : Memory) (r : Option Reason) (s : State) :
    (withInput m s).endDecode r = withInput m (s.endDecode r) := by
  unfold State.endDecode
  rw [State.setMem_spoiled]
  split
  · rfl
  · cases r with
    | none => rfl
    | some r =>
      simp only [State.endError]
      split
      · rfl
      · rfl

/-- Where a run answers, so does the same run with the other input memory. -/
theorem outcome_mapInput {m : Memory} {x : Run State} {t : State} (h : outcome x = .next t) :
    outcome (mapInput m (withInput m) x) = .next (withInput m t) := by
  obtain rfl | ⟨r, s, rfl, rfl⟩ := outcome_eq_next h
  · rfl
  · exact congrArg Host.Outcome.next (endDecode_withInput m (some r) s)

/-! ## Reads and writes -/

/-- A read raises no error, so no state stands in its end. -/
theorem mapInput_load (m : Memory) (s : State) (sp : Space) (a n : Nat) :
    mapInput m id (s.load sp a n) = s.load sp a n := by
  unfold State.load
  split
  · rfl
  · rfl

/-- The other memories are read as before. -/
theorem load_withInput_other {sp : Space} (hsp : sp ≠ .inp) (m : Memory) (s : State) (a n : Nat) :
    (withInput m s).load sp a n = mapInput m id (s.load sp a n) := by
  have hpeek : ∀ x, (withInput m s).peek sp x = s.peek sp x := fun x =>
    State.peek_congr sp (State.mem_setMem_of_ne s m hsp) (State.setMem_epoch s .inp m) x
  rw [mapInput_load]
  simp only [State.load, State.size_setMem, hpeek]

/-- The input is read as before below `len`. -/
theorem load_withInput_below {s : State} {m : Memory} (h : InputAgrees s m) {a n : Nat} (hlen : a + n ≤ s.len.toNat) :
    (withInput m s).load .inp a n = mapInput m id (s.load .inp a n) := by
  have hbytes : ((List.range n).map fun k => (withInput m s).peek .inp (a + k)) =
      (List.range n).map fun k => s.peek .inp (a + k) :=
    List.map_congr_left fun k hk => h _ (by have := List.mem_range.mp hk; omega)
  rw [mapInput_load]
  simp only [State.load, State.size_setMem, hbytes]

/-- Writes of two memories, one of them the input, are independent. -/
theorem setMem_withInput_comm {sp : Space} (hsp : sp ≠ .inp) (m m' : Memory) (s : State) :
    (withInput m s).setMem sp m' = withInput m (s.setMem sp m') := by
  cases sp
  case inp => exact absurd rfl hsp
  all_goals rfl

theorem store_withInput {sp : Space} (hsp : sp ≠ .inp) (m : Memory) (s : State) (a : Nat) (bs : List Byte) :
    (withInput m s).store sp a bs = mapInput m (withInput m) (s.store sp a bs) := by
  unfold State.store
  rw [State.size_setMem, State.mem_setMem_of_ne s m hsp, setMem_withInput_comm hsp]
  split
  · rfl
  · rfl

theorem storeStrided_withInput {sp : Space} (hsp : sp ≠ .inp) (m : Memory) (stride : Nat) (rows : List (List Byte)) :
    ∀ (a : Nat) (s : State), State.storeStrided sp stride a rows (withInput m s) =
      mapInput m (withInput m) (State.storeStrided sp stride a rows s) := by
  induction rows with
  | nil => exact fun a s => rfl
  | cons bs rows ih =>
    exact fun a s => mapInput_bind (store_withInput hsp m s a bs) fun u _ => ih (a + stride) u

/-! ## Groups, columns and sources -/

/-- A group with its look-ahead does the same. -/
theorem group_withInput {s : State} {m : Memory} (h : InputAgrees s m) {w : Nat}
    (hw : w = 0 ∨ w = 1 ∨ w = 2 ∨ w = 4 ∨ w = 8) (hleft : s.pos.toNat + 24 ≤ s.len.toNat)
    (hcap : s.len.toNat ≤ s.params.inCap) :
    ∃ grp pos, group w s = .ok { s with grp := grp, pos := pos } ∧
      group w (withInput m s) = .ok (withInput m { s with grp := grp, pos := pos }) := by
  obtain ⟨-, -, hlimit⟩ := refGroup_spec (s.peek .inp) hw s.pos.toNat
  have hsame : refGroup ((withInput m s).peek .inp) w s.pos.toNat = refGroup (s.peek .inp) w s.pos.toNat :=
    refGroup_congr hw fun a _ hlt => h a (by omega)
  refine ⟨_, _, group_eq s hw (hleft.trans hcap), ?_⟩
  rw [group_eq (withInput m s) hw (hleft.trans hcap), State.setMem_pos, hsame]
  rfl

theorem columnGroups_withInput {f : Format} (hf : isWidthFormat f = true) (m : Memory) (header : List Byte) (n : Nat) :
    ∀ (q : Nat) (s : State), InputAgrees s m → s.len.toNat ≤ s.params.inCap →
      columnGroups f header q n (withInput m s) =
        mapInput m (Prod.map id (withInput m)) (columnGroups f header q n s) := by
  induction n with
  | zero => exact fun q s _ _ => rfl
  | succ n ih =>
    intro q s h hcap
    by_cases hshort : s.len.toNat < s.pos.toNat + groupDecodeLimit
    · have hraise : ∀ u : State, u.len.toNat < u.pos.toNat + groupDecodeLimit →
          columnGroups f header q (n + 1) u = raise .truncGroup u := fun u hu => if_pos hu
      rw [hraise s hshort, hraise (withInput m s) hshort]
      rfl
    · have hleft : s.pos.toNat + 24 ≤ s.len.toNat := Nat.le_of_not_lt hshort
      have hsel : (selector header q).toNat < 4 := by rw [selector, field2_toNat]; exact Nat.mod_lt _ (by decide)
      obtain ⟨i, -, hfetch, hrun, -⟩ := selectorRow hf hsel
      obtain ⟨grp, pos, hgroup, hgroup'⟩ := group_withInput h (widthsOf_legal hf hsel) hleft hcap
      have hstep : ∀ u : State, ¬ u.len.toNat < u.pos.toNat + groupDecodeLimit →
          columnGroups f header q (n + 1) u =
            group ((widthsOf f).getD (selector header q).toNat 0) u >>= fun u => u.load .grp 0 groupSize >>= fun v =>
              columnGroups f header (q + 1) n u >>= fun r => .ok (v ++ r.1, r.2) := by
        intro u hu
        rw [columnGroups, if_neg hu, hfetch, run_bind_ok, hrun]
      rw [hstep s hshort, hstep (withInput m s) hshort, hgroup, hgroup', run_bind_ok, run_bind_ok]
      exact mapInput_bind (load_withInput_other (by decide) m _ 0 groupSize) fun v _ =>
        mapInput_bind (ih (q + 1) { s with grp := grp, pos := pos } h hcap) fun r _ => rfl

theorem column_withInput {f : Format} (hf : isWidthFormat f = true) {s : State} {m : Memory} (h : InputAgrees s m)
    (hcap : s.len.toNat ≤ s.params.inCap) (n : Nat) :
    column f n (withInput m s) = mapInput m (Prod.map id (withInput m)) (column f n s) := by
  unfold column
  dsimp only
  simp only [State.setMem_len, State.setMem_pos]
  split
  case isTrue => rfl
  case isFalse =>
    split
    case isTrue => rfl
    case isFalse hheader =>
      exact mapInput_bind (load_withInput_below h (Nat.le_of_not_lt hheader)) fun header _ =>
        columnGroups_withInput hf m header (n / groupSize) 0
          { s with pos := BitVec.ofNat 32 (s.pos.toNat + ceilDiv (n / groupSize) 4) } h hcap

theorem packedSource_withInput {f : Format} (hf : isWidthFormat f = true) {s : State} {m : Memory} (h : InputAgrees s m)
    (hcap : s.len.toNat ≤ s.params.inCap) :
    packedSource f (withInput m s) = mapInput m (withInput m) (packedSource f s) := by
  have hcolumn := column_withInput hf h hcap s.blkAligned.toNat
  exact mapInput_bind hcolumn fun r _ => store_withInput (by decide) m r.2 r.2.planeBase r.1

theorem srcLiteral_withInput {s : State} {m : Memory} (h : InputAgrees s m) :
    srcLiteral (withInput m s) = mapInput m (withInput m) (srcLiteral s) := by
  unfold srcLiteral
  simp only [State.setMem_len, State.setMem_pos, State.setMem_blk]
  split
  case isTrue => rfl
  case isFalse hleft =>
    exact mapInput_bind (load_withInput_below h (Nat.le_of_not_lt hleft)) fun bs _ =>
      mapInput_bind (store_withInput (by decide) m s s.planeBase bs) fun u _ => rfl

theorem runSource_withInput {i : Instr} (hi : isSource i) {s : State} {m : Memory} (h : InputAgrees s m)
    (hcap : s.len.toNat ≤ s.params.inCap) :
    runSource i (withInput m s) = mapInput m (withInput m) (runSource i s) := by
  obtain rfl | rfl | rfl | rfl | rfl := hi
  · exact packedSource_withInput (f := .wselV0) rfl h hcap
  · exact packedSource_withInput (f := .wselV1C0) rfl h hcap
  · exact packedSource_withInput (f := .wselV1C1) rfl h hcap
  · exact store_withInput (by decide) m s s.planeBase _
  · exact srcLiteral_withInput h

/-! ## Deltas -/

theorem deltaLane_withInput {w : Nat} (n k : Nat) (f : BitVec w → BitVec w → BitVec w) (m : Memory) (s : State) :
    deltaLane n k f (withInput m s) = mapInput m (withInput m) (deltaLane n k f s) := by
  exact mapInput_bind (load_withInput_other (by decide) m s 0 (4 * s.blk.toNat)) fun res _ =>
    mapInput_bind (load_withInput_other (by decide) m s (s.g.toNat + k) n) fun seed _ =>
      storeStrided_withInput (by decide) m s.es.toNat _ (s.g.toNat + k) s

theorem deltaLanes_withInput {w : Nat} (n : Nat) (f : BitVec w → BitVec w → BitVec w) (m : Memory) (c : Nat) (s : State) :
    deltaLanes n f c (withInput m s) = mapInput m (withInput m) (deltaLanes n f c s) := by
  induction c with
  | zero => rfl
  | succ c ih => exact mapInput_bind ih fun u _ => deltaLane_withInput n (n * c) f m u

theorem runDelta_withInput {i : Instr} (hi : isDelta i) (m : Memory) (s : State) :
    runDelta i (withInput m s) = mapInput m (withInput m) (runDelta i s) := by
  have hzz8 : zigzag8 (withInput m s) = mapInput m (withInput m) (zigzag8 s) := by
    rw [zigzag8_eq_lanes, zigzag8_eq_lanes]
    exact deltaLanes_withInput 1 _ m 4 s
  obtain rfl | ⟨rest, mode, rfl⟩ := hi
  · exact hzz8
  · obtain rfl | rfl | rfl | rfl := bitVec2_cases mode
    · exact hzz8
    · exact deltaLanes_withInput 2 _ m 2 s
    · exact deltaLanes_withInput 4 _ m 1 s
    · rfl

/-! ## The eight steps -/

/-- The tail's runs of bytes lie below `len`. -/
theorem take_withInput {s : State} {m : Memory} (h : InputAgrees s m) {a n : Nat} (hlen : a + n ≤ s.len.toNat) :
    Bytes.take ((withInput m s).peek .inp) a n = Bytes.take (s.peek .inp) a n :=
  List.map_congr_left fun k hk => h _ (by have := List.mem_range.mp hk; omega)

theorem afterTail_withInput {s : State} {m : Memory} (h : InputAgrees s m)
    (hfit : s.pos.toNat + tailPadded s.ver s.es.toNat ≤ s.len.toNat) :
    afterTail (withInput m s) = withInput m (afterTail s) := by
  have hle := tailSize_le_padded s.ver s.es.toNat
  have hseed : Bytes.take ((withInput m s).peek .inp) (s.len.toNat - tailSize s.ver s.es.toNat) s.es.toNat =
      Bytes.take (s.peek .inp) (s.len.toNat - tailSize s.ver s.es.toNat) s.es.toNat := by
    refine take_withInput h ?_
    obtain ⟨-, hsize⟩ | ⟨-, hsize⟩ := tailSize_cases s.ver s.es.toNat
    all_goals omega
  have hlast : (afterTail (withInput m s)).last = (afterTail s).last := congrArg (Memory.write 0 · s.last) hseed
  have hchan : (afterTail (withInput m s)).chan = (afterTail s).chan := by
    obtain ⟨hver, -⟩ | ⟨hver, hsize⟩ := tailSize_cases s.ver s.es.toNat
    · exact (if_pos hver : (afterTail (withInput m s)).chan = s.chan).trans (if_pos hver).symm
    · have htable : Bytes.take ((withInput m s).peek .inp) (s.len.toNat - tailSize s.ver s.es.toNat + s.es.toNat)
          (s.es.toNat / 4) =
          Bytes.take (s.peek .inp) (s.len.toNat - tailSize s.ver s.es.toNat + s.es.toNat) (s.es.toNat / 4) :=
        take_withInput h (by omega)
      exact (if_neg hver : (afterTail (withInput m s)).chan = _).trans
        ((congrArg (Memory.write 0 · s.chan) htable).trans (if_neg hver).symm)
  calc afterTail (withInput m s)
      = withInput m { afterTail s with
          last := (afterTail (withInput m s)).last, chan := (afterTail (withInput m s)).chan } := rfl
    _ = withInput m (afterTail s) := by rw [hlast, hchan]

theorem controlBytes_withInput {s : State} {m : Memory} (h : InputAgrees s m)
    (hleft : ¬ (s.ver = 1 ∧ s.len.toNat < s.pos.toNat + s.es.toNat / 4)) :
    (withInput m s).controlBytes = s.controlBytes := by
  unfold State.controlBytes
  rw [State.setMem_ver, State.setMem_es, State.setMem_pos]
  split
  case isTrue => rfl
  case isFalse hver =>
    exact take_withInput h (Nat.le_of_not_lt fun hlt => hleft ⟨by bv_omega, hlt⟩)

/-- CHECK reads no input. -/
theorem start_withInput (m : Memory) {s : State} (hbusy : s.status.busy = true) (hst : s.st = .check) :
    start (withInput m s) = mapInput m (withInput m) (start s) := by
  have hstart : ∀ u : State, u.status.busy = true → u.st = .check → start u = usageCheck u := by
    intro u hu hst
    simp [start, hu, hst]
  rw [hstart s hbusy hst, hstart (withInput m s) hbusy hst]
  unfold usageCheck
  simp only [State.setMem_es, State.setMem_len, State.setMem_cnt, State.setMem_params]
  split
  · rfl
  · split
    · rfl
    · split
      · rfl
      · rfl

theorem nextPlane_withInput (m : Memory) (s : State) : nextPlane (withInput m s) = withInput m (nextPlane s) := by
  unfold nextPlane
  rw [State.setMem_j]
  split
  · rfl
  · rfl

theorem nextGroup_withInput (m : Memory) (s : State) : nextGroup (withInput m s) = withInput m (nextGroup s) := by
  unfold nextGroup
  rw [State.setMem_g, State.setMem_es]
  split
  · rfl
  · rfl

theorem plane_withInput {s : State} {m : Memory} (h : InputAgrees s m) (hcap : s.len.toNat ≤ s.params.inCap) :
    plane (withInput m s) = mapInput m (withInput m) (plane s) := by
  rw [plane_eq, plane_eq]
  exact mapInput_bind (runSource_withInput (isSource_planeRow _ _ _) h hcap)
    fun u _ => congrArg Except.ok (nextPlane_withInput m u)

theorem delta_withInput (m : Memory) (s : State) : delta (withInput m s) = mapInput m (withInput m) (delta s) := by
  rw [delta_eq, delta_eq]
  exact mapInput_bind (runDelta_withInput (isDelta_deltaRow _ _) m s)
    fun u _ => congrArg Except.ok (nextGroup_withInput m u)

/-- The header's row does not read the input again. -/
theorem runHeader_withInput (m : Memory) (b : Byte) (s : State) :
    runHeader (decodeHeader b) (withInput m s) = mapInput m (withInput m) (runHeader (decodeHeader b) s) := by
  unfold decodeHeader
  split
  · split
    · rfl
    · split
      · rfl
      · rfl
  · rfl

/-- An engine step from a state of the invariant, run with an input memory that agrees below `len`. -/
theorem State.Inv.engineStep_withInput {s t : State} {m : Memory} (h : s.Inv) (hagree : InputAgrees s m)
    (hstep : engineStep s = .next t) : engineStep (withInput m s) = .next (withInput m t) := by
  by_cases hidle : s.st = .idle
  · rw [engineStep_idle hidle] at hstep
    obtain rfl : s = t := by injection hstep
    exact engineStep_idle hidle
  have hrow := engineStep_stage (s := s) rfl hidle
  have hrow' := engineStep_stage (s := withInput m s) rfl hidle
  rw [hrow] at hstep
  rw [hrow', State.setMem_st]
  clear hrow hrow'
  cases hst : s.st
  all_goals rw [hst] at hstep
  case idle => exact absurd hst hidle
  case check =>
    obtain ⟨hstatus, -, -⟩ := h.check_ok hst
    have hrun := start_withInput m (s := s) (by rw [hstatus]; rfl) hst
    exact (congrArg outcome hrun).trans (outcome_mapInput hstep)
  case hdr =>
    obtain ⟨hconfig, -⟩ := h.hdr_ok hst
    by_cases hlen : s.len.toNat < 1
    · have hends := (exec_hdr_empty hlen).symm.trans hstep
      obtain rfl : s.endDecode (some .empty) = t := by injection hends
      exact (exec_hdr_empty (s := withInput m s) hlen).trans (congrArg _ (endDecode_withInput m _ s))
    · have hbyte : (withInput m s).peek .inp 0 = s.peek .inp 0 := hagree 0 (by omega)
      have hhdr := (exec_hdr_eq hlen hconfig.inLen).symm.trans hstep
      refine (exec_hdr_eq (s := withInput m s) hlen hconfig.inLen).trans ?_
      rw [hbyte, runHeader_withInput]
      exact outcome_mapInput hhdr
  case tail =>
    obtain ⟨hconfig, -⟩ := h.tail_ok hst
    obtain ⟨-, hes, -⟩ := (legalElemSize_iff _).mp hconfig.elemSize
    by_cases hshort : s.len.toNat < s.pos.toNat + tailPadded s.ver s.es.toNat
    · have hends := (exec_tail_short hes hshort).symm.trans hstep
      obtain rfl : (tailSizes s).endDecode (some .shortTail) = t := by injection hends
      exact (exec_tail_short (s := withInput m s) hes hshort).trans (congrArg _ (endDecode_withInput m _ (tailSizes s)))
    · have hfit := Nat.le_of_not_lt hshort
      have hnext := (exec_tail_eq hes hconfig.inLen hfit).symm.trans hstep
      obtain rfl : afterTail s = t := by injection hnext
      exact (exec_tail_eq (s := withInput m s) hes hconfig.inLen hfit).trans (congrArg _ (afterTail_withInput hagree hfit))
  case blk =>
    obtain ⟨hloop, -⟩ := h.blk_ok hst
    obtain ⟨-, hes, -⟩ := (legalElemSize_iff _).mp hloop.elemSize
    by_cases hshort : s.ver = 1 ∧ s.len.toNat < s.pos.toNat + s.es.toNat / 4
    · obtain ⟨hver, hlen⟩ := hshort
      have hends := (exec_blk_short hver hlen).symm.trans hstep
      obtain rfl : (blockSizes s).endDecode (some .truncControl) = t := by injection hends
      exact (exec_blk_short (s := withInput m s) hver hlen).trans (congrArg _ (endDecode_withInput m _ (blockSizes s)))
    · have hnext := (exec_blk_eq hes hloop.inLen hshort).symm.trans hstep
      obtain rfl : afterBlk s = t := by injection hnext
      refine (exec_blk_eq (s := withInput m s) hes hloop.inLen hshort).trans (congrArg _ ?_)
      rw [afterBlk, controlBytes_withInput hagree hshort]
      rfl
  case plane =>
    have hrun := plane_withInput hagree (h.groupOk_of_plane hst).inLen
    exact (congrArg outcome hrun).trans (outcome_mapInput hstep)
  case delta => exact (congrArg outcome (delta_withInput m s)).trans (outcome_mapInput hstep)
  case commit =>
    have hblock := h.commit_ok hst
    have hnext := hblock.exec_commit.symm.trans hstep
    obtain rfl : afterCommit s = t := by injection hnext
    have hblock' : (withInput m s).BlockOk := hblock.congr rfl rfl rfl le_rfl hblock.posWithin
    exact hblock'.exec_commit
  case final =>
    by_cases hlen : s.len.toNat = s.pos.toNat + s.tp.toNat
    · have hends := (exec_final_eq hlen).symm.trans hstep
      obtain rfl : s.endDecode none = t := by injection hends
      exact (exec_final_eq (s := withInput m s) hlen).trans (congrArg _ (endDecode_withInput m _ s))
    · have hends := (exec_final_mismatch hlen).symm.trans hstep
      obtain rfl : s.endDecode (some .trailingMismatch) = t := by injection hends
      exact (exec_final_mismatch (s := withInput m s) hlen).trans (congrArg _ (endDecode_withInput m _ s))

/-- Settles O54. -/
theorem inputBeyondLenIsNeverRead : Obligations.InputBeyondLenIsNeverRead := by
  intro s t m h _ hturns hagree hstep
  rw [step_engine hturns] at hstep
  have hturns' : (s.setMem .inp m).turns = [] := hturns
  rw [step_engine hturns']
  exact h.engineStep_withInput hagree hstep

end Sys2Proof.Machine
end

section
/-!
PROOFS. What the reference function depends on (R46, R59): two runs of it on inputs that agree below `len`, from arrays
that agree where a decode may read them, end alike.
-/

namespace Sys2Proof.Machine

/-! ## Runs that end alike -/

/-- Two runs of the reference function end alike: with the same error, or with related results. -/
def SameRun {α : Type} (R : α → α → Prop) : RefRun α → RefRun α → Prop
  | .ok a, .ok a' => R a a'
  | .error e, .error e' => e = e'
  | _, _ => False

theorem SameRun.bind {α β : Type} {R : α → α → Prop} {S : β → β → Prop} {x x' : RefRun α} {k k' : α → RefRun β}
    (h : SameRun R x x') (hk : ∀ a a', R a a' → SameRun S (k a) (k' a')) : SameRun S (x >>= k) (x' >>= k') := by
  rcases x with e | a
  · rcases x' with e' | a'
    · exact h
    · exact h.elim
  · rcases x' with e' | a'
    · exact h.elim
    · exact hk a a' h

/-- The same, where the first run has answered already. -/
theorem SameRun.bind_ok {α β : Type} {R : α → α → Prop} {S : β → β → Prop} {a : α} {x' : RefRun α} {k k' : α → RefRun β}
    (h : SameRun R (.ok a) x') (hk : ∀ a a', R a a' → SameRun S (k a) (k' a')) : SameRun S (k a) (x' >>= k') :=
  SameRun.bind (k := k) h hk

/-- A run ends like itself, where what holds of its result relates it to itself. -/
theorem SameRun.of_self {α : Type} {R : α → α → Prop} {x : RefRun α} (h : ∀ a, x = .ok a → R a a) : SameRun R x x := by
  rcases x with e | a
  · rfl
  · exact h a rfl

/-! ## Arrays that agree -/

/-- Two arrays have the same bytes below `n`. -/
def AgreeBelow (n : Nat) (m m' : Bytes) : Prop := ∀ a < n, m a = m' a

theorem AgreeBelow.zero (m m' : Bytes) : AgreeBelow 0 m m' := fun a ha => absurd ha (Nat.not_lt_zero a)

theorem AgreeBelow.refl (n : Nat) (m : Bytes) : AgreeBelow n m m := fun _ _ => rfl

theorem AgreeBelow.mono {n k : Nat} {m m' : Bytes} (h : AgreeBelow n m m') (hle : k ≤ n) : AgreeBelow k m m' :=
  fun a ha => h a (ha.trans_le hle)

theorem AgreeBelow.take {n : Nat} {m m' : Bytes} (h : AgreeBelow n m m') {a k : Nat} (hle : a + k ≤ n) :
    m.take a k = m'.take a k :=
  List.map_congr_left fun x hx => h _ (by have := List.mem_range.mp hx; omega)

/-- A run of bytes put where the agreement ends extends it. -/
theorem AgreeBelow.put {a : Nat} {m m' : Bytes} (h : AgreeBelow a m m') (bs : List Byte) :
    AgreeBelow (a + bs.length) (m.put a bs) (m'.put a bs) := by
  intro x hx
  by_cases hin : a ≤ x
  · rw [Bytes.put, Bytes.put, if_pos ⟨hin, hx⟩, if_pos ⟨hin, hx⟩]
  · rw [Bytes.put_outside m (by omega), Bytes.put_outside m' (by omega)]
    exact h x (by omega)

/-- After a strided write two arrays agree where it wrote and where they agreed. -/
theorem Bytes.putStrided_agree {stride n : Nat} (hn : n ≤ stride) {rows : List (List Byte)}
    (hrows : ∀ r ∈ rows, r.length = n) {a x : Nat} {m m' : Bytes}
    (h : (¬ ∃ i < rows.length, a + i * stride ≤ x ∧ x < a + i * stride + n) → m x = m' x) :
    Bytes.putStrided stride a rows m x = Bytes.putStrided stride a rows m' x := by
  by_cases hin : ∃ i < rows.length, a + i * stride ≤ x ∧ x < a + i * stride + n
  · obtain ⟨i, hi, hle, hlt⟩ := hin
    obtain ⟨k, rfl⟩ := Nat.exists_eq_add_of_le hle
    rw [Bytes.putStrided_of_inside stride n hn rows hrows a m i k hi (by omega),
      Bytes.putStrided_of_inside stride n hn rows hrows a m' i k hi (by omega)]
  · have hout : ∀ i < rows.length, ¬ (a + i * stride ≤ x ∧ x < a + i * stride + n) := fun i hi hx => hin ⟨i, hi, hx⟩
    rw [Bytes.putStrided_of_outside stride n rows hrows a m x hout,
      Bytes.putStrided_of_outside stride n rows hrows a m' x hout]
    exact h hin

/-! ## A packed column -/

/-- One group of a column's loop, then the rest. -/
theorem refGroups_succ (inp : Bytes) (len : Nat) (table : List Nat) (hp q n p : Nat) :
    refGroups inp len table hp q (n + 1) p =
      let group := refGroup inp (table.getD (((inp (hp + q / 4)).toNat >>> (2 * (q % 4))) % 4) 0) p
      if len < p + 24 then .error (.truncGroup, p)
      else refGroups inp len table hp (q + 1) n group.2 >>= fun r => .ok (group.1 ++ r.1, r.2) := rfl

theorem refGroups_congr {inp inp' : Bytes} {len : Nat} (h : AgreeBelow len inp inp') {f : Format}
    (hf : isWidthFormat f = true) (hp n : Nat) : ∀ q p, (∀ i < q + n, hp + i / 4 < len) →
      refGroups inp len (widthsOf f) hp q n p = refGroups inp' len (widthsOf f) hp q n p := by
  induction n with
  | zero => exact fun q p _ => rfl
  | succ n ih =>
    intro q p hheader
    have hbyte := h _ (hheader q (by omega))
    obtain ⟨-, -, hlimit⟩ := refGroup_spec inp' (selected_width_legal hf (inp' (hp + q / 4)) (q % 4)) p
    rw [refGroups, refGroups]
    split
    case isTrue => rfl
    case isFalse hleft =>
      have hgroup := refGroup_congr (selected_width_legal hf (inp' (hp + q / 4)) (q % 4)) (p := p)
        (inp := inp') (inp' := inp) fun a _ hlt => h a (by omega)
      have hrest := fun p' => ih (q + 1) p' fun i hi => hheader i (by omega)
      simp only [hbyte, hgroup, hrest]

theorem refColumn_congr {inp inp' : Bytes} {len : Nat} (h : AgreeBelow len inp inp') {f : Format}
    (hf : isWidthFormat f = true) (p n : Nat) :
    refColumn inp len (widthsOf f) p n = refColumn inp' len (widthsOf f) p n := by
  unfold refColumn
  split
  case isTrue => rfl
  case isFalse =>
    split
    case isTrue => rfl
    case isFalse => exact refGroups_congr h hf p (n / 16) 0 _ fun i hi => by omega

theorem refGroups_length {inp : Bytes} {len : Nat} {f : Format} (hf : isWidthFormat f = true) {hp n : Nat} :
    ∀ {q p : Nat} {r : List Byte × Nat}, refGroups inp len (widthsOf f) hp q n p = .ok r → r.1.length = 16 * n := by
  induction n with
  | zero =>
    intro q p r h
    rw [refGroups] at h
    obtain rfl := Except.ok.inj h
    rfl
  | succ n ih =>
    intro q p r h
    obtain ⟨hgroup, -, -⟩ := refGroup_spec inp (selected_width_legal hf (inp (hp + q / 4)) (q % 4)) p
    rw [refGroups_succ] at h
    generalize refGroup inp ((widthsOf f).getD (((inp (hp + q / 4)).toNat >>> (2 * (q % 4))) % 4) 0) p = group
      at h hgroup
    dsimp only at h
    split at h
    case isTrue => cases h
    case isFalse =>
      rcases hrest : refGroups inp len (widthsOf f) hp (q + 1) n group.2 with e | r'
      · rw [hrest] at h
        cases h
      · rw [hrest] at h
        obtain rfl := Except.ok.inj h
        rw [List.length_append, hgroup, ih hrest]
        omega

/-- A column has its length's values. -/
theorem refColumn_length {inp : Bytes} {len : Nat} {f : Format} (hf : isWidthFormat f = true) {p n : Nat}
    {r : List Byte × Nat} (h : refColumn inp len (widthsOf f) p n = .ok r) : r.1.length = n := by
  rw [refColumn] at h
  split at h
  case isTrue => cases h
  case isFalse =>
    split at h
    case isTrue => cases h
    case isFalse =>
      have hlength := refGroups_length hf h
      omega

/-! ## What a decode may read of the arrays -/

/-- Two scratches agree where the block loop may read them: cursor, count, LAST, in version 1 CHAN, and the output so
far. -/
structure LoopAgree (ver : BitVec 1) (es : Nat) (m m' : Scratch) : Prop where
  pos : m.pos = m'.pos
  done : m.done = m'.done
  last : AgreeBelow es m.last m'.last
  chan : ver ≠ 0 → AgreeBelow (es / 4) m.chan m'.chan
  out : AgreeBelow (m.done * es) m.out m'.out

/-- Two scratches agree where a block of `b` elements may read them: with the above, in version 1 the control region, the
first `j` planes of RES, and the first `c` bytes of each element in TR. -/
structure BlockAgree (ver : BitVec 1) (es b c j : Nat) (m m' : Scratch) : Prop extends LoopAgree ver es m m' where
  ctl : ver ≠ 0 → AgreeBelow (es / 4) m.ctl m'.ctl
  res : AgreeBelow (j * b) m.res m'.res
  tr : ∀ i < b, ∀ x < c, m.tr (i * es + x) = m'.tr (i * es + x)

/-- No plane of RES is needed before the first. -/
theorem BlockAgree.noPlane {ver : BitVec 1} {es b c j : Nat} {m m' : Scratch} (h : BlockAgree ver es b c j m m') :
    BlockAgree ver es b c 0 m m' :=
  { h with res := by rw [Nat.zero_mul]; exact AgreeBelow.zero _ _ }

/-- A column in the next plane's place. -/
theorem BlockAgree.putPlane {ver : BitVec 1} {es b c j : Nat} {m m' : Scratch} (h : BlockAgree ver es b c j m m')
    {bs : List Byte} (hbs : b ≤ bs.length) {p p' : Nat} (hp : p = p') :
    BlockAgree ver es b c (j + 1) { m with res := m.res.put (j * b) bs, pos := p }
      { m' with res := m'.res.put (j * b) bs, pos := p' } :=
  { h with
    pos := hp
    res := (h.res.put bs).mono (by rw [Nat.succ_mul]; omega) }

/-! ## The planes -/

theorem le_align16 (b : Nat) : b ≤ align16 b := by
  rw [align16_eq]
  omega

theorem refPacked_congr {inp inp' : Bytes} {len : Nat} (hinp : AgreeBelow len inp inp') {f : Format}
    (hf : isWidthFormat f = true) {ver : BitVec 1} {es b c j : Nat} {m m' : Scratch} (h : BlockAgree ver es b c j m m') :
    SameRun (BlockAgree ver es b c (j + 1)) (refPacked inp len (widthsOf f) b j m)
      (refPacked inp' len (widthsOf f) b j m') := by
  rw [refPacked, refPacked, refColumn_congr hinp hf, ← h.pos]
  exact (SameRun.of_self (R := fun r r' => r = r' ∧ r.1.length = align16 b) fun r hr => ⟨rfl, refColumn_length hf hr⟩).bind
    fun r r' ⟨hsame, hlength⟩ => hsame ▸ h.putPlane ((le_align16 b).trans_eq hlength.symm) rfl

theorem refSource_congr {inp inp' : Bytes} {len : Nat} (hinp : AgreeBelow len inp inp') {i : Instr} (hi : isSource i)
    {ver : BitVec 1} {es b c j : Nat} {m m' : Scratch} (h : BlockAgree ver es b c j m m') :
    SameRun (BlockAgree ver es b c (j + 1)) (refSource inp len b j m i) (refSource inp' len b j m' i) := by
  obtain rfl | rfl | rfl | rfl | rfl := hi
  · exact refPacked_congr hinp (f := .wselV0) rfl h
  · exact refPacked_congr hinp (f := .wselV1C0) rfl h
  · exact refPacked_congr hinp (f := .wselV1C1) rfl h
  · exact h.putPlane (List.length_replicate).ge h.pos
  · rw [refSource, refSource, ← h.pos]
    split
    case isTrue => rfl
    case isFalse hleft =>
      rw [hinp.take (Nat.le_of_not_lt hleft)]
      exact h.putPlane (Bytes.take_length _ _ _).ge rfl

theorem refPlane_congr {inp inp' : Bytes} {len : Nat} (hinp : AgreeBelow len inp inp') {ver : BitVec 1}
    {es b c g j : Nat} (hg : g / 4 < es / 4) {m m' : Scratch} (h : BlockAgree ver es b c j m m') :
    SameRun (BlockAgree ver es b c (j + 1)) (refPlane inp len ver b g j m) (refPlane inp' len ver b g j m') := by
  have hrow : planeRow ver (m.ctl (g / 4)) j = planeRow ver (m'.ctl (g / 4)) j := by
    unfold planeRow
    split
    case isTrue => rfl
    case isFalse hver => rw [h.ctl hver _ hg]
  rw [refPlane_eq, refPlane_eq, hrow]
  exact refSource_congr hinp (isSource_planeRow _ _ _) h

/-- The planes of a component group from the `j`-th on, `n` of them (R169). -/
def refPlanes (inp : Bytes) (len : Nat) (ver : BitVec 1) (b g : Nat) : (j n : Nat) → Scratch → RefRun Scratch
  | _, 0, m => .ok m
  | j, n + 1, m => refPlane inp len ver b g j m >>= refPlanes inp len ver b g (j + 1) n

/-- A component group is its four planes, then its delta. -/
theorem refComponent_eq (inp : Bytes) (shift : RotShift) (len : Nat) (ver : BitVec 1) (es b g : Nat) (m : Scratch) :
    refComponent inp shift len ver es b g m = refPlanes inp len ver b g 0 4 m >>= refDelta shift ver es b g := by
  simp only [refComponent, refPlanes, bind_assoc]
  rfl

theorem refPlanes_congr {inp inp' : Bytes} {len : Nat} (hinp : AgreeBelow len inp inp') {ver : BitVec 1}
    {es b c g : Nat} (hg : g / 4 < es / 4) (n : Nat) : ∀ {j : Nat} {m m' : Scratch}, BlockAgree ver es b c j m m' →
      SameRun (BlockAgree ver es b c (j + n)) (refPlanes inp len ver b g j n m) (refPlanes inp' len ver b g j n m') := by
  induction n with
  | zero => exact fun h => h
  | succ n ih =>
    intro j m m' h
    rw [show j + (n + 1) = j + 1 + n by omega]
    exact (refPlane_congr hinp hg h).bind fun _ _ h => ih h

/-! ## The delta -/

theorem refLane_congr {w : Nat} {ver : BitVec 1} {es b g n k : Nat} (f : BitVec w → BitVec w → BitVec w)
    (hk : k + n ≤ 4) (hg : g + 4 ≤ es) {m m' : Scratch} (h : BlockAgree ver es b (g + k) 4 m m') :
    BlockAgree ver es b (g + (k + n)) 4 (refLane es b g n k f m) (refLane es b g n k f m') := by
  have hwords : ((List.range b).map fun i => laneWord w ((List.range n).map fun x => m.res ((k + x) * b + i))) =
      (List.range b).map fun i => laneWord w ((List.range n).map fun x => m'.res ((k + x) * b + i)) := by
    refine List.map_congr_left fun i hi => congrArg (laneWord w) (List.map_congr_left fun x hx => h.res _ ?_)
    have hi := List.mem_range.mp hi
    have hx := List.mem_range.mp hx
    calc (k + x) * b + i < (k + x) * b + b := Nat.add_lt_add_left hi _
      _ = (k + x + 1) * b := (Nat.succ_mul _ _).symm
      _ ≤ 4 * b := Nat.mul_le_mul_right b (by omega)
  have hlast : m.last.take (g + k) n = m'.last.take (g + k) n := h.last.take (by omega)
  refine { h with tr := fun i hi x hx => ?_ }
  rw [refLane, refLane, hwords, hlast]
  refine Bytes.putStrided_agree (n := n) (by omega) (fun r hr => ?_) fun hout => h.tr i hi x ?_
  · obtain ⟨v, -, rfl⟩ := List.mem_map.mp hr
    exact laneBytes_length n v
  · have hrow : ¬ (g + k + i * es ≤ i * es + x ∧ i * es + x < g + k + i * es + n) := fun hin =>
      hout ⟨i, by rwa [List.length_map, chain_length, List.length_map, List.length_range], hin⟩
    omega

theorem refLanes_congr {w : Nat} {ver : BitVec 1} {es b g n : Nat} (f : BitVec w → BitVec w → BitVec w) (hg : g + 4 ≤ es)
    {m m' : Scratch} (h : BlockAgree ver es b g 4 m m') (c : Nat) (hc : n * c ≤ 4) :
    BlockAgree ver es b (g + n * c) 4 (refLanes es b g n f c m) (refLanes es b g n f c m') := by
  induction c with
  | zero => exact h
  | succ c ih =>
    rw [Nat.mul_succ] at hc ⊢
    exact refLane_congr f hc hg (ih (by omega))

theorem refDeltaRow_congr (shift : RotShift) {i : Instr} (hi : isDelta i) {ver : BitVec 1} {es b g : Nat} (hg : g + 4 ≤ es)
    {m m' : Scratch} (h : BlockAgree ver es b g 4 m m') :
    SameRun (BlockAgree ver es b (g + 4) 4) (refDeltaRow shift es b g m i) (refDeltaRow shift es b g m' i) := by
  obtain rfl | ⟨rest, mode, rfl⟩ := hi
  · exact refLanes_congr (n := 1) _ hg h 4 (by decide)
  · obtain rfl | rfl | rfl | rfl := bitVec2_cases mode
    · exact refLanes_congr (n := 1) _ hg h 4 (by decide)
    · exact refLanes_congr (n := 2) _ hg h 2 (by decide)
    · exact refLanes_congr (n := 4) _ hg h 1 (by decide)
    · exact congrArg (Prod.mk Reason.badChannel) h.pos

theorem refDelta_congr (shift : RotShift) {ver : BitVec 1} {es b g : Nat} (hg : g + 4 ≤ es) {m m' : Scratch}
    (h : BlockAgree ver es b g 4 m m') :
    SameRun (BlockAgree ver es b (g + 4) 4) (refDelta shift ver es b g m) (refDelta shift ver es b g m') := by
  have hrow : deltaRow ver (m.chan (g / 4)) = deltaRow ver (m'.chan (g / 4)) := by
    unfold deltaRow
    split
    case isTrue => rfl
    case isFalse hver => rw [h.chan hver _ (by omega)]
  rw [refDelta_eq, refDelta_eq, hrow]
  exact refDeltaRow_congr shift (isDelta_deltaRow _ _) hg h

/-! ## The component groups and the block -/

theorem refComponents_congr {inp inp' : Bytes} {len : Nat} (hinp : AgreeBelow len inp inp') (shift : RotShift)
    {ver : BitVec 1} {es b : Nat} (n : Nat) : ∀ {k : Nat} {m m' : Scratch}, 4 * (k + n) ≤ es →
      BlockAgree ver es b (4 * k) 0 m m' → SameRun (BlockAgree ver es b (4 * (k + n)) 0)
        (refComponents inp shift len ver es b k n m) (refComponents inp' shift len ver es b k n m') := by
  induction n with
  | zero => exact fun _ h => h
  | succ n ih =>
    intro k m m' hle h
    have hplanes := refPlanes_congr hinp (g := 4 * k) (by omega) 4 h
    rw [refComponents, refComponents, refComponent_eq, refComponent_eq, show k + (n + 1) = k + 1 + n by omega]
    exact (hplanes.bind fun _ _ h => refDelta_congr shift (by omega) h).bind fun _ _ h => ih (by omega) h.noPlane

/-- The block's control region is read, in version 1 (R168). -/
def refControl (inp : Bytes) (len : Nat) (ver : BitVec 1) (es : Nat) (m : Scratch) : RefRun Scratch :=
  if ver = 0 then .ok m
  else if len < m.pos + es / 4 then .error (.truncControl, m.pos)
  else .ok { m with ctl := m.ctl.put 0 (inp.take m.pos (es / 4)), pos := m.pos + es / 4 }

/-- The block is committed (R172). -/
def refCommit (es b : Nat) (m : Scratch) : Scratch :=
  { m with
    out := m.out.put (m.done * es) (m.tr.take 0 (b * es))
    last := m.last.put 0 (m.tr.take ((b - 1) * es) es)
    done := m.done + b }

/-- A block is its control region, its component groups and its commit. -/
theorem refBlock_eq (inp : Bytes) (shift : RotShift) (len : Nat) (ver : BitVec 1) (es b : Nat) (m : Scratch) :
    refBlock inp shift len ver es b m = refControl inp len ver es m >>= fun m =>
      refComponents inp shift len ver es b 0 (es / 4) m >>= fun m => .ok (refCommit es b m) := by
  unfold refBlock refControl
  split
  · rfl
  · split
    · rfl
    · rfl

theorem refControl_congr {inp inp' : Bytes} {len : Nat} (hinp : AgreeBelow len inp inp') {ver : BitVec 1} {es : Nat}
    (b : Nat) {m m' : Scratch} (h : LoopAgree ver es m m') :
    SameRun (BlockAgree ver es b 0 0) (refControl inp len ver es m) (refControl inp' len ver es m') := by
  have hres : AgreeBelow (0 * b) m.res m'.res := by rw [Nat.zero_mul]; exact AgreeBelow.zero _ _
  have htr : ∀ i < b, ∀ x < 0, m.tr (i * es + x) = m'.tr (i * es + x) := fun _ _ x hx => absurd hx (Nat.not_lt_zero x)
  unfold refControl
  rw [← h.pos]
  split
  case isTrue hver => exact { h with ctl := fun hne => absurd hver hne, res := hres, tr := htr }
  case isFalse =>
    split
    case isTrue => rfl
    case isFalse hleft =>
      have hctl := (AgreeBelow.zero m.ctl m'.ctl).put (inp.take m.pos (es / 4))
      rw [Bytes.take_length, Nat.zero_add, hinp.take (Nat.le_of_not_lt hleft)] at hctl
      rw [hinp.take (Nat.le_of_not_lt hleft)]
      exact { h with pos := rfl, ctl := fun _ => hctl, res := hres, tr := htr }

/-- Elements that agree byte by byte agree as one run of bytes. -/
theorem agreeBelow_elements {es b : Nat} {m m' : Bytes} (hes : 0 < es)
    (h : ∀ i < b, ∀ x < es, m (i * es + x) = m' (i * es + x)) : AgreeBelow (b * es) m m' := by
  intro a ha
  have hbyte := h (a / es) ((Nat.div_lt_iff_lt_mul hes).mpr ha) (a % es) (Nat.mod_lt _ hes)
  rwa [Nat.mul_comm, Nat.div_add_mod] at hbyte

theorem refCommit_congr {ver : BitVec 1} {es b j : Nat} (hes : 0 < es) (hb : 1 ≤ b) {m m' : Scratch}
    (h : BlockAgree ver es b es j m m') : LoopAgree ver es (refCommit es b m) (refCommit es b m') := by
  have hall := agreeBelow_elements hes h.tr
  have hrow : (b - 1) * es + es = b * es := by rw [← Nat.succ_mul, Nat.succ_eq_add_one, Nat.sub_add_cancel hb]
  have hout := h.out.put (m.tr.take 0 (b * es))
  have hlast := (AgreeBelow.zero m.last m'.last).put (m.tr.take ((b - 1) * es) es)
  rw [Bytes.take_length, ← Nat.add_mul] at hout
  rw [Bytes.take_length, Nat.zero_add] at hlast
  refine ⟨h.pos, congrArg (· + b) h.done, ?_, h.chan, ?_⟩
  · rwa [refCommit, refCommit, ← hall.take hrow.le]
  · rwa [refCommit, refCommit, ← hall.take (Nat.zero_add _).le, ← h.done]

/-- All component groups, then the commit. -/
theorem refGroupsToCommit_congr {inp inp' : Bytes} {len : Nat} (hinp : AgreeBelow len inp inp') (shift : RotShift)
    {ver : BitVec 1} {es b : Nat} (hes : legalElemSize es = true) (hb : 1 ≤ b) {m m' : Scratch}
    (h : BlockAgree ver es b 0 0 m m') :
    SameRun (LoopAgree ver es)
      (refComponents inp shift len ver es b 0 (es / 4) m >>= fun m => .ok (refCommit es b m))
      (refComponents inp' shift len ver es b 0 (es / 4) m' >>= fun m => .ok (refCommit es b m)) := by
  obtain ⟨hmin, -, haligned⟩ := (legalElemSize_iff es).mp hes
  have hwhole : 4 * (0 + es / 4) = es := by omega
  have hcomponents := refComponents_congr hinp shift (es / 4) hwhole.le h
  rw [hwhole] at hcomponents
  exact hcomponents.bind fun _ _ h => refCommit_congr (by omega) hb h

/-- The block depends on the input below `len` and on what the loop may read. -/
theorem refBlock_congr {inp inp' : Bytes} {len : Nat} (hinp : AgreeBelow len inp inp') (shift : RotShift)
    {ver : BitVec 1} {es b : Nat} (hes : legalElemSize es = true) (hb : 1 ≤ b) {m m' : Scratch}
    (h : LoopAgree ver es m m') :
    SameRun (LoopAgree ver es) (refBlock inp shift len ver es b m) (refBlock inp' shift len ver es b m') := by
  rw [refBlock_eq, refBlock_eq]
  exact (refControl_congr hinp b h).bind fun _ _ h => refGroupsToCommit_congr hinp shift hes hb h

/-! ## The loop and the whole decode -/

/-- Two ends of DECODE are the same but for the output that no claim speaks of. -/
structure SameResult (es : Nat) (r r' : DecodeResult) : Prop where
  reason : r.reason = r'.reason
  version : r.version = r'.version
  inPos : r.inPos = r'.inPos
  elemDone : r.elemDone = r'.elemDone
  out : AgreeBelow (r.elemDone * es) r.out r'.out

theorem SameResult.refl (es : Nat) (r : DecodeResult) : SameResult es r r :=
  ⟨rfl, rfl, rfl, rfl, AgreeBelow.refl _ _⟩

theorem SameResult.trans {es : Nat} {r r' r'' : DecodeResult} (h : SameResult es r r') (h' : SameResult es r' r'') :
    SameResult es r r'' := by
  have hout := h'.out
  rw [← h.elemDone] at hout
  exact ⟨h.reason.trans h'.reason, h.version.trans h'.version, h.inPos.trans h'.inPos, h.elemDone.trans h'.elemDone,
    fun a ha => (h.out a ha).trans (hout a ha)⟩

/-- The decode from the end of a block on: the loop goes on from the block's scratch, or the decode ends with the block's
error (R176). -/
def refAfterBlock (inp : Bytes) (shift : RotShift) (len cnt : Nat) (ver : BitVec 1) (es tp fuel : Nat) (m : Scratch) :
    RefRun Scratch → DecodeResult
  | .ok m' => refBlocks inp shift len cnt ver es tp fuel m'
  | .error (r, p) => { reason := some r, version := ver, inPos := p, elemDone := m.done, out := m.out }

/-- The trailing check (R174). -/
def refFinal (len : Nat) (ver : BitVec 1) (tp : Nat) (m : Scratch) : DecodeResult where
  reason := if len ≠ m.pos + tp then some .trailingMismatch else none
  version := ver
  inPos := m.pos
  elemDone := m.done
  out := m.out

theorem refBlocks_of_left {inp : Bytes} {shift : RotShift} {len cnt : Nat} {ver : BitVec 1} {es tp fuel : Nat}
    {m : Scratch} (h : m.done < cnt) : refBlocks inp shift len cnt ver es tp (fuel + 1) m =
      refAfterBlock inp shift len cnt ver es tp fuel m
        (refBlock inp shift len ver es (min (blockCap es) (cnt - m.done)) m) := by
  rw [refBlocks, if_pos h]
  rfl

theorem refBlocks_of_spent {inp : Bytes} {shift : RotShift} {len cnt : Nat} {ver : BitVec 1} {es tp : Nat} {m : Scratch}
    (h : m.done < cnt) : refBlocks inp shift len cnt ver es tp 0 m =
      { reason := none, version := ver, inPos := m.pos, elemDone := m.done, out := m.out } := by
  unfold refBlocks
  exact if_pos h

theorem refBlocks_of_done {inp : Bytes} {shift : RotShift} {len cnt : Nat} {ver : BitVec 1} {es tp fuel : Nat}
    {m : Scratch} (h : ¬ m.done < cnt) : refBlocks inp shift len cnt ver es tp fuel m = refFinal len ver tp m := by
  unfold refBlocks refFinal
  rw [if_neg h]
  split
  · rfl
  · rfl

theorem refFinal_congr {ver : BitVec 1} {es : Nat} (len tp : Nat) {m m' : Scratch} (h : LoopAgree ver es m m') :
    SameResult es (refFinal len ver tp m) (refFinal len ver tp m') :=
  ⟨by rw [refFinal, refFinal, h.pos], rfl, h.pos, h.done, h.out⟩

/-- The loop after a block goes alike, where every run of it does. -/
theorem refAfterBlock_congr {inp inp' : Bytes} {shift : RotShift} {len cnt : Nat} {ver : BitVec 1} {es tp fuel : Nat}
    (hloop : ∀ {m m' : Scratch}, LoopAgree ver es m m' → SameResult es (refBlocks inp shift len cnt ver es tp fuel m)
      (refBlocks inp' shift len cnt ver es tp fuel m'))
    {m m' : Scratch} (hdone : m.done = m'.done) (hout : AgreeBelow (m.done * es) m.out m'.out) {x x' : RefRun Scratch}
    (h : SameRun (LoopAgree ver es) x x') : SameResult es (refAfterBlock inp shift len cnt ver es tp fuel m x)
      (refAfterBlock inp' shift len cnt ver es tp fuel m' x') := by
  rcases x with ⟨r, p⟩ | u
  · rcases x' with ⟨r', p'⟩ | u'
    · obtain ⟨rfl, rfl⟩ := Prod.mk.inj h
      exact ⟨rfl, rfl, rfl, hdone, hout⟩
    · exact h.elim
  · rcases x' with e' | u'
    · exact h.elim
    · exact hloop h

theorem refBlocks_congr {inp inp' : Bytes} {len : Nat} (hinp : AgreeBelow len inp inp') (shift : RotShift) (cnt : Nat)
    {ver : BitVec 1} {es : Nat} (hes : legalElemSize es = true) (tp fuel : Nat) : ∀ {m m' : Scratch},
      LoopAgree ver es m m' → SameResult es (refBlocks inp shift len cnt ver es tp fuel m)
        (refBlocks inp' shift len cnt ver es tp fuel m') := by
  induction fuel with
  | zero =>
    intro m m' h
    by_cases hleft : m.done < cnt
    · rw [refBlocks_of_spent hleft, refBlocks_of_spent (h.done ▸ hleft)]
      exact ⟨rfl, rfl, h.pos, h.done, h.out⟩
    · rw [refBlocks_of_done hleft, refBlocks_of_done (h.done ▸ hleft)]
      exact refFinal_congr len tp h
  | succ fuel ih =>
    intro m m' h
    by_cases hleft : m.done < cnt
    · have hcap := (blockCap_bounds hes).1
      have hblock := refBlock_congr hinp shift (b := min (blockCap es) (cnt - m.done)) hes (by omega) h
      rw [refBlocks_of_left hleft, refBlocks_of_left (h.done ▸ hleft), ← h.done]
      exact refAfterBlock_congr ih h.done h.out hblock
    · rw [refBlocks_of_done hleft, refBlocks_of_done (h.done ▸ hleft)]
      exact refFinal_congr len tp h

/-- The scratch the block loop starts from: the seed and, in version 1, the channel table of the tail (R164, R165). -/
def refSeed (ver : BitVec 1) (es len : Nat) (inp out : Bytes) : Scratch where
  pos := 1
  done := 0
  last := Bytes.put (fun _ => 0) 0 (inp.take (len - tailSize ver es) es)
  chan := if ver = 0 then fun _ => 0 else Bytes.put (fun _ => 0) 0 (inp.take (len - tailSize ver es + es) (es / 4))
  ctl := fun _ => 0
  res := fun _ => 0
  tr := fun _ => 0
  out := out

/-- The decode after an accepted header (R162 to R176). -/
def refAfterHeader (params : Params) (cnt es len : Nat) (ver : BitVec 1) (inp out : Bytes) : DecodeResult :=
  if len < 1 + tailPadded ver es then
    { reason := some .shortTail, version := ver, inPos := 1, elemDone := 0, out := out }
  else refBlocks inp params.rotShift len cnt ver es (tailPadded ver es) cnt (refSeed ver es len inp out)

/-- The decode after the usage tests (R161). -/
def refAfterCheck (params : Params) (cnt es len : Nat) (inp out : Bytes) : DecodeResult :=
  if len < 1 then { reason := some .empty, version := 0, inPos := 0, elemDone := 0, out := out }
  else if (inp 0).toNat / 16 ≠ 0xA then { reason := some .badMagic, version := 0, inPos := 0, elemDone := 0, out := out }
  else if 1 < (inp 0).toNat % 16 then { reason := some .badVersion, version := 0, inPos := 0, elemDone := 0, out := out }
  else refAfterHeader params cnt es len (BitVec.ofNat 1 (inp 0).toNat) inp out

/-- DECODE is its usage tests, then the rest (R160). -/
theorem decodeBuffer_eq (params : Params) (cnt es len : Nat) (inp out : Bytes) :
    decodeBuffer params cnt es len inp out =
      if ¬ (4 ≤ es ∧ es ≤ 256 ∧ es % 4 = 0) then
        { reason := some .badElemSize, version := 0, inPos := 0, elemDone := 0, out := out }
      else if params.inCap < len then { reason := some .inRange, version := 0, inPos := 0, elemDone := 0, out := out }
      else if params.outCap < cnt * es then
        { reason := some .outRange, version := 0, inPos := 0, elemDone := 0, out := out }
      else refAfterCheck params cnt es len inp out := rfl

/-- The seed and the channel table lie in the input below `len`. -/
theorem refSeed_congr {inp inp' : Bytes} {len : Nat} (hinp : AgreeBelow len inp inp') {ver : BitVec 1} {es : Nat}
    (hfit : tailSize ver es ≤ len) (out out' : Bytes) :
    LoopAgree ver es (refSeed ver es len inp out) (refSeed ver es len inp' out') := by
  have hout : AgreeBelow (0 * es) out out' := by rw [Nat.zero_mul]; exact AgreeBelow.zero _ _
  obtain ⟨hver, hsize⟩ | ⟨hver, hsize⟩ := tailSize_cases ver es
  · refine ⟨rfl, rfl, ?_, fun hne => absurd hver hne, hout⟩
    rw [refSeed, refSeed, hinp.take (a := len - tailSize ver es) (k := es) (by omega)]
    exact AgreeBelow.refl _ _
  · refine ⟨rfl, rfl, ?_, fun _ => ?_, hout⟩
    · rw [refSeed, refSeed, hinp.take (a := len - tailSize ver es) (k := es) (by omega)]
      exact AgreeBelow.refl _ _
    · rw [refSeed, refSeed, hinp.take (a := len - tailSize ver es + es) (k := es / 4) (by omega)]
      exact AgreeBelow.refl _ _

theorem refAfterHeader_congr (params : Params) (cnt : Nat) {es len : Nat} (hes : legalElemSize es = true)
    (ver : BitVec 1) {inp inp' : Bytes} (hinp : AgreeBelow len inp inp') (out out' : Bytes) :
    SameResult es (refAfterHeader params cnt es len ver inp out) (refAfterHeader params cnt es len ver inp' out') := by
  have hle := tailSize_le_padded ver es
  unfold refAfterHeader
  split
  case isTrue => exact ⟨rfl, rfl, rfl, rfl, by rw [Nat.zero_mul]; exact AgreeBelow.zero _ _⟩
  case isFalse hfit =>
    exact refBlocks_congr hinp params.rotShift cnt hes _ _ (refSeed_congr hinp (by omega) out out')

/-- An end before any element is committed, which says nothing of the output. -/
theorem sameResult_of_none_done (es : Nat) (reason : Option Reason) (ver : BitVec 1) (p : Nat) (out out' : Bytes) :
    SameResult es { reason := reason, version := ver, inPos := p, elemDone := 0, out := out }
      { reason := reason, version := ver, inPos := p, elemDone := 0, out := out' } :=
  ⟨rfl, rfl, rfl, rfl, by rw [Nat.zero_mul]; exact AgreeBelow.zero _ _⟩

theorem refAfterCheck_congr (params : Params) (cnt : Nat) {es len : Nat} (hes : legalElemSize es = true)
    {inp inp' : Bytes} (hinp : AgreeBelow len inp inp') (out out' : Bytes) :
    SameResult es (refAfterCheck params cnt es len inp out) (refAfterCheck params cnt es len inp' out') := by
  unfold refAfterCheck
  split
  case isTrue => exact sameResult_of_none_done _ _ _ _ _ _
  case isFalse hlen =>
    rw [hinp 0 (by omega)]
    split
    case isTrue => exact sameResult_of_none_done _ _ _ _ _ _
    case isFalse =>
      split
      case isTrue => exact sameResult_of_none_done _ _ _ _ _ _
      case isFalse => exact refAfterHeader_congr params cnt hes _ hinp out out'

/-- DECODE's end depends on the parameters, the configuration and the input below `len` alone (R46). -/
theorem decodeBuffer_congr (params : Params) (cnt : Nat) {es len : Nat} {inp inp' : Bytes}
    (hinp : AgreeBelow len inp inp') (out out' : Bytes) :
    SameResult es (decodeBuffer params cnt es len inp out) (decodeBuffer params cnt es len inp' out') := by
  rw [decodeBuffer_eq, decodeBuffer_eq]
  split
  case isTrue => exact sameResult_of_none_done _ _ _ _ _ _
  case isFalse hes =>
    split
    case isTrue => exact sameResult_of_none_done _ _ _ _ _ _
    case isFalse =>
      split
      case isTrue => exact sameResult_of_none_done _ _ _ _ _ _
      case isFalse =>
        exact refAfterCheck_congr params cnt ((legalElemSize_iff es).mpr (not_not.mp hes)) hinp out out'

end Sys2Proof.Machine
end

section
/-!
PROOFS. The engine against the reference function (R176): at every stage, what DECODE has left to do from the state's own
bytes ends as the whole decode does, and every engine step keeps that. So the end the engine reaches is DECODE's, and two
decodes of the same input end alike (R46).
-/

namespace Sys2Proof.Machine

/-! ## What DECODE has left to do -/

/-- The block loop from a scratch on, on the state's input and configuration. -/
def State.refLoop (s : State) (fuel : Nat) (m : Scratch) : DecodeResult :=
  refBlocks (s.peek .inp) s.params.rotShift s.len.toNat s.cnt.toNat s.ver s.es.toNat s.tp.toNat fuel m

/-- The block loop after the block under way. -/
def State.refLoopAfter (s : State) (fuel : Nat) (run : RefRun Scratch) : DecodeResult :=
  refAfterBlock (s.peek .inp) s.params.rotShift s.len.toNat s.cnt.toNat s.ver s.es.toNat s.tp.toNat fuel s.scratch run

/-- The block from its `k`-th component group on. -/
def State.groupsFrom (s : State) (k : Nat) (m : Scratch) : RefRun Scratch :=
  refComponents (s.peek .inp) s.params.rotShift s.len.toNat s.ver s.es.toNat s.blk.toNat k (s.es.toNat / 4 - k) m >>=
    fun m => .ok (refCommit s.es.toNat s.blk.toNat m)

/-- The block from the delta of the current component group on. -/
def State.deltaAhead (s : State) (m : Scratch) : RefRun Scratch :=
  refDelta s.params.rotShift s.ver s.es.toNat s.blk.toNat s.g.toNat m >>= s.groupsFrom (s.g.toNat / 4 + 1)

/-- The block from plane `j` of the current component group on. -/
def State.planesFrom (s : State) (j : Nat) (m : Scratch) : RefRun Scratch :=
  refPlanes (s.peek .inp) s.len.toNat s.ver s.blk.toNat s.g.toNat j (4 - j) m >>= s.deltaAhead

/-- A decode's end in the registers and in OUT, as DECODE gives it (R175, R202). -/
structure State.EndsAs (s : State) (r : DecodeResult) : Prop where
  status : s.status = Status.ended r.reason r.version
  inPos : s.inPos.toNat = r.inPos
  elemDone : s.elemDone.toNat = r.elemDone
  all : r.reason = none → r.elemDone = s.cnt.toNat
  out : r.reason = none → AgreeBelow (s.cnt.toNat * s.es.toNat) (s.peek .out) r.out

/-- What DECODE has left to do from the state on ends as `r`; in IDLE, the state shows that end. The fuel is enough for
the elements left. -/
inductive State.Ahead (s : State) (r : DecodeResult) : Prop
  | check (hst : s.st = .check) (h : SameResult s.es.toNat
      (decodeBuffer s.params s.cnt.toNat s.es.toNat s.len.toNat (s.peek .inp) (s.peek .out)) r)
  | hdr (hst : s.st = .hdr) (h : SameResult s.es.toNat
      (refAfterCheck s.params s.cnt.toNat s.es.toNat s.len.toNat (s.peek .inp) (s.peek .out)) r)
  | tail (hst : s.st = .tail) (h : SameResult s.es.toNat
      (refAfterHeader s.params s.cnt.toNat s.es.toNat s.len.toNat s.ver (s.peek .inp) (s.peek .out)) r)
  | loop (hst : s.st = .blk ∨ s.st = .final) (fuel : Nat) (hfuel : s.cnt.toNat ≤ s.done.toNat + fuel)
      (h : SameResult s.es.toNat (s.refLoop fuel s.scratch) r)
  | plane (hst : s.st = .plane) (fuel : Nat) (hfuel : s.cnt.toNat ≤ s.done.toNat + s.blk.toNat + fuel)
      (h : SameResult s.es.toNat (s.refLoopAfter fuel (s.planesFrom s.j.toNat s.scratch)) r)
  | delta (hst : s.st = .delta) (fuel : Nat) (hfuel : s.cnt.toNat ≤ s.done.toNat + s.blk.toNat + fuel)
      (h : SameResult s.es.toNat (s.refLoopAfter fuel (s.deltaAhead s.scratch)) r)
  | commit (hst : s.st = .commit) (fuel : Nat) (hfuel : s.cnt.toNat ≤ s.done.toNat + s.blk.toNat + fuel)
      (h : SameResult s.es.toNat (s.refLoop fuel (refCommit s.es.toNat s.blk.toNat s.scratch)) r)
  | idle (hst : s.st = .idle) (h : s.EndsAs r)

/-! ## Ends of a decode -/

/-- An error of a decode the host left alone ends it as DECODE's error with the same record does. -/
theorem State.endsAs_error {u : State} (hobeyed : u.spoiled = false) {reason : Reason} {ver : BitVec 1} {p d : Nat}
    {out : Bytes} {es : Nat} {r : DecodeResult} (hver : u.status.version = ver) (hpos : u.pos.toNat = p)
    (hdone : u.done.toNat = d)
    (h : SameResult es { reason := some reason, version := ver, inPos := p, elemDone := d, out := out } r) :
    (u.endDecode (some reason)).Ahead r := by
  obtain ⟨hinPos, hstatus⟩ := State.endDecode_error_record hobeyed reason
  have helemDone := State.endDecode_error_elemDone hobeyed reason
  have hfails : ¬ r.reason = none := fun hnone => Option.some_ne_none reason (h.reason.trans hnone)
  refine .idle (State.endDecode_st _ u) ⟨?_, ?_, ?_, fun hnone => absurd hnone hfails, fun hnone => absurd hnone hfails⟩
  · rw [hstatus, hver, ← h.reason, ← h.version]
  · rw [hinPos, hpos]
    exact h.inPos
  · rw [helemDone, hdone]
    exact h.elemDone

/-! ## CHECK, HDR and TAIL -/

theorem exec_check_ahead {s : State} (h : s.Inv) (hst : s.st = .check) (hobeyed : s.spoiled = false) {r : DecodeResult}
    (hahead : SameResult s.es.toNat
      (decodeBuffer s.params s.cnt.toNat s.es.toNat s.len.toNat (s.peek .inp) (s.peek .out)) r) :
    ∃ t, exec .start s = .next t ∧ t.Ahead r := by
  obtain ⟨hstatus, hpos, hdone⟩ := h.check_ok hst
  have hends : ∀ reason, SameResult s.es.toNat
      { reason := some reason, version := 0, inPos := 0, elemDone := 0, out := s.peek .out } r →
        (s.endDecode (some reason)).Ahead r :=
    fun reason => State.endsAs_error hobeyed (by rw [hstatus]; rfl) (by rw [hpos]; rfl) (by rw [hdone]; rfl)
  rw [exec_start_check (by rw [hstatus]; rfl) hst, usageCheck]
  rw [decodeBuffer_eq] at hahead
  simp only [← legalElemSize_iff] at hahead
  split
  case isTrue hes =>
    rw [if_pos hes] at hahead
    exact ⟨_, rfl, hends _ hahead⟩
  case isFalse hes =>
    rw [if_neg hes] at hahead
    split
    case isTrue hlen =>
      rw [if_pos hlen] at hahead
      exact ⟨_, rfl, hends _ hahead⟩
    case isFalse hlen =>
      rw [if_neg hlen] at hahead
      split
      case isTrue hout =>
        rw [if_pos hout] at hahead
        exact ⟨_, rfl, hends _ hahead⟩
      case isFalse hout =>
        rw [if_neg hout] at hahead
        exact ⟨_, rfl, .hdr rfl hahead⟩

theorem exec_hdr_ahead {s : State} (h : s.Inv) (hst : s.st = .hdr) (hobeyed : s.spoiled = false) {r : DecodeResult}
    (hahead : SameResult s.es.toNat
      (refAfterCheck s.params s.cnt.toNat s.es.toNat s.len.toNat (s.peek .inp) (s.peek .out)) r) :
    ∃ t, exec .hdr s = .next t ∧ t.Ahead r := by
  obtain ⟨hconfig, hstatus, hpos, hdone⟩ := h.hdr_ok hst
  have hends : ∀ reason, SameResult s.es.toNat
      { reason := some reason, version := 0, inPos := 0, elemDone := 0, out := s.peek .out } r →
        (s.endDecode (some reason)).Ahead r :=
    fun reason => State.endsAs_error hobeyed (by rw [hstatus]; rfl) (by rw [hpos]; rfl) (by rw [hdone]; rfl)
  have hstep := headerStepChecksInOrder s hconfig.inLen
  dsimp only at hstep
  rw [refAfterCheck] at hahead
  split at hstep
  case isTrue hlen =>
    rw [if_pos hlen] at hahead
    exact ⟨_, hstep, hends _ hahead⟩
  case isFalse hlen =>
    rw [if_neg hlen] at hahead
    split at hstep
    case isTrue hmagic =>
      rw [if_pos hmagic] at hahead
      exact ⟨_, hstep, hends _ hahead⟩
    case isFalse hmagic =>
      rw [if_neg hmagic] at hahead
      split at hstep
      case isTrue hversion =>
        rw [if_pos hversion] at hahead
        exact ⟨_, hstep, hends _ hahead⟩
      case isFalse hversion =>
        rw [if_neg hversion] at hahead
        exact ⟨_, hstep, .tail rfl hahead⟩

/-- A run of bytes put at 0 makes any two arrays agree below its length. -/
theorem AgreeBelow.put_take_zero (m m' inp : Bytes) (a n : Nat) :
    AgreeBelow n (Bytes.put m 0 (Bytes.take inp a n)) (Bytes.put m' 0 (Bytes.take inp a n)) := by
  intro k hk
  rw [Bytes.put_take_zero, Bytes.put_take_zero, if_pos hk, if_pos hk]

/-- After TAIL, LAST and CHAN hold the reference function's seed and channel table. -/
theorem afterTail_scratch_agree {s : State} (hpos : s.pos = 1) :
    LoopAgree s.ver s.es.toNat (afterTail s).scratch
      (refSeed s.ver s.es.toNat s.len.toNat (s.peek .inp) (s.peek .out)) := by
  have hpos1 : s.pos.toNat = 1 := by rw [hpos]; rfl
  have hlast : (afterTail s).scratch.last = _ := afterTail_peek_last s
  refine ⟨hpos1, rfl, ?_, fun hver => ?_, AgreeBelow.refl _ _⟩
  · rw [hlast]
    exact AgreeBelow.put_take_zero _ _ _ _ _
  · have hchan : (afterTail s).scratch.chan = _ := afterTail_peek_chan hver
    have hseed : (refSeed s.ver s.es.toNat s.len.toNat (s.peek .inp) (s.peek .out)).chan = _ := if_neg hver
    rw [hchan, hseed]
    exact AgreeBelow.put_take_zero _ _ _ _ _

theorem exec_tail_ahead {s : State} (h : s.Inv) (hst : s.st = .tail) (hobeyed : s.spoiled = false) {r : DecodeResult}
    (hahead : SameResult s.es.toNat
      (refAfterHeader s.params s.cnt.toNat s.es.toNat s.len.toNat s.ver (s.peek .inp) (s.peek .out)) r) :
    ∃ t, exec .tail s = .next t ∧ t.Ahead r := by
  obtain ⟨hconfig, hstatus, hpos, hdone, -⟩ := h.tail_ok hst
  obtain ⟨-, hes, -⟩ := (legalElemSize_iff _).mp hconfig.elemSize
  have hpos1 : s.pos.toNat = 1 := by rw [hpos]; rfl
  have hstage : (afterTail s).st = .blk ∨ (afterTail s).st = .final := by
    change (if 0 < s.cnt.toNat then Stage.blk else .final) = _ ∨ (if 0 < s.cnt.toNat then Stage.blk else .final) = _
    split
    · exact .inl rfl
    · exact .inr rfl
  rw [refAfterHeader, ← hpos1] at hahead
  by_cases hshort : s.len.toNat < s.pos.toNat + tailPadded s.ver s.es.toNat
  · rw [if_pos hshort] at hahead
    refine ⟨_, exec_tail_short hes hshort, State.endsAs_error (u := tailSizes s) hobeyed ?_ rfl ?_ hahead⟩
    · rw [tailSizes_status, hstatus]
    · rw [tailSizes_done, hdone]
      rfl
  · rw [if_neg hshort] at hahead
    refine ⟨_, exec_tail_eq hes hconfig.inLen (Nat.le_of_not_lt hshort), .loop hstage s.cnt.toNat (Nat.le_add_left _ _) ?_⟩
    have htp : (afterTail s).tp.toNat = tailPadded s.ver s.es.toNat := tailSizes_tp_toNat hes
    rw [State.refLoop, htp]
    exact (refBlocks_congr (AgreeBelow.refl _ (s.peek .inp)) s.params.rotShift s.cnt.toNat hconfig.elemSize
      (tailPadded s.ver s.es.toNat) s.cnt.toNat (afterTail_scratch_agree hpos)).trans hahead

/-! ## BLK -/

/-- The block from the first plane of a component group on. -/
theorem State.planesFrom_zero {s : State} (hg : s.g.toNat % 4 = 0) (hwithin : s.g.toNat + 4 ≤ s.es.toNat) (m : Scratch) :
    s.planesFrom 0 m = s.groupsFrom (s.g.toNat / 4) m := by
  have hgroup : 4 * (s.g.toNat / 4) = s.g.toNat := by omega
  have hleft : s.es.toNat / 4 - s.g.toNat / 4 = s.es.toNat / 4 - (s.g.toNat / 4 + 1) + 1 := by omega
  rw [State.groupsFrom, hleft, refComponents, refComponent_eq, hgroup]
  simp only [State.planesFrom, bind_assoc]
  rfl

/-- After BLK the arrays agree with the reference function's, whose control region stays unread in version 0. -/
theorem afterBlk_scratch_agree {s : State} (hleft : ¬ (s.ver = 1 ∧ s.len.toNat < s.pos.toNat + s.es.toNat / 4))
    (b : Nat) : SameRun (BlockAgree s.ver s.es.toNat b 0 0) (.ok (afterBlk s).scratch)
      (refControl (s.peek .inp) s.len.toNat s.ver s.es.toNat s.scratch) := by
  have hpos := afterBlk_pos_toNat hleft
  have hres : AgreeBelow (0 * b) (s.peek .res) (s.peek .res) := AgreeBelow.refl _ _
  have htr : ∀ i < b, ∀ x < 0, s.peek .tr (i * s.es.toNat + x) = s.peek .tr (i * s.es.toNat + x) := fun _ _ _ _ => rfl
  unfold refControl
  split
  case isTrue hver =>
    rw [if_pos hver] at hpos
    exact ⟨⟨hpos, rfl, AgreeBelow.refl _ _, fun _ => AgreeBelow.refl _ _, AgreeBelow.refl _ _⟩,
      fun hne => absurd hver hne, hres, htr⟩
  case isFalse hver =>
    have hlen : ¬ s.len.toNat < s.scratch.pos + s.es.toNat / 4 := fun hshort => hleft ⟨by bv_omega, hshort⟩
    rw [if_neg hver] at hpos
    rw [if_neg hlen]
    refine ⟨⟨hpos, rfl, AgreeBelow.refl _ _, fun _ => AgreeBelow.refl _ _, AgreeBelow.refl _ _⟩, fun _ q hq => ?_,
      hres, htr⟩
    change (afterBlk s).peek .ctl q = Bytes.put (s.peek .ctl) 0 (Bytes.take (s.peek .inp) s.pos.toNat (s.es.toNat / 4)) q
    rw [peek_afterBlk_inside s hq, if_neg hver, Bytes.put_take_zero, if_pos hq]

theorem exec_blk_ahead {s : State} (h : s.Inv) (hst : s.st = .blk) (hobeyed : s.spoiled = false) {fuel : Nat}
    (hfuel : s.cnt.toNat ≤ s.done.toNat + fuel) {r : DecodeResult}
    (hahead : SameResult s.es.toNat (s.refLoop fuel s.scratch) r) : ∃ t, exec .blk s = .next t ∧ t.Ahead r := by
  obtain ⟨hloop, hnotDone, hwhole⟩ := h.blk_ok hst
  obtain ⟨hmin, hes, -⟩ := (legalElemSize_iff _).mp hloop.elemSize
  obtain ⟨fuel, rfl⟩ : ∃ n, fuel = n + 1 := ⟨fuel - 1, by omega⟩
  rw [State.refLoop, refBlocks_of_left (show s.scratch.done < s.cnt.toNat from hnotDone), refBlock_eq] at hahead
  by_cases hshort : s.ver = 1 ∧ s.len.toNat < s.pos.toNat + s.es.toNat / 4
  · obtain ⟨hver, hlen⟩ := hshort
    have hver0 : s.ver ≠ 0 := by rw [hver]; decide
    have hcontrol : refControl (s.peek .inp) s.len.toNat s.ver s.es.toNat s.scratch = .error (.truncControl, s.pos.toNat) :=
      (if_neg hver0).trans (if_pos hlen)
    rw [hcontrol] at hahead
    refine ⟨_, exec_blk_short hver hlen, State.endsAs_error (u := blockSizes s) hobeyed ?_ rfl rfl hahead⟩
    rw [blockSizes_status, hloop.status]
  · have hblock := blockOk_afterBlk hloop hnotDone hwhole hshort
    have hbounds := hblock.bounds
    have hblk : (afterBlk s).blk.toNat = min (blockCap s.es.toNat) (s.cnt.toNat - s.done.toNat) := by
      rw [← hloop.capIs]
      exact hblock.blkIs
    have hfew := hbounds.some
    have hinp := AgreeBelow.refl s.len.toNat (s.peek .inp)
    have hrun : SameRun (LoopAgree s.ver s.es.toNat) ((afterBlk s).planesFrom 0 (afterBlk s).scratch)
        (refControl (s.peek .inp) s.len.toNat s.ver s.es.toNat s.scratch >>= fun m =>
          refComponents (s.peek .inp) s.params.rotShift s.len.toNat s.ver s.es.toNat (afterBlk s).blk.toNat 0
            (s.es.toNat / 4) m >>= fun m => .ok (refCommit s.es.toNat (afterBlk s).blk.toNat m)) := by
      rw [State.planesFrom_zero (s := afterBlk s) rfl hmin]
      refine (afterBlk_scratch_agree hshort (afterBlk s).blk.toNat).bind_ok fun _ _ hagree => ?_
      have hfirst : (afterBlk s).g.toNat = 0 := rfl
      rw [hfirst, Nat.zero_div, State.groupsFrom, Nat.sub_zero]
      exact refGroupsToCommit_congr hinp s.params.rotShift hloop.elemSize hfew hagree
    refine ⟨_, exec_blk_eq hes hloop.inLen hshort, .plane rfl fuel ?_ ?_⟩
    · change s.cnt.toNat ≤ s.done.toNat + (afterBlk s).blk.toNat + fuel
      omega
    · rw [hblk] at hrun
      exact (refAfterBlock_congr (refBlocks_congr hinp s.params.rotShift s.cnt.toNat hloop.elemSize s.tp.toNat fuel)
        (m := (afterBlk s).scratch) (m' := s.scratch) rfl (AgreeBelow.refl _ _) hrun).trans hahead

/-! ## PLANE, DELTA and COMMIT -/

/-- The planes from `j` on are plane `j` and the rest. -/
theorem State.planesFrom_succ (s : State) {j : Nat} (hj : j < 4) (m : Scratch) :
    s.planesFrom j m = refPlane (s.peek .inp) s.len.toNat s.ver s.blk.toNat s.g.toNat j m >>= s.planesFrom (j + 1) := by
  have hleft : 4 - j = 4 - (j + 1) + 1 := by omega
  rw [State.planesFrom, hleft, refPlanes]
  simp only [bind_assoc]
  rfl

theorem exec_plane_ahead {s : State} (h : s.Inv) (hst : s.st = .plane) (hobeyed : s.spoiled = false) {fuel : Nat}
    (hfuel : s.cnt.toNat ≤ s.done.toNat + s.blk.toNat + fuel) {r : DecodeResult}
    (hahead : SameResult s.es.toNat (s.refLoopAfter fuel (s.planesFrom s.j.toNat s.scratch)) r) :
    ∃ t, exec .plane s = .next t ∧ t.Ahead r := by
  have hgroup := h.groupOk_of_plane hst
  have hmatches := plane_matches hgroup.planeFits
  rw [s.planesFrom_succ s.j.isLt] at hahead
  rcases href : refPlane (s.peek .inp) s.len.toNat s.ver s.blk.toNat s.g.toNat s.j.toNat s.scratch with ⟨e, p⟩ | m
  all_goals rw [href] at hmatches hahead
  · obtain ⟨grp, hrun, hfails⟩ := hmatches
    have hpos : (BitVec.ofNat 32 p).toNat = p := cursor_toNat hfails.within
    refine ⟨_, exec_plane_of_raised hrun,
      State.endsAs_error (u := { s with grp := grp, pos := BitVec.ofNat 32 p }) hobeyed ?_ hpos rfl hahead⟩
    change s.status.version = s.ver
    rw [hgroup.status]
  · obtain ⟨bs, grp, p, hrun, hok, hm⟩ := hmatches
    rw [← scratch_afterSource hok] at hm
    subst hm
    refine ⟨_, exec_plane_of_ok hrun, ?_⟩
    by_cases hj : s.j.toNat < 3
    · rw [nextPlane_of_lt (s := afterSource s bs grp p) hj]
      refine .plane rfl fuel hfuel ?_
      change SameResult s.es.toNat (s.refLoopAfter fuel (s.planesFrom (s.j + 1).toNat (afterSource s bs grp p).scratch)) r
      rw [plane_succ_toNat hj]
      exact hahead
    · have hj3 : s.j.toNat + 1 = 4 := by have := s.j.isLt; omega
      rw [nextPlane_of_last (s := afterSource s bs grp p) hj]
      rw [hj3] at hahead
      exact .delta rfl fuel hfuel hahead

/-- The planes of the next component group are what the block has left after this one. -/
theorem State.planesFrom_nextGroup {s : State} (h : s.GroupOk) (hlt : s.g.toNat + 4 < s.es.toNat) (m : Scratch) :
    (nextGroup s).planesFrom 0 m = s.groupsFrom (s.g.toNat / 4 + 1) m := by
  obtain ⟨hg, hwithin⟩ := group_succ_toNat h hlt
  have haligned := h.groupAligned
  have hnext : (s.g + 4).toNat / 4 = s.g.toNat / 4 + 1 := by omega
  rw [nextGroup_of_lt hlt, State.planesFrom_zero (s := { s with g := s.g + 4, j := 0, st := .plane })
    (show (s.g + 4).toNat % 4 = 0 by omega) (show (s.g + 4).toNat + 4 ≤ s.es.toNat by omega), ← hnext]
  rfl

/-- After the last component group the commit is next. -/
theorem State.groupsFrom_last (s : State) (hlt : ¬ s.g.toNat + 4 < s.es.toNat) (m : Scratch) :
    s.groupsFrom (s.g.toNat / 4 + 1) m = .ok (refCommit s.es.toNat s.blk.toNat m) := by
  have hlast : s.es.toNat / 4 - (s.g.toNat / 4 + 1) = 0 := by omega
  rw [State.groupsFrom, hlast]
  rfl

theorem exec_delta_ahead {s : State} (h : s.Inv) (hst : s.st = .delta) (hobeyed : s.spoiled = false) {fuel : Nat}
    (hfuel : s.cnt.toNat ≤ s.done.toNat + s.blk.toNat + fuel) {r : DecodeResult}
    (hahead : SameResult s.es.toNat (s.refLoopAfter fuel (s.deltaAhead s.scratch)) r) :
    ∃ t, exec .delta s = .next t ∧ t.Ahead r := by
  have hgroup := (h.delta_ok hst).1
  have hmatches := delta_matches hgroup.deltaFits
  rw [State.deltaAhead] at hahead
  rcases href : refDelta s.params.rotShift s.ver s.es.toNat s.blk.toNat s.g.toNat s.scratch with ⟨e, p⟩ | m
  all_goals rw [href] at hmatches hahead
  · obtain ⟨hrun, rfl, rfl⟩ := hmatches
    exact ⟨_, exec_delta_of_raise hrun, State.endsAs_error hobeyed (by rw [hgroup.status]) rfl rfl hahead⟩
  · obtain ⟨tr, hrun, -, -, rfl⟩ := hmatches
    replace hahead : SameResult s.es.toNat
      (s.refLoopAfter fuel (s.groupsFrom (s.g.toNat / 4 + 1) (s.setMem .tr tr).scratch)) r := hahead
    refine ⟨_, exec_delta_of_ok hrun, ?_⟩
    by_cases hlt : s.g.toNat + 4 < s.es.toNat
    · have hplanes := State.planesFrom_nextGroup (groupOk_setTr hgroup tr) hlt (s.setMem .tr tr).scratch
      rw [nextGroup_of_lt (s := s.setMem .tr tr) hlt] at hplanes ⊢
      exact .plane rfl fuel hfuel
        ((congrArg (fun run => SameResult s.es.toNat (s.refLoopAfter fuel run) r) hplanes).mpr hahead)
    · rw [s.groupsFrom_last hlt] at hahead
      rw [nextGroup_of_last (s := s.setMem .tr tr) hlt]
      exact .commit rfl fuel hfuel hahead

/-- COMMIT changes the scratch as the reference function's commit. -/
theorem afterCommit_scratch {s : State} (h : s.BlockOk) :
    (afterCommit s).scratch = refCommit s.es.toNat s.blk.toNat s.scratch := by
  have hdone := h.afterCommit_done
  have hout : (afterCommit s).peek .out = Bytes.put (s.peek .out) (s.done.toNat * s.es.toNat)
      (Bytes.take (s.peek .tr) 0 (s.blk.toNat * s.es.toNat)) := s.peek_write .out _ _
  have hlast : (afterCommit s).peek .last = Bytes.put (s.peek .last) 0
      (Bytes.take (s.peek .tr) ((s.blk.toNat - 1) * s.es.toNat) s.es.toNat) := s.peek_write .last _ _
  rw [State.scratch, hdone, hout, hlast]
  rfl

theorem exec_commit_ahead {s : State} (h : s.Inv) (hst : s.st = .commit) {fuel : Nat}
    (hfuel : s.cnt.toNat ≤ s.done.toNat + s.blk.toNat + fuel) {r : DecodeResult}
    (hahead : SameResult s.es.toNat (s.refLoop fuel (refCommit s.es.toNat s.blk.toNat s.scratch)) r) :
    ∃ t, exec .commit s = .next t ∧ t.Ahead r := by
  have hblock := h.commit_ok hst
  have hstage : (afterCommit s).st = .blk ∨ (afterCommit s).st = .final := by
    rw [afterCommit_st]
    split
    · exact .inl rfl
    · exact .inr rfl
  rw [← afterCommit_scratch hblock] at hahead
  refine ⟨_, hblock.exec_commit, .loop hstage fuel ?_ hahead⟩
  rw [hblock.afterCommit_done]
  exact hfuel

/-! ## FINAL -/

theorem exec_final_ahead {s : State} (h : s.Inv) (hst : s.st = .final) (hobeyed : s.spoiled = false) {fuel : Nat}
    {r : DecodeResult} (hahead : SameResult s.es.toNat (s.refLoop fuel s.scratch) r) :
    ∃ t, exec .final s = .next t ∧ t.Ahead r := by
  obtain ⟨hloop, hall⟩ := h.final_ok hst
  have hdone : ¬ s.scratch.done < s.cnt.toNat := by
    change ¬ s.done.toNat < s.cnt.toNat
    rw [hall]
    exact lt_irrefl _
  rw [State.refLoop, refBlocks_of_done hdone] at hahead
  have hpos : s.scratch.pos = s.pos.toNat := rfl
  rw [refFinal, hpos] at hahead
  by_cases hlen : s.len.toNat = s.pos.toNat + s.tp.toNat
  · rw [if_neg (not_not_intro hlen)] at hahead
    have hend : s.endDecode none = s.endOk := State.endDecode_of_obeyed hobeyed none
    have hcnt : r.elemDone = s.cnt.toNat := hahead.elemDone.symm.trans (congrArg BitVec.toNat hall)
    refine ⟨_, exec_final_eq hlen, .idle (State.endDecode_st none s) ?_⟩
    rw [hend]
    refine ⟨?_, hahead.inPos, hahead.elemDone, fun _ => hcnt, fun _ => ?_⟩
    · rw [← hahead.reason, ← hahead.version]
      rfl
    · change AgreeBelow (s.cnt.toNat * s.es.toNat) (s.peek .out) r.out
      rw [← hcnt, ← hahead.elemDone]
      exact hahead.out
  · rw [if_pos hlen] at hahead
    exact ⟨_, exec_final_mismatch hlen, State.endsAs_error hobeyed (by rw [hloop.status]) rfl rfl hahead⟩

/-! ## Every step, and the run -/

/-- In IDLE nothing is left to do. -/
theorem State.Ahead.endsAs {s : State} {r : DecodeResult} (h : s.Ahead r) (hidle : s.st = .idle) : s.EndsAs r := by
  cases h
  case idle hst hend => exact hend
  case check hst _ | hdr hst _ | tail hst _ => cases hidle.symm.trans hst
  case plane hst _ _ _ | delta hst _ _ _ | commit hst _ _ _ => cases hidle.symm.trans hst
  case loop hst _ _ _ =>
    obtain hst | hst := hst
    all_goals cases hidle.symm.trans hst

/-- An engine step takes what DECODE has left one step further. -/
theorem State.Inv.engineStep_ahead {s : State} (h : s.Inv) (hst : s.st ≠ .idle) (hobeyed : s.spoiled = false)
    {r : DecodeResult} (hahead : s.Ahead r) : ∃ t, engineStep s = .next t ∧ t.Ahead r := by
  have hstage : ∀ st, s.st = st → engineStep s = exec (stageRow st) s :=
    fun st hs => engineStep_stage hs (hs ▸ hst)
  cases hahead
  case check hs h' => exact hstage _ hs ▸ exec_check_ahead h hs hobeyed h'
  case hdr hs h' => exact hstage _ hs ▸ exec_hdr_ahead h hs hobeyed h'
  case tail hs h' => exact hstage _ hs ▸ exec_tail_ahead h hs hobeyed h'
  case loop hs fuel hfuel h' =>
    obtain hs | hs := hs
    · exact hstage _ hs ▸ exec_blk_ahead h hs hobeyed hfuel h'
    · exact hstage _ hs ▸ exec_final_ahead h hs hobeyed h'
  case plane hs fuel hfuel h' => exact hstage _ hs ▸ exec_plane_ahead h hs hobeyed hfuel h'
  case delta hs fuel hfuel h' => exact hstage _ hs ▸ exec_delta_ahead h hs hobeyed hfuel h'
  case commit hs fuel hfuel h' => exact hstage _ hs ▸ exec_commit_ahead h hs hfuel h'
  case idle hs h' => exact absurd hs hst

/-- What no move of the engine changes: parameters, configuration, turns and the hazard's note. -/
def State.keptPart (s : State) : (Params × Word × Word × Word) × List Turn × Bool := (s.configPart, s.turns, s.spoiled)

theorem EngineMove.kept {s t : State} (hmove : EngineMove s t) : t.keptPart = s.keptPart := by
  cases hmove
  case plane bs grp p hok => exact (congrArg State.keptPart (nextPlane_frame (afterSource s bs grp p)) :)
  case delta tr hkept => exact (congrArg State.keptPart (nextGroup_frame (s.setMem .tr tr)) :)
  case ends r u hu =>
    have hend : (u.endDecode r).keptPart = u.keptPart := (congrArg State.keptPart (State.endDecode_frame r u) :)
    exact hend.trans (congrArg State.keptPart hu.frame :)
  all_goals rfl

/-- Where a decode has got when its bound on the steps left has passed: to its end `r`, with OUT beyond `cnt·es` and the
configuration as they were. -/
structure ReachesEnd (s : State) (r : DecodeResult) (t : State) : Prop where
  idle : t.st = .idle
  ends : t.EndsAs r
  config : t.configPart = s.configPart
  beyond : ∀ a, s.cnt.toNat * s.es.toNat ≤ a → t.peek .out a = s.peek .out a

/-- In IDLE with no turn listed nothing moves. -/
theorem run_idle {s : State} (hst : s.st = .idle) (hturns : s.turns = []) (n : Nat) :
    Host.Core.run core n s = .next s := by
  induction n with
  | zero => exact run_zero s
  | succ n ih => rw [run_succ ((step_engine hturns).trans (engineStep_idle hst)), ih]

/-- With no turn listed and the input left alone, a decode under way has reached its end when its bound on the steps
left has passed. -/
theorem State.Inv.run_ahead {r : DecodeResult} {n : Nat} : ∀ {s : State}, s.Inv → s.turns = [] → s.spoiled = false →
    s.Ahead r → s.stepsLeft ≤ n → ∃ t, Host.Core.run core n s = .next t ∧ ReachesEnd s r t := by
  have hended : ∀ {s : State}, s.st = .idle → s.turns = [] → s.Ahead r → ∀ n,
      ∃ t, Host.Core.run core n s = .next t ∧ ReachesEnd s r t :=
    fun hidle hturns hahead n => ⟨_, run_idle hidle hturns n, hidle, hahead.endsAs hidle, rfl, fun _ _ => rfl⟩
  induction n with
  | zero =>
    intro s h hturns _ hahead hle
    by_cases hidle : s.st = .idle
    · exact hended hidle hturns hahead 0
    · exact absurd (State.stepsLeft_pos hidle) (Nat.not_lt.mpr hle)
  | succ n ih =>
    intro s h hturns hobeyed hahead hle
    by_cases hidle : s.st = .idle
    · exact hended hidle hturns hahead (n + 1)
    · obtain ⟨u, hstep, hu⟩ := h.engineStep_ahead hidle hobeyed hahead
      have hmove := h.move_of_engineStep hidle hstep
      have hlt := hmove.stepsLeft_lt h
      have hkept := hmove.kept
      have hcore : step s = .next u := (step_engine hturns).trans hstep
      obtain ⟨hout, -, -⟩ := engineWritesOutOnlyInside s u h hturns hcore
      simp only [State.keptPart, Prod.mk.injEq] at hkept
      obtain ⟨hconfig, huturns, huspoiled⟩ := hkept
      obtain ⟨t, hrun, hidle', hends, hconfig', hbeyond⟩ := ih (hmove.inv h) (huturns.trans hturns)
        (huspoiled.trans hobeyed) hu (by omega)
      refine ⟨t, (run_succ hcore n).trans hrun, hidle', hends, hconfig'.trans hconfig, fun a ha => ?_⟩
      simp only [State.configPart, Prod.mk.injEq] at hconfig
      obtain ⟨-, hcnt, hes, -⟩ := hconfig
      rw [hbeyond a (by rwa [hcnt, hes]), hout a ha]

/-- A launched decode reaches DECODE's end within the bound, and stays there. -/
theorem State.Launched.run {s : State} (h : s.Inv) (hlaunched : s.Launched) :
    ∃ t, Host.Core.run core (decodeSteps s.cnt.toNat s.es.toNat) s = .next t ∧ ReachesEnd s
      (decodeBuffer s.params s.cnt.toNat s.es.toNat s.len.toNat (s.peek .inp) (s.peek .out)) t := by
  have hbound : s.stepsLeft ≤ decodeSteps s.cnt.toNat s.es.toNat := by
    simp only [State.stepsLeft, hlaunched.stage, le_refl]
  exact h.run_ahead hlaunched.noTurns hlaunched.obeyed (.check hlaunched.stage (SameResult.refl _ _)) hbound

/-! ## The statements -/

/-- ERR is 0 after a success alone. -/
theorem Status.ended_of_err_false {r : Option Reason} {v : BitVec 1} (h : (Status.ended r v).err = false) : r = none := by
  cases r
  case none => rfl
  case some => cases h

/-- Settles O56: the end a launched decode reaches is DECODE's. -/
theorem engineRefinesDecode : Obligations.EngineRefinesDecode := by
  intro s h hlaunched r
  obtain ⟨t, hrun, hidle, hends, hconfig, hbeyond⟩ := hlaunched.run h
  have hout := hends.out
  simp only [State.configPart, Prod.mk.injEq] at hconfig
  obtain ⟨-, hcnt, hes, -⟩ := hconfig
  rw [hcnt, hes] at hout
  exact ⟨_, t, le_rfl, hrun, hidle, hends.status, hends.inPos, hends.elemDone, hout, hbeyond⟩

/-- Settles O55: both decodes reach DECODE's end, which depends on the input below `len` alone. -/
theorem resultDependsOnlyOnTheInput : Obligations.ResultDependsOnlyOnTheInput := by
  intro s s' h h' hlaunched hlaunched' hparams hcnt hes hlen hinp
  obtain ⟨t, hrun, hidle, hends, hconfig, -⟩ := hlaunched.run h
  obtain ⟨t', hrun', hidle', hends', hconfig', -⟩ := hlaunched'.run h'
  have hsame := decodeBuffer_congr s.params s.cnt.toNat (es := s.es.toNat) hinp (s.peek .out) (s'.peek .out)
  simp only [State.configPart, Prod.mk.injEq] at hconfig hconfig'
  obtain ⟨-, htcnt, htes, -⟩ := hconfig
  obtain ⟨-, htcnt', htes', -⟩ := hconfig'
  rw [← hparams, ← hcnt, ← hes, ← hlen] at hends'
  rw [← hcnt, ← hes] at hrun'
  refine ⟨_, t, t', hrun, hrun', hidle, hidle', ?_, ?_, ?_, fun herr a ha => ?_⟩
  · rw [hends.status, hends'.status, hsame.reason, hsame.version]
  · exact BitVec.eq_of_toNat_eq (by rw [hends.elemDone, hends'.elemDone, hsame.elemDone])
  · exact BitVec.eq_of_toNat_eq (by rw [hends.inPos, hends'.inPos, hsame.inPos])
  · have hok := Status.ended_of_err_false (hends.status ▸ herr)
    have hout := hends.out hok
    have hout' := hends'.out (hsame.reason.symm.trans hok)
    have hagree := hsame.out
    rw [htcnt, htes] at hout
    rw [htcnt', htes', ← hcnt, ← hes] at hout'
    rw [hends.all hok, htcnt] at hagree
    rw [hout a ha, hout' a ha, hagree a ha]

end Sys2Proof.Machine
end
